-- ==== Sys2Proof/Word.lean ====
section
/-! DEFINITION. The word types of pixel_upscaler_2x: `REG_W` = `PIX_W` = 32 bits, `CH_W` = 8 bits (00_scope.md R6). -/

namespace Sys2Proof

/-- A register, a command word, a Packed Pixel or a memory word (00_scope.md R6, R9). -/
abbrev Word := BitVec 32

/-- A byte of memory, or one colour channel (00_scope.md R6). -/
abbrev Byte := BitVec 8

/-- A bit pattern of an IEEE 754 binary32 value (00_scope.md R10). -/
abbrev F32 := BitVec 32

end Sys2Proof
end

