-- ==== Sys2Proof/Syntax.lean ====
section
/-! DEFINITION. The seven commands and the fields of the command word (30_encoding.md R110, R112). -/

namespace Sys2Proof

/-- The commands of 30_encoding.md R112. No command has an operand field: operands are registers (R114). -/
inductive Instr where
  /-- complete at once, no other effect (45_scan_driver.md R258) -/
  | nop
  /-- upscale the whole source into the destination (45_scan_driver.md R253) -/
  | apply
  /-- evaluate the four quadrant rules of one source pixel (44_edge_rule_engine.md R232) -/
  | pixel
  /-- read one cell of one neighborhood matrix (41_neighborhood_sampler.md R166) -/
  | sample
  /-- color difference metric of two pixels (42_color_difference_metric.md R188) -/
  | diff
  /-- blend two pixels at ALPHA (43_color_blender.md R206) -/
  | blend
  /-- extract the three channels of a pixel and repack it (40_packed_rgb_accessor.md R148) -/
  | unpack
  deriving DecidableEq, Repr

/-- The fields of a command word (30_encoding.md R110). -/
structure CmdFields where
  /-- OP, bits 3:0 -/
  op : BitVec 4
  /-- RSV, bits 31:4 -/
  rsv : BitVec 28
  deriving DecidableEq, Repr

end Sys2Proof
end

