-- ==== Sys2Proof/WellFormed.lean ====
section
/-! DEFINITION. Which command words and which register accesses are legal. `Instr` has no operands, so every `Instr` is well formed. -/

namespace Sys2Proof

/-- RSV must be 0 (30_encoding.md R110). -/
def CmdFields.rsvZero (c : CmdFields) : Bool := c.rsv == 0#28

/-- OP is one of the opcodes 0x0 to 0x6 (30_encoding.md R112). -/
def CmdFields.opAssigned (c : CmdFields) : Bool := decide (c.op.toNat ≤ 6)

/-- A legal command (30_encoding.md R111, R113). -/
def CmdFields.wf (c : CmdFields) : Bool := c.rsvZero && c.opAssigned

/-- The register port carries only whole 32-bit accesses at offsets that are multiples of 4 (10_state.md R30, K1.10). -/
def wordOffset (off : BitVec 8) : Bool := off.toNat % 4 == 0

end Sys2Proof
end

