-- ==== Sys2Proof/Decode.lean ====
section
/-! DEFINITION. Decoding of the accepted command word and the encoder (30_encoding.md R110 to R113, R115). -/

namespace Sys2Proof

/-- Why a command word is ILLEGAL (30_encoding.md R111). -/
inductive Reject where
  /-- v[31:4] is not 0 -/
  | reservedBits
  /-- v[31:4] = 0 and v[3:0] is in 0x7 to 0xF -/
  | reservedOpcode
  deriving DecidableEq, Repr

/-- The fields of a word: OP = v[3:0], RSV = v[31:4] (30_encoding.md R110). -/
def fieldsOf (v : Word) : CmdFields := ⟨v.extractLsb' 0 4, v.extractLsb' 4 28⟩

/-- The word of given fields (30_encoding.md R110). -/
def wordOf (c : CmdFields) : Word := c.rsv ++ c.op

/-- The opcode map of 30_encoding.md R112. -/
def opcodeMap : List (BitVec 4 × Instr) :=
  [(0x0#4, .nop), (0x1#4, .apply), (0x2#4, .pixel), (0x3#4, .sample), (0x4#4, .diff), (0x5#4, .blend), (0x6#4, .unpack)]

/-- Decoding of fields: RSV first, whatever OP holds (30_encoding.md R111). -/
def decodeFields (c : CmdFields) : Except Reject Instr :=
  if c.rsvZero then
    match opcodeMap.lookup c.op with
    | some i => .ok i
    | none => .error .reservedOpcode
  else .error .reservedBits

/-- Decoding of an accepted command word, total on all 2^32 words (30_encoding.md R111, R115). -/
def decode (v : Word) : Except Reject Instr := decodeFields (fieldsOf v)

/-- The opcode of a command (30_encoding.md R112). -/
def opcodeOf : Instr → BitVec 4
  | .nop => 0x0#4
  | .apply => 0x1#4
  | .pixel => 0x2#4
  | .sample => 0x3#4
  | .diff => 0x4#4
  | .blend => 0x5#4
  | .unpack => 0x6#4

/-- The command word of a command (30_encoding.md R112). -/
def encode (i : Instr) : Word := wordOf ⟨opcodeOf i, 0#28⟩

/-- The 32-bit command word given by `nbits` bits of `w`, the bits above them 0: a command is exactly one word, and it
arrives as the data of a CMD write, so no byte order enters (30_encoding.md R110, 20_memory.md R96). -/
def tableWord (nbits w : Nat) : Word := BitVec.ofNat 32 (w % 2 ^ nbits)

/-- What the decoder reads from an opcode table word. -/
def decodeTableWord (nbits w : Nat) : Option Instr :=
  match decode (tableWord nbits w) with
  | .ok i => some i
  | .error _ => none

end Sys2Proof
end

