-- ==== Sys2Proof/Config.lean ====
section
/-! DEFINITION. What the platform or the build fixes, and the free values: constants without a body, of which nothing can be proved. -/

namespace Sys2Proof.Config

/-- `REG_BASE`, the byte address of the register window on the host bus: OPEN, a parameter of the platform
(00_scope.md R6, 10_state.md R30, K1.22; log 15). -/
opaque regBase : Nat

/-- `REG_SPAN`, the size of the register window in bytes (00_scope.md R6). -/
def regSpan : Nat := 0x100

/-- `ID_VALUE` (00_scope.md R6, 10_state.md R32). -/
def idValue : Word := 0x58425232#32

/-- Free value: the n-th word that a racing access returns or leaves (20_memory.md R94, K1.11; log 7). -/
opaque freeWord : Nat → Word

/-- Free value: sign and fraction bits of the NaN that an operation on these two operands answers; IEEE 754 leaves
them open and no command reaches a NaN (42_color_difference_metric.md R185; log 9). -/
opaque nanBits : F32 → F32 → Word

/-- DESIGN CHOICE (log 1, unsafe): what a byte of memory that nothing has stored to reads as; the spec gives memory no
reset contents (10_state.md R62, 70_reset_and_hazards.md R322). -/
def unlistedByte : Byte := 0#8

end Sys2Proof.Config
end

