-- ==== Sys2Proof/Machine/Float.lean ====
section
/-! DEFINITION. The binary32 operations of 00_scope.md R10: computed exactly on integers, then rounded once to nearest, ties to even. -/

namespace Sys2Proof.Machine

/-- `f n`, with n evaluated to a numeral first (`evalNat_eq`): a term with an operation on unknown operands then stays
as it stands when Lean compares it with another, instead of being unfolded into all its arithmetic. -/
def evalNat {α : Type} (n : Nat) (f : Nat → α) : α :=
  match n with
  | 0 => f 0
  | k + 1 => f (k + 1)

/-- `f a`, with the bits of a evaluated first. -/
def fforce {α : Type} (a : F32) (f : F32 → α) : α := evalNat a.toNat fun n => f (BitVec.ofNat 32 n)

/-- The sign bit. -/
def fsign (a : F32) : Bool := a.msb

/-- The biased exponent, 8 bits. -/
def fexp (a : F32) : Nat := a.toNat / 2 ^ 23 % 2 ^ 8

/-- The fraction, 23 bits. -/
def ffrac (a : F32) : Nat := a.toNat % 2 ^ 23

/-- a is a NaN. -/
def fisNaN (a : F32) : Bool := fexp a == 255 && ffrac a != 0

/-- a is an infinity. -/
def fisInf (a : F32) : Bool := fexp a == 255 && ffrac a == 0

/-- |a| of a finite a, in units of 2^-149, the smallest positive binary32. The same formula gives an infinity 2^128,
above every finite value, which is all a comparison needs. -/
def fmag (a : F32) : Nat := if fexp a = 0 then ffrac a else (2 ^ 23 + ffrac a) * 2 ^ (fexp a - 1)

/-- The value of a, in units of 2^-149. -/
def fval (a : F32) : Int := if fsign a then -(fmag a : Int) else (fmag a : Int)

/-- The 31 low bits of the binary32 nearest to m · 2^-(149+k), ties to even. With e the exponent of the last place
(at least that of 2^-149) and q the significand rounded to it, the pattern is e · 2^23 + q: a significand that
rounds up to 2^24 carries into the exponent field, and what passes the largest finite value is an infinity. -/
def froundMag (k m : Nat) : Nat :=
  let sh := max (m.log2 - 23) k
  let q := m / 2 ^ sh
  let r := m % 2 ^ sh
  let up := decide (2 ^ sh < 2 * r) || (2 * r == 2 ^ sh && q % 2 == 1)
  min ((sh - k) * 2 ^ 23 + (if up then q + 1 else q)) 0x7F800000

/-- The pattern with a sign and 31 low bits. -/
def fpack (s : Bool) (bits : Nat) : F32 := BitVec.ofNat 32 (if s then 2 ^ 31 + bits else bits)

/-- A NaN whose sign and fraction the model leaves free (log 9). -/
def fnan (a b : F32) : F32 := Config.nanBits a b ||| 0x7FC00000#32

/-- a with its sign changed. -/
def fneg (a : F32) : F32 := a ^^^ 0x80000000#32

/-- `fabs(a)`: clears the sign (00_scope.md R10). -/
def fabs (a : F32) : F32 := a &&& 0x7FFFFFFF#32

/-- `a ⊕ b` (00_scope.md R10). An exact sum of zero is +0, unless both operands are negative. -/
def fadd (a b : F32) : F32 :=
  fforce a fun a => fforce b fun b =>
  if fisNaN a || fisNaN b then fnan a b
  else if fisInf a then (if fisInf b && fsign a != fsign b then fnan a b else a)
  else if fisInf b then b
  else
    let n := fval a + fval b
    if n = 0 then fpack (fsign a && fsign b) 0 else fpack (decide (n < 0)) (froundMag 0 n.natAbs)

/-- `a ⊖ b` (00_scope.md R10). -/
def fsub (a b : F32) : F32 := fadd a (fneg b)

/-- `a ⊗ b` (00_scope.md R10). -/
def fmul (a b : F32) : F32 :=
  fforce a fun a => fforce b fun b =>
  if fisNaN a || fisNaN b then fnan a b
  else if fisInf a || fisInf b then
    (if fmag a = 0 ∨ fmag b = 0 then fnan a b else fpack (fsign a != fsign b) 0x7F800000)
  else fpack (fsign a != fsign b) (froundMag 149 (fmag a * fmag b))

/-- `a <f b`: the ordered comparison, false if either is NaN (00_scope.md R10). -/
def flt (a b : F32) : Bool :=
  fforce a fun a => fforce b fun b => !fisNaN a && !fisNaN b && decide (fval a < fval b)

/-- `a <=f b`: the ordered comparison, false if either is NaN (00_scope.md R10). -/
def fle (a b : F32) : Bool :=
  fforce a fun a => fforce b fun b => !fisNaN a && !fisNaN b && decide (fval a ≤ fval b)

/-- `f32(n)` of a natural number up to 2^24, exact (00_scope.md R10). -/
def f32 (n : Nat) : F32 := evalNat n fun n => fpack false (froundMag 0 (n * 2 ^ 149))

/-- `trunc(a)` of a finite a: the integer part, rounded toward zero (00_scope.md R10). -/
def ftrunc (a : F32) : Int := (fval a).tdiv (2 ^ 149)

end Sys2Proof.Machine
end

