-- ==== Sys2Proof/Machine/Accessor.lean ====
section
/-! DEFINITION. `packed_rgb_accessor` (40_packed_rgb_accessor.md R140 to R145). -/

namespace Sys2Proof.Machine

/-- The channel selector (40_packed_rgb_accessor.md R141). -/
inductive Channel where
  | red | green | blue
  deriving DecidableEq, Repr

/-- `channel(p, which)`; bits 31:24 are ignored (40_packed_rgb_accessor.md R142). -/
def channel (p : Word) : Channel → Byte
  | .red => p.extractLsb' 16 8
  | .green => p.extractLsb' 8 8
  | .blue => p.extractLsb' 0 8

/-- `pack(r, g, b)`; bits 31:24 are 0 (40_packed_rgb_accessor.md R143). -/
def pack (r g b : Byte) : Word := ((0#8 ++ r) ++ g) ++ b

/-- `channel_f(p, which)` (40_packed_rgb_accessor.md R144). -/
def channelF (p : Word) (c : Channel) : F32 := f32 (channel p c).toNat

/-- `to8(v)`: truncate, then wrap modulo 256; a NaN or an infinity gives 0 (40_packed_rgb_accessor.md R145). -/
def to8 (v : F32) : Byte :=
  fforce v fun v =>
  if fisNaN v || fisInf v then 0#8 else BitVec.ofNat 8 ((ftrunc v).emod 256).toNat

/-- `pack_f(r, g, b)` (40_packed_rgb_accessor.md R145). -/
def packF (r g b : F32) : Word := pack (to8 r) (to8 g) (to8 b)

end Sys2Proof.Machine
end

