-- ==== Sys2Proof/Machine/Blend.lean ====
section
/-! DEFINITION. `color_blender` (43_color_blender.md R200 to R207). -/

namespace Sys2Proof.Machine

/-- `ALPHA` = 0.5, a build constant (43_color_blender.md R200). -/
def alpha : F32 := 0x3F000000#32

/-- 1.0 -/
def fone : F32 := 0x3F800000#32

/-- One channel of the blend: `(alpha ⊗ b) ⊕ ((1.0 ⊖ alpha) ⊗ a)` (43_color_blender.md R202). -/
def blendChannel (a b : Word) (al : F32) (c : Channel) : F32 :=
  fadd (fmul al (channelF b c)) (fmul (fsub fone al) (channelF a c))

/-- `blend(a, b, alpha)` (43_color_blender.md R202). -/
def blend (a b : Word) (al : F32) : Word :=
  packF (blendChannel a b al .red) (blendChannel a b al .green) (blendChannel a b al .blue)

end Sys2Proof.Machine
end

