-- ==== Sys2Proof/Machine/Metric.lean ====
section
/-! DEFINITION. `color_difference_metric` (42_color_difference_metric.md R180 to R187). -/

namespace Sys2Proof.Machine

/-- C_YR = 0.299 (42_color_difference_metric.md R181). -/
def cYR : F32 := 0x3E991687#32
/-- C_YG = 0.587 -/
def cYG : F32 := 0x3F1645A2#32
/-- C_YB = 0.114 -/
def cYB : F32 := 0x3DE978D5#32
/-- C_UR = -0.168736 -/
def cUR : F32 := 0xBE2CC921#32
/-- C_UG = 0.331264, subtracted -/
def cUG : F32 := 0x3EA99B6F#32
/-- C_UB = 0.5 -/
def cUB : F32 := 0x3F000000#32
/-- C_VR = 0.5 -/
def cVR : F32 := 0x3F000000#32
/-- C_VG = 0.418688, subtracted -/
def cVG : F32 := 0x3ED65E46#32
/-- C_VB = 0.081312, subtracted -/
def cVB : F32 := 0x3DA686E8#32
/-- W_Y = 48 -/
def wY : F32 := 0x42400000#32
/-- W_U = 7 -/
def wU : F32 := 0x40E00000#32
/-- W_V = 6 -/
def wV : F32 := 0x40C00000#32

/-- The absolute difference of one channel, taken before the transform (42_color_difference_metric.md R182, R183). -/
def channelDiff (a b : Word) (c : Channel) : F32 := fabs (fsub (channelF a c) (channelF b c))

/-- Luma, chroma U, chroma V and their weighted sum, in the order of 42_color_difference_metric.md R182. -/
def lumaY (r g b : F32) : F32 := fadd (fadd (fmul cYR r) (fmul cYG g)) (fmul cYB b)
/-- See `lumaY`. -/
def chromaU (r g b : F32) : F32 := fadd (fsub (fmul cUR r) (fmul cUG g)) (fmul cUB b)
/-- See `lumaY`. -/
def chromaV (r g b : F32) : F32 := fsub (fsub (fmul cVR r) (fmul cVG g)) (fmul cVB b)

/-- The metric of given channel differences (42_color_difference_metric.md R182). -/
def metric (r g b : F32) : F32 :=
  fadd (fadd (fmul wY (lumaY r g b)) (fmul wU (chromaU r g b))) (fmul wV (chromaV r g b))

/-- `diff(a, b)` (42_color_difference_metric.md R182). -/
def diff (a b : Word) : F32 := metric (channelDiff a b .red) (channelDiff a b .green) (channelDiff a b .blue)

end Sys2Proof.Machine
end

