-- ==== Sys2Proof/Machine/State.lean ====
section
/-! DEFINITION. The state of the block, of memory and of the environment's queue, as plain data, and the state right after reset (10_state.md R31 to R62). -/

namespace Sys2Proof.Machine

/-- The error codes of STATUS.ERRCODE (60_exceptions.md R281); 0x9 to 0xF are never produced (K1.8). -/
inductive ErrCode where
  | none | illegalCmd | srcLen | dstLen | align | range | overlap | arg | bus
  deriving DecidableEq, Repr

/-- The registers of the register map (10_state.md R31). -/
inductive RegName where
  | id | ctrl | status | cmd
  | width | height | srcBase | srcLen | dstBase | dstLen
  | outWidth | outHeight | outLen
  | opx | opy | opk | opa | opb
  | res0 | res1 | res2 | res3 | decision
  deriving DecidableEq, Repr

/-- `snap`: the eleven operand registers as latched at acceptance (10_state.md R56). -/
structure Snapshot where
  width : Word
  height : Word
  srcBase : Word
  srcLen : Word
  dstBase : Word
  dstLen : Word
  opx : Word
  opy : Word
  opk : Word
  opa : Word
  opb : Word
  deriving DecidableEq, Repr

/-- The Neighborhood Matrix M[0..20] as the list of its cells (41_neighborhood_sampler.md R160). -/
abbrev Matrix := List Word

/-- A Neighborhood Matrix while it is read (41_neighborhood_sampler.md R162). -/
structure Window where
  /-- the in-bounds cells that still lack their word -/
  todo : List Nat
  /-- the cells: the zero pixel outside the image and where the word is still lacking -/
  cells : Matrix
  deriving DecidableEq, Repr

/-- How far APPLY is with one source pixel. -/
inductive PixelWork where
  /-- its matrix is being read -/
  | sampling (win : Window)
  /-- the destination cells still to be written: cell number and word -/
  | writing (outs : List (Nat × Word))
  deriving DecidableEq, Repr

/-- One source pixel (x, y) that APPLY has not finished (45_scan_driver.md R253, R254). -/
structure PixelJob where
  x : Nat
  y : Nat
  work : PixelWork
  deriving DecidableEq, Repr

/-- A running command. -/
structure Running where
  /-- the accepted command word, whose bits 3:0 are `op` of `RUNNING(op)` (10_state.md R55, R56) -/
  word : Word
  /-- the latched operands (10_state.md R56) -/
  snap : Snapshot
  /-- whether the start checks have been made (60_exceptions.md R282) -/
  checked : Bool
  /-- PIXEL and SAMPLE: the matrix being read (41_neighborhood_sampler.md R162, R166) -/
  window : Window
  /-- the reads made so far, the last one first: address and word; a word read may be reused
  (41_neighborhood_sampler.md R162, 20_memory.md R88; log 6) -/
  reads : List (Nat × Word)
  /-- how many more reads the command may make of words that it has read already, so that with the first read of each
  word it makes at most 21·W·H (20_memory.md R88, 70_reset_and_hazards.md R341; log 6) -/
  rereads : Nat
  /-- APPLY: the source pixels not yet finished (45_scan_driver.md R253) -/
  todo : List PixelJob
  /-- APPLY: `done_set`, the finished source pixels (10_state.md R57) -/
  doneSet : List (Nat × Nat)
  /-- another agent has stored to a buffer of this command since the CMD write: every cell the block reads or writes
  is racing (20_memory.md R94, K1.11; log 7) -/
  raced : Bool
  deriving DecidableEq, Repr

/-- The command engine (10_state.md R55); IDLE holds no `snap` and no `done_set`: they have no value then (R62; log 13). -/
inductive Engine where
  | idle
  | running (r : Running)
  deriving DecidableEq, Repr

/-- The two kinds of access on the memory port (00_scope.md R11). -/
inductive Access where
  | read | write
  deriving DecidableEq, Repr

/-- What reaches the block or memory from outside (00_scope.md R3, R14). -/
inductive Event where
  /-- a host read of the register at an offset (10_state.md R30, R31) -/
  | regRead (off : BitVec 8)
  /-- a host write to the register at an offset; a write to CMD is a command request (10_state.md R31, R36) -/
  | regWrite (off : BitVec 8) (v : Word)
  /-- the host or another agent stores one byte of memory, and the store is performed at once (00_scope.md R14,
  20_memory.md R81, R92, R94) -/
  | store (a : Word) (v : Byte)
  /-- the host stores the word at byte address 4·n, and the store is not performed in memory yet: a cache or a store
  buffer of the host holds it (20_memory.md R92, 70_reset_and_hazards.md R331, K1.14; log 17) -/
  | hold (n : BitVec 30) (v : Word)
  /-- the store that the host holds for the word at byte address 4·n is performed in memory (70_reset_and_hazards.md
  R331, K1.14; log 17) -/
  | drain (n : BitVec 30)
  /-- the input `rst` is asserted (`true`) or released (`false`) (70_reset_and_hazards.md R320) -/
  | rst (level : Bool)
  /-- the platform changes which accesses it answers with `bus_error` (60_exceptions.md R293, K1.19; log 8) -/
  | busErrors (l : List (Access × Nat))
  deriving DecidableEq, Repr

/-- An event of the environment and the number of block steps that pass before it lands (60_exceptions.md R296,
70_reset_and_hazards.md R340; log 4). -/
structure Input where
  after : Nat
  event : Event
  deriving DecidableEq, Repr

/-- How a cell of a matrix gets its word (20_memory.md R88, 41_neighborhood_sampler.md R162, K1.21; log 6). -/
inductive ReadChoice where
  /-- by a read -/
  | fetch
  /-- from a read that the command has made of it before, the n-th, if it has made one -/
  | reuse (n : Nat)
  /-- the block first reads a source word, the n-th, that no cell needs now -/
  | extra (n : Nat)
  deriving DecidableEq, Repr

/-- A choice among what the spec leaves free inside PIXEL and APPLY (45_scan_driver.md R253, R254, 20_memory.md R88,
60_exceptions.md R293; log 5, log 6, log 22). Numbers are taken modulo what there is. -/
structure Choice where
  /-- which unfinished source pixel makes its next access -/
  job : Nat
  /-- which of its lacking cells, or of its outstanding writes, that is for -/
  item : Nat
  /-- how a cell gets its word -/
  read : ReadChoice
  /-- whether a write that memory answers with `bus_error` has changed the word all the same -/
  landed : Bool
  deriving DecidableEq, Repr

/-- Memory: the listed bytes, addresses strictly rising, none of the value an unlisted byte reads as. -/
abbrev Memory := List Host.Cell

/-- The whole state. The fields up to `engine` and `rst` are the block's, `mem`, `held` and `busErrors` the platform's;
the last four are the model's own (INVENTORY.md, State). -/
structure State where
  /-- CTRL.IRQ_EN (10_state.md R33) -/
  irqEn : Bool
  /-- STATUS.DONE (10_state.md R34) -/
  done : Bool
  /-- STATUS.ERR (10_state.md R34) -/
  err : Bool
  /-- STATUS.OVR (10_state.md R34) -/
  ovr : Bool
  /-- STATUS.ERRCODE (10_state.md R34) -/
  errCode : ErrCode
  /-- WIDTH (10_state.md R37) -/
  width : Word
  /-- HEIGHT (10_state.md R37) -/
  height : Word
  /-- SRC_BASE (10_state.md R38) -/
  srcBase : Word
  /-- SRC_LEN (10_state.md R38) -/
  srcLen : Word
  /-- DST_BASE (10_state.md R39) -/
  dstBase : Word
  /-- DST_LEN (10_state.md R39) -/
  dstLen : Word
  /-- OPX (10_state.md R41) -/
  opx : Word
  /-- OPY (10_state.md R41) -/
  opy : Word
  /-- OPK (10_state.md R42) -/
  opk : Word
  /-- OPA (10_state.md R43) -/
  opa : Word
  /-- OPB (10_state.md R43) -/
  opb : Word
  /-- RES0 (10_state.md R44) -/
  res0 : Word
  /-- RES1 (10_state.md R44) -/
  res1 : Word
  /-- RES2 (10_state.md R44) -/
  res2 : Word
  /-- RES3 (10_state.md R44) -/
  res3 : Word
  /-- DECISION (10_state.md R45) -/
  decision : Word
  /-- the command engine; STATUS.BUSY is its being RUNNING (10_state.md R55) -/
  engine : Engine
  /-- the level of the input `rst` (70_reset_and_hazards.md R320) -/
  rst : Bool
  /-- memory (20_memory.md R80) -/
  mem : Memory
  /-- the words that the host has stored and that are not performed in memory yet, by word number: byte address / 4
  (20_memory.md R92, 70_reset_and_hazards.md R331, K1.14; log 17). A store performed at once leaves them as they are:
  DESIGN CHOICE (log 17) -/
  held : List (BitVec 30 × Word)
  /-- the accesses memory answers with `bus_error`: kind and word address (60_exceptions.md R293, K1.19; log 8) -/
  busErrors : List (Access × Nat)
  /-- the environment's events still to come (log 4) -/
  inputs : List Input
  /-- the word the register port returned for the last host read (log 14) -/
  readData : Word
  /-- the choices inside PIXEL and APPLY still to be used; exhausted, it means row-major order with one read for each
  in-bounds cell, or a reuse where no further read is left (log 5, log 6, log 22) -/
  schedule : List Choice
  /-- how many free words have been used (log 7) -/
  freeCount : Nat
  deriving DecidableEq, Repr

/-- Faults: none. The block has no stuck case, and every error of the spec is an error completion, a next state
(60_exceptions.md R280, R297; 93_implementation_defined.md). -/
inductive Fault where
  deriving DecidableEq, Repr

/-- Refusals. -/
inductive Refusal where
  /-- raised by `exec` for a command without a meaning; there is none -/
  | notModelled (mnemonic : String)
  /-- raised by `step` for a host register access at an offset that is no multiple of 4: the treatment `refuse` of
  K1.10 (log 10); safe -/
  | registerAccessNotWord (off : BitVec 8)
  deriving DecidableEq, Repr

/-- The state right after reset (10_state.md R62, 70_reset_and_hazards.md R320), `rst` released, with nothing stored
in memory (log 1), no store held and no input waiting (log 2). -/
def State.reset : State where
  irqEn := false
  done := false
  err := false
  ovr := false
  errCode := .none
  width := 0
  height := 0
  srcBase := 0
  srcLen := 0
  dstBase := 0
  dstLen := 0
  opx := 0
  opy := 0
  opk := 0
  opa := 0
  opb := 0
  res0 := 0
  res1 := 0
  res2 := 0
  res3 := 0
  decision := 0
  engine := .idle
  rst := false
  mem := []
  held := []
  busErrors := []
  inputs := []
  readData := 0
  schedule := []
  freeCount := 0

end Sys2Proof.Machine
end

