-- ==== Sys2Proof/Machine/EdgeRules.lean ====
section
/-! DEFINITION. `edge_rule_engine` (44_edge_rule_engine.md R220 to R231). -/

namespace Sys2Proof.Machine

/-- `M[k]` (00_scope.md R11). -/
def cell (m : Matrix) (k : Nat) : Word := m.getD k 0#32

/-- `CENTER` = 10 (00_scope.md R6). -/
def centerIndex : Nat := 10

/-- `d(i, j)` (00_scope.md R11). -/
def cellDiff (m : Matrix) (p : Nat × Nat) : F32 := diff (cell m p.1) (cell m p.2)

/-- One row of the rule table: four A terms and the A axis term, four B terms and the B axis term, the two candidates
(44_edge_rule_engine.md R221, R222). -/
structure QuadrantRule where
  a1 : Nat × Nat
  a2 : Nat × Nat
  a3 : Nat × Nat
  a4 : Nat × Nat
  aX : Nat × Nat
  b1 : Nat × Nat
  b2 : Nat × Nat
  b3 : Nat × Nat
  b4 : Nat × Nat
  bX : Nat × Nat
  x : Nat
  y : Nat
  deriving DecidableEq, Repr

/-- Top-left (44_edge_rule_engine.md R222, R225). -/
def ruleTL : QuadrantRule where
  a1 := (10, 14)
  a2 := (10, 6)
  a3 := (4, 8)
  a4 := (4, 1)
  aX := (9, 5)
  b1 := (9, 15)
  b2 := (9, 3)
  b3 := (5, 11)
  b4 := (5, 0)
  bX := (10, 4)
  x := 9
  y := 5

/-- Top-right (44_edge_rule_engine.md R222, R226). -/
def ruleTR : QuadrantRule where
  a1 := (10, 16)
  a2 := (10, 4)
  a3 := (6, 12)
  a4 := (6, 1)
  aX := (5, 11)
  b1 := (11, 15)
  b2 := (11, 7)
  b3 := (9, 5)
  b4 := (5, 2)
  bX := (10, 6)
  x := 5
  y := 11

/-- Bottom-left (44_edge_rule_engine.md R222, R227). -/
def ruleBL : QuadrantRule where
  a1 := (10, 4)
  a2 := (10, 16)
  a3 := (14, 8)
  a4 := (14, 19)
  aX := (9, 15)
  b1 := (9, 5)
  b2 := (9, 13)
  b3 := (11, 15)
  b4 := (15, 18)
  bX := (10, 14)
  x := 9
  y := 15

/-- `BR_B3_PAIR` = (15, 17), the table's term, not the mirror image's (00_scope.md R6, 90_conflicts.md C1). -/
def brB3Pair : Nat × Nat := (15, 17)

/-- Bottom-right (44_edge_rule_engine.md R222, R228). -/
def ruleBR : QuadrantRule where
  a1 := (10, 6)
  a2 := (10, 14)
  a3 := (16, 12)
  a4 := (16, 19)
  aX := (11, 15)
  b1 := (9, 15)
  b2 := (15, 20)
  b3 := brB3Pair
  b4 := (5, 11)
  bX := (10, 16)
  x := 11
  y := 15

/-- `AXIS_K` = 4.0 (00_scope.md R6, 44_edge_rule_engine.md R221). -/
def axisK : F32 := 0x40800000#32

/-- A weighted sum: four terms in the table's order, the axis term times 4.0 last (44_edge_rule_engine.md R221). -/
def weightedSum (m : Matrix) (t1 t2 t3 t4 tX : Nat × Nat) : F32 :=
  fadd (fadd (fadd (fadd (cellDiff m t1) (cellDiff m t2)) (cellDiff m t3)) (cellDiff m t4)) (fmul axisK (cellDiff m tX))

/-- The sum A of a rule. -/
def sumA (q : QuadrantRule) (m : Matrix) : F32 := weightedSum m q.a1 q.a2 q.a3 q.a4 q.aX

/-- The sum B of a rule. -/
def sumB (q : QuadrantRule) (m : Matrix) : F32 := weightedSum m q.b1 q.b2 q.b3 q.b4 q.bX

/-- What a rule gives for one quadrant (44_edge_rule_engine.md R220). -/
structure QuadrantOut where
  out : Word
  edge : Bool
  pick : Bool
  deriving DecidableEq, Repr

/-- `d(10, X) <=f d(10, Y)`: the first-listed candidate is taken, ties included (44_edge_rule_engine.md R221, R229). -/
def firstCandidate (q : QuadrantRule) (m : Matrix) : Bool :=
  fle (cellDiff m (centerIndex, q.x)) (cellDiff m (centerIndex, q.y))

/-- The generic rule (44_edge_rule_engine.md R221, R223, R224). -/
def quadrant (q : QuadrantRule) (m : Matrix) : QuadrantOut :=
  if flt (sumA q m) (sumB q m) then
    if firstCandidate q m then ⟨blend (cell m centerIndex) (cell m q.x) alpha, true, false⟩
    else ⟨blend (cell m centerIndex) (cell m q.y) alpha, true, true⟩
  else ⟨cell m centerIndex, false, false⟩

/-- The rules in the order q = 0 to 3: TL, TR, BL, BR (44_edge_rule_engine.md R220). -/
def ruleOf : Fin 4 → QuadrantRule
  | 0 => ruleTL
  | 1 => ruleTR
  | 2 => ruleBL
  | 3 => ruleBR

/-- The cells that a rule reads: the center, the candidates and those of its terms (44_edge_rule_engine.md R221, R222). -/
def QuadrantRule.cells (q : QuadrantRule) : List Nat :=
  centerIndex :: q.x :: q.y ::
    [q.a1, q.a2, q.a3, q.a4, q.aX, q.b1, q.b2, q.b3, q.b4, q.bX].flatMap fun p => [p.1, p.2]

/-- `rule_q(M)` (44_edge_rule_engine.md R225 to R228). -/
def ruleOut (m : Matrix) (q : Fin 4) : QuadrantOut := quadrant (ruleOf q) m

end Sys2Proof.Machine
end

