-- ==== Sys2Proof/Machine/Flags.lean ====
section
/-! DEFINITION. The STATUS and DECISION words, STATUS's write-1-to-clear, and the `irq` output (10_state.md R34, R35, R45, R48, R59). -/

namespace Sys2Proof.Machine

/-- ERRCODE (60_exceptions.md R281). -/
def ErrCode.bits : ErrCode → BitVec 4
  | .none => 0x0#4
  | .illegalCmd => 0x1#4
  | .srcLen => 0x2#4
  | .dstLen => 0x3#4
  | .align => 0x4#4
  | .range => 0x5#4
  | .overlap => 0x6#4
  | .arg => 0x7#4
  | .bus => 0x8#4

/-- STATUS.BUSY: `engine = RUNNING(op)` exactly when BUSY = 1 (10_state.md R34, R55). -/
def State.busy (s : State) : Bool :=
  match s.engine with
  | .idle => false
  | .running _ => true

/-- The STATUS word (10_state.md R34): ERRCODE in bits 11:8, OVR, ERR, DONE, BUSY in bits 3:0, the others 0. -/
def State.statusWord (s : State) : Word :=
  0#20 ++ s.errCode.bits ++ 0#4 ++ BitVec.ofBool s.ovr ++ BitVec.ofBool s.err ++ BitVec.ofBool s.done ++ BitVec.ofBool s.busy

/-- A host write of v to STATUS clears what v has a 1 for, and with ERR also ERRCODE (10_state.md R35). -/
def State.writeStatus (v : Word) (s : State) : State :=
  { s with
    done := s.done && !v.getLsbD 1
    err := s.err && !v.getLsbD 2
    errCode := if v.getLsbD 2 then .none else s.errCode
    ovr := s.ovr && !v.getLsbD 3 }

/-- The CTRL word: IRQ_EN in bit 0 (10_state.md R33). -/
def State.ctrlWord (s : State) : Word := 0#31 ++ BitVec.ofBool s.irqEn

/-- The output `irq` (10_state.md R59, 60_exceptions.md R295). -/
def State.irq (s : State) : Bool := s.irqEn && s.done

/-- The DECISION word of the edge and pick bits of the quadrants (10_state.md R45, 44_edge_rule_engine.md R232). -/
def decisionWord (edge pick : Fin 4 → Bool) : Word :=
  0#24 ++ BitVec.ofBool (pick 3) ++ BitVec.ofBool (pick 2) ++ BitVec.ofBool (pick 1) ++ BitVec.ofBool (pick 0) ++
    BitVec.ofBool (edge 3) ++ BitVec.ofBool (edge 2) ++ BitVec.ofBool (edge 1) ++ BitVec.ofBool (edge 0)

end Sys2Proof.Machine
end

