-- ==== Sys2Proof/Machine/Operands.lean ====
section
/-! DEFINITION. The operands of the commands: the snapshot, image sizes, word addresses and the cells of the window (10_state.md R56, 20_memory.md R84, R85, 41_neighborhood_sampler.md R161, 45_scan_driver.md R251). -/

namespace Sys2Proof.Machine

/-- `snap` <- the current operand registers (10_state.md R56). -/
def State.latch (s : State) : Snapshot where
  width := s.width
  height := s.height
  srcBase := s.srcBase
  srcLen := s.srcLen
  dstBase := s.dstBase
  dstLen := s.dstLen
  opx := s.opx
  opy := s.opy
  opk := s.opk
  opa := s.opa
  opb := s.opb

/-- W (00_scope.md R13). -/
def Snapshot.w (q : Snapshot) : Nat := q.width.toNat

/-- H (00_scope.md R13). -/
def Snapshot.h (q : Snapshot) : Nat := q.height.toNat

/-- `SrcAddr(x, y)`, exact (20_memory.md R84). -/
def Snapshot.srcAddr (q : Snapshot) (x y : Nat) : Nat := q.srcBase.toNat + 4 * (y * q.w + x)

/-- `DstAddr(n)`, exact (20_memory.md R85). -/
def Snapshot.dstAddr (q : Snapshot) (n : Nat) : Nat := q.dstBase.toNat + 4 * n

/-- The end of the source buffer (20_memory.md R86). -/
def Snapshot.srcEnd (q : Snapshot) : Nat := q.srcBase.toNat + 4 * q.srcLen.toNat

/-- The end of the destination buffer (20_memory.md R86). -/
def Snapshot.dstEnd (q : Snapshot) : Nat := q.dstBase.toNat + 4 * q.dstLen.toNat

/-- Byte address a lies in the source buffer (20_memory.md R86). -/
def Snapshot.inSrc (q : Snapshot) (a : Nat) : Bool := decide (q.srcBase.toNat ≤ a) && decide (a < q.srcEnd)

/-- Byte address a lies in the destination buffer (20_memory.md R86). -/
def Snapshot.inDst (q : Snapshot) (a : Nat) : Bool := decide (q.dstBase.toNat ≤ a) && decide (a < q.dstEnd)

/-- `N_CELLS` = 21 (00_scope.md R6). -/
def nCells : Nat := 21

/-- The offsets (dx_k, dy_k), k = 0 to 20 (41_neighborhood_sampler.md R161, R163). -/
def cellOffsets : List (Int × Int) :=
  [(-1, -2), (0, -2), (1, -2),
   (-2, -1), (-1, -1), (0, -1), (1, -1), (2, -1),
   (-2, 0), (-1, 0), (0, 0), (1, 0), (2, 0),
   (-2, 1), (-1, 1), (0, 1), (1, 1), (2, 1),
   (-1, 2), (0, 2), (1, 2)]

/-- The coordinate of cell k around (x, y), without wrap (41_neighborhood_sampler.md R161, R165). -/
def cellCoord (x y k : Nat) : Int × Int :=
  let d := cellOffsets.getD k (0, 0)
  (x + d.1, y + d.2)

/-- The bounds test, on each coordinate (41_neighborhood_sampler.md R161, R164). -/
def Snapshot.inBounds (q : Snapshot) (c : Int × Int) : Bool :=
  decide (0 ≤ c.1) && decide (c.1 < q.w) && decide (0 ≤ c.2) && decide (c.2 < q.h)

/-- The byte address of the source word of cell k around (x, y); `none` when the cell lies outside the image and is
the zero pixel without any access (20_memory.md R84, 41_neighborhood_sampler.md R162). -/
def Snapshot.cellAddr (q : Snapshot) (x y k : Nat) : Option Nat :=
  let c := cellCoord x y k
  if q.inBounds c then some (q.srcAddr c.1.toNat c.2.toNat) else none

/-- Those of the cells ks around (x, y) that lie in the image (41_neighborhood_sampler.md R161, R162). -/
def Snapshot.inBoundsCells (q : Snapshot) (x y : Nat) (ks : List Nat) : List Nat :=
  ks.filter fun k => (q.cellAddr x y k).isSome

/-- The indices of a whole matrix. -/
def allCells : List Nat := List.range nCells

/-- The matrix around (x, y) before any read, of which the cells ks are wanted (41_neighborhood_sampler.md R162). -/
def Snapshot.window (q : Snapshot) (x y : Nat) (ks : List Nat) : Window :=
  ⟨q.inBoundsCells x y ks, List.replicate nCells 0#32⟩

/-- W·H > 0 (20_memory.md R100). -/
def Snapshot.nonEmpty (q : Snapshot) : Bool := q.w * q.h != 0

/-- The address of the n-th source word, n modulo W·H, if there is a source word (20_memory.md R84, R88). -/
def Snapshot.sourceWord (q : Snapshot) (n : Nat) : Option Nat :=
  if q.nonEmpty then some (q.srcBase.toNat + 4 * (n % (q.w * q.h))) else none

/-- The addresses of those of the cells ks around (x, y) that lie in the image (41_neighborhood_sampler.md R162). -/
def Snapshot.cellWords (q : Snapshot) (x y : Nat) (ks : List Nat) : List Nat := ks.filterMap (q.cellAddr x y)

/-- The address of the n-th in-bounds cell around (x, y), n modulo their number, if there is one
(44_edge_rule_engine.md R232). -/
def Snapshot.windowWord (q : Snapshot) (x y n : Nat) : Option Nat :=
  let l := q.cellWords x y allCells
  l[n % l.length]?

/-- The most reads that a command makes: 21·W·H (70_reset_and_hazards.md R341). -/
def Snapshot.maxReads (q : Snapshot) : Nat := 21 * (q.w * q.h)

/-- The destination cell `off(x, y, q)` of quadrant q (45_scan_driver.md R251). -/
def Snapshot.dstCell (s : Snapshot) (x y : Nat) (q : Fin 4) : Nat :=
  (2 * y + q.val / 2) * (2 * s.w) + (2 * x + q.val % 2)

/-- The source pixels [0, W) × [0, H) in row-major order (45_scan_driver.md R253, R254). -/
def Snapshot.pixels (q : Snapshot) : List (Nat × Nat) := (List.range (q.w * q.h)).map fun n => (n % q.w, n / q.w)

end Sys2Proof.Machine
end

