-- ==== Sys2Proof/Machine/Ops.lean ====
section
/-! DEFINITION. The shared operations: memory, the memory port, the register port, acceptance, completion and error completion. -/

namespace Sys2Proof.Machine

/-! ### Memory (20_memory.md R80 to R82) -/

/-- The byte at an address. -/
def Memory.readByte : Memory → Nat → Byte
  | [], _ => Config.unlistedByte
  | (k, b) :: m, a => if a = k then b else if a < k then Config.unlistedByte else Memory.readByte m a

/-- Store a byte, keeping the canonical form. -/
def Memory.writeByte : Memory → Nat → Byte → Memory
  | [], a, v => if v = Config.unlistedByte then [] else [(a, v)]
  | (k, b) :: m, a, v =>
    if a < k then (if v = Config.unlistedByte then (k, b) :: m else (a, v) :: (k, b) :: m)
    else if a = k then (if v = Config.unlistedByte then m else (k, v) :: m)
    else (k, b) :: Memory.writeByte m a v

/-- The canonical form: addresses strictly rising and below 2^32, no listed byte of the unlisted value. -/
abbrev Memory.wf (m : Memory) : Prop :=
  m.Pairwise (fun c d => c.1 < d.1) ∧ ∀ c ∈ m, c.1 < 2 ^ 32 ∧ c.2 ≠ Config.unlistedByte

/-- `MemRead(a, 4)` of memory itself, little-endian (20_memory.md R81). -/
def Memory.readWord (m : Memory) (a : Nat) : Word :=
  m.readByte (a + 3) ++ m.readByte (a + 2) ++ m.readByte (a + 1) ++ m.readByte a

/-- `MemWrite(a, 4, v)` of memory itself, little-endian (20_memory.md R81). -/
def Memory.writeWord (m : Memory) (a : Nat) (v : Word) : Memory :=
  (((m.writeByte a (v.extractLsb' 0 8)).writeByte (a + 1) (v.extractLsb' 8 8)).writeByte (a + 2)
    (v.extractLsb' 16 8)).writeByte (a + 3) (v.extractLsb' 24 8)

/-! ### The memory port -/

/-- A word of the address space at a multiple of 4, as every access the block issues is (20_memory.md R80, R82, R86). -/
def wordAddr (a : Nat) : Bool := a % 4 == 0 && decide (a < 2 ^ 32)

/-- Memory answers an access other than with `bus_error`: the platform does not refuse it, and it is a word of the
address space (60_exceptions.md R293; log 8). -/
def State.portOk (s : State) (k : Access) (a : Nat) : Bool := wordAddr a && !s.busErrors.contains (k, a)

/-- The n-th free word after the ones used so far (20_memory.md R94, K1.11; log 7). -/
def State.freeAt (s : State) (n : Nat) : Word := Config.freeWord (s.freeCount + n)

/-- n free words have been used. -/
def State.useFree (s : State) (n : Nat) : State := { s with freeCount := s.freeCount + n }

/-- The word at a that the host has stored and that is not performed in memory yet, if there is one
(70_reset_and_hazards.md R331). -/
def State.heldWord (s : State) (a : Nat) : Option Word := s.held.lookup (BitVec.ofNat 30 (a / 4))

/-- What a read of the block that memory answers returns, and the state after it: the word of memory; the old or the new
word, free, where a store of the host is not performed yet; any word when the command is racing
(70_reset_and_hazards.md R331, 20_memory.md R94, K1.11, K1.14; log 7, log 17). -/
def State.answer (s : State) (raced : Bool) (a : Nat) : Word × State :=
  if raced then (s.freeAt 0, s.useFree 1)
  else
    match s.heldWord a with
    | some v => (if (s.freeAt 0).getLsbD 0 then v else s.mem.readWord a, s.useFree 1)
    | none => (s.mem.readWord a, s)

/-- `MemRead(a, 4)` by the block: the word, or `none` for `bus_error` (00_scope.md R11, 20_memory.md R94). -/
def State.memRead (s : State) (raced : Bool) (a : Nat) : Option (Word × State) :=
  if s.portOk .read a then some (s.answer raced a) else none

/-- The word v stored at a. -/
def State.storeWord (s : State) (a : Nat) (v : Word) : State := { s with mem := s.mem.writeWord a v }

/-- The word v, or any word when the command is racing, stored at a (20_memory.md R94). A store that the host holds for that
word stays as it is: DESIGN CHOICE, as for `State.store` (log 17). -/
def State.putWord (s : State) (raced : Bool) (a : Nat) (v : Word) : State :=
  if raced then (s.useFree 1).storeWord a (s.freeAt 0) else s.storeWord a v

/-- `MemWrite(a, 4, v)` by the block: whether memory answers ok, and the state after it (00_scope.md R11). The spec leaves
open whether a write answered with `bus_error` has changed the word (60_exceptions.md R293, K1.17); `landed` says it, a
free choice (log 22). -/
def State.memWrite (s : State) (raced landed : Bool) (a : Nat) (v : Word) : Bool × State :=
  if s.portOk .write a then (true, s.putWord raced a v)
  else (false, if landed && wordAddr a then s.putWord raced a v else s)

/-! ### The sampler's reads (41_neighborhood_sampler.md R162, 20_memory.md R88) -/

/-- What the command's n-th read of the word at a returned, the last one first and n modulo their number, if it has read
that word (41_neighborhood_sampler.md R162). -/
def Running.wordRead (r : Running) (a n : Nat) : Option Word :=
  let l := r.reads.filter fun p => p.1 == a
  l[n % l.length]?.map Prod.snd

/-- The command reads the word at a: the word, the command and the state after it, or `none` for `bus_error`. -/
def State.readWord (s : State) (r : Running) (a : Nat) : Option (Word × Running × State) :=
  match s.memRead r.raced a with
  | none => none
  | some (w, s') => some (w, { r with reads := (a, w) :: r.reads }, s')

/-- The command gets the word at a: by its first read; from a read it has made before, where `reuse` says which or no
further read is left to it; or by a further read (20_memory.md R88, 41_neighborhood_sampler.md R162,
70_reset_and_hazards.md R341; log 6). -/
def State.fetchWord (s : State) (r : Running) (reuse : Option Nat) (a : Nat) : Option (Word × Running × State) :=
  match r.wordRead a (reuse.getD 0) with
  | none => s.readWord r a
  | some w =>
    if reuse.isSome || r.rereads == 0 then some (w, r, s) else s.readWord { r with rereads := r.rereads - 1 } a

/-- One cell of the matrix around (x, y): the zero pixel without any access outside the image, else the source word,
or `none` for `bus_error` (41_neighborhood_sampler.md R162). -/
def State.fetchCell (s : State) (r : Running) (reuse : Option Nat) (x y k : Nat) : Option (Word × Running × State) :=
  match r.snap.cellAddr x y k with
  | none => some (0#32, r, s)
  | some a => s.fetchWord r reuse a

/-- The earlier read that the choice reuses, if it reuses one. -/
def ReadChoice.reuses (c : ReadChoice) : Option Nat :=
  match c with
  | .reuse n => some n
  | .fetch | .extra _ => none

/-- A lacking cell of the matrix around (x, y), the one that the choice picks, gets its word: the matrix, the command
and the state after it, or `none` for `bus_error` (41_neighborhood_sampler.md R162; log 6). -/
def State.fetchNext (s : State) (r : Running) (win : Window) (x y : Nat) (c : Choice) :
    Option (Window × Running × State) :=
  match win.todo[c.item % win.todo.length]? with
  | none => some (win, r, s)
  | some k =>
    match s.fetchCell r c.read.reuses x y k with
    | none => none
    | some (w, r', s') => some (⟨win.todo.eraseIdx (c.item % win.todo.length), win.cells.set k w⟩, r', s')

/-- The results rest on a read of a racing command: it is racing, and one of the cells ks that its results are built
from lies in the image (20_memory.md R94, K1.11; log 7). -/
def Running.racingResults (r : Running) (ks : List Nat) : Bool :=
  r.raced && !(r.snap.inBoundsCells r.snap.opx.toNat r.snap.opy.toNat ks).isEmpty

/-- The matrix around (x, y) as memory holds it, every read answered (41_neighborhood_sampler.md R161, R162). -/
def sampleCell (m : Memory) (q : Snapshot) (x y k : Nat) : Word :=
  match q.cellAddr x y k with
  | none => 0#32
  | some a => m.readWord a

/-- See `sampleCell`. -/
def sampleMatrix (m : Memory) (q : Snapshot) (x y : Nat) : Matrix := (List.range nCells).map (sampleCell m q x y)

/-! ### Acceptance and completion -/

/-- Acceptance of a command word (10_state.md R56). OVR is not changed. -/
def State.accept (word : Word) (s : State) : State :=
  { s with
    done := false
    err := false
    errCode := .none
    engine := .running
      { word := word, snap := s.latch, checked := false, window := ⟨[], []⟩, reads := [], rereads := 0, todo := [],
        doneSet := [], raced := false } }

/-- `complete()`: successful completion; ERR and ERRCODE stay as acceptance left them (60_exceptions.md R291). The
command writes its results in the same step. -/
def State.complete (s : State) : State := { s with engine := .idle, done := true }

/-- `raise Error(code)`: error completion (60_exceptions.md R292). This is the block's one way to take an error. -/
def State.raise (code : ErrCode) (s : State) : State :=
  { s with engine := .idle, done := true, err := true, errCode := code }

/-- RES0 gets a result (60_exceptions.md R291). -/
def State.setRes0 (s : State) (v : Word) : State := { s with res0 := v }

/-- RES0 to RES3 and DECISION get results (60_exceptions.md R291). -/
def State.setResults (s : State) (r0 r1 r2 r3 d : Word) : State :=
  { s with res0 := r0, res1 := r1, res2 := r2, res3 := r3, decision := d }

/-- Overrun: a CMD write while BUSY = 1 (60_exceptions.md R294). -/
def State.overrun (s : State) : State := { s with ovr := true }

/-- The command goes on: the engine holds its new progress. -/
def State.progress (s : State) (r : Running) : State := { s with engine := .running r }

/-- The next choice of what is free inside PIXEL and APPLY; an exhausted schedule gives the first unfinished pixel, its
first lacking cell by a read, or its first write: row-major order (45_scan_driver.md R254; log 5). -/
def Choice.first : Choice := ⟨0, 0, .fetch, false⟩

/-- See `Choice.first`. -/
def State.choice (s : State) : Choice := s.schedule.headD .first

/-- The choice is used up. -/
def State.useChoice (s : State) : State := { s with schedule := s.schedule.tail }

/-- A read of the source word at a that no cell needs now, unless it would be a further one and none is left
(20_memory.md R88, 60_exceptions.md R293; log 6). -/
def State.extraRead (s : State) (r : Running) (a : Nat) : State :=
  match s.fetchWord r none a with
  | none => s.raise .bus
  | some (_, r', s') => s'.progress r'

/-- The source word that the choice has the block read without need, if it does: one of those that `word` numbers. -/
def ReadChoice.extraWord (c : ReadChoice) (word : Nat → Option Nat) : Option Nat :=
  match c with
  | .extra n => word n
  | .fetch | .reuse _ => none

/-! ### Start checks (60_exceptions.md R282 to R290) -/

/-- SRC_LEN (60_exceptions.md R285). -/
def checkSrcLen (q : Snapshot) : Option ErrCode := if q.srcLen.toNat ≠ q.w * q.h then some .srcLen else none

/-- DST_LEN (60_exceptions.md R286). -/
def checkDstLen (q : Snapshot) : Option ErrCode :=
  if q.dstLen.toNat ≠ (2 * q.w) * (2 * q.h) then some .dstLen else none

/-- ALIGN of the source (60_exceptions.md R287). -/
def checkSrcAlign (q : Snapshot) : Option ErrCode :=
  if q.nonEmpty ∧ q.srcBase.toNat % 4 ≠ 0 then some .align else none

/-- ALIGN of the destination (60_exceptions.md R287). -/
def checkDstAlign (q : Snapshot) : Option ErrCode :=
  if q.nonEmpty ∧ q.dstBase.toNat % 4 ≠ 0 then some .align else none

/-- RANGE of the source (60_exceptions.md R288). -/
def checkSrcRange (q : Snapshot) : Option ErrCode := if q.nonEmpty ∧ q.srcEnd > 2 ^ 32 then some .range else none

/-- RANGE of the destination (60_exceptions.md R288). -/
def checkDstRange (q : Snapshot) : Option ErrCode := if q.nonEmpty ∧ q.dstEnd > 2 ^ 32 then some .range else none

/-- OVERLAP (60_exceptions.md R289). -/
def checkOverlap (q : Snapshot) : Option ErrCode :=
  if q.nonEmpty ∧ q.srcBase.toNat < q.dstEnd ∧ q.dstBase.toNat < q.srcEnd then some .overlap else none

/-- ARG (60_exceptions.md R290). -/
def checkArg (q : Snapshot) : Option ErrCode := if q.opk.toNat > 20 then some .arg else none

/-- The start checks of each command in their order, ILLEGAL_CMD apart, which the command word alone decides
(60_exceptions.md R282). -/
def startChecks : Instr → List (Snapshot → Option ErrCode)
  | .nop => []
  | .apply => [checkSrcLen, checkDstLen, checkSrcAlign, checkDstAlign, checkSrcRange, checkDstRange, checkOverlap]
  | .pixel => [checkSrcLen, checkSrcAlign, checkSrcRange]
  | .sample => [checkSrcLen, checkSrcAlign, checkSrcRange, checkArg]
  | .diff => []
  | .blend => []
  | .unpack => []

/-- The first start check that fails, if one does (60_exceptions.md R282, R283). -/
def startError (i : Instr) (q : Snapshot) : Option ErrCode := (startChecks i).findSome? fun check => check q

/-- The step of the start checks: an error completion, or the command goes on from `begun` (60_exceptions.md R282). -/
def State.start (s : State) (i : Instr) (begun : Running) : State :=
  match startError i begun.snap with
  | some code => s.raise code
  | none => s.progress { begun with checked := true }

/-! ### The register port (10_state.md R30 to R46) -/

/-- The register map (10_state.md R31). -/
def registerMap : List (BitVec 8 × RegName) :=
  [(0x00#8, .id), (0x04#8, .ctrl), (0x08#8, .status), (0x0C#8, .cmd), (0x10#8, .width), (0x14#8, .height),
   (0x18#8, .srcBase), (0x1C#8, .srcLen), (0x20#8, .dstBase), (0x24#8, .dstLen), (0x28#8, .outWidth),
   (0x2C#8, .outHeight), (0x30#8, .outLen), (0x34#8, .opx), (0x38#8, .opy), (0x3C#8, .opk), (0x40#8, .opa),
   (0x44#8, .opb), (0x50#8, .res0), (0x54#8, .res1), (0x58#8, .res2), (0x5C#8, .res3), (0x60#8, .decision)]

/-- The register at an offset, if one is there (10_state.md R31). -/
def registerAt (off : BitVec 8) : Option RegName := registerMap.lookup off

/-- The offset of CMD (10_state.md R31). -/
def cmdOffset : BitVec 8 := 0x0C#8

/-- What a read of a register returns (10_state.md R32 to R45). -/
def State.regValue (s : State) : RegName → Word
  | .id => Config.idValue
  | .ctrl => s.ctrlWord
  | .status => s.statusWord
  | .cmd => 0#32
  | .width => s.width
  | .height => s.height
  | .srcBase => s.srcBase
  | .srcLen => s.srcLen
  | .dstBase => s.dstBase
  | .dstLen => s.dstLen
  | .outWidth => 2#32 * s.width
  | .outHeight => 2#32 * s.height
  | .outLen => 4#32 * s.width * s.height
  | .opx => s.opx
  | .opy => s.opy
  | .opk => s.opk
  | .opa => s.opa
  | .opb => s.opb
  | .res0 => s.res0
  | .res1 => s.res1
  | .res2 => s.res2
  | .res3 => s.res3
  | .decision => s.decision

/-- What a host read of an offset returns: 0 where no register is, and 0 while `rst` is asserted
(10_state.md R30, R46, 70_reset_and_hazards.md R320). -/
def State.readReg (s : State) (off : BitVec 8) : Word :=
  if s.rst then 0#32
  else
    match registerAt off with
    | some n => s.regValue n
    | none => 0#32

/-- A host write to a register other than CMD: RW registers store all 32 bits, CTRL its bit 0, STATUS clears, RO
registers keep their value (10_state.md R31, R33, R35, R46). A write to CMD is a command request (R36) and goes through
`issue`; it changes no register here. -/
def State.setReg (s : State) (v : Word) : RegName → State
  | .id => s
  | .ctrl => { s with irqEn := v.getLsbD 0 }
  | .status => s.writeStatus v
  | .cmd => s
  | .width => { s with width := v }
  | .height => { s with height := v }
  | .srcBase => { s with srcBase := v }
  | .srcLen => { s with srcLen := v }
  | .dstBase => { s with dstBase := v }
  | .dstLen => { s with dstLen := v }
  | .outWidth => s
  | .outHeight => s
  | .outLen => s
  | .opx => { s with opx := v }
  | .opy => { s with opy := v }
  | .opk => { s with opk := v }
  | .opa => { s with opa := v }
  | .opb => { s with opb := v }
  | .res0 => s
  | .res1 => s
  | .res2 => s
  | .res3 => s
  | .decision => s

/-- A host write to an offset other than CMD's: no effect where no register is, and none while `rst` is asserted
(10_state.md R30, R46, 70_reset_and_hazards.md R320). -/
def State.writeReg (s : State) (off : BitVec 8) (v : Word) : State :=
  if s.rst then s
  else
    match registerAt off with
    | some n => s.setReg v n
    | none => s

/-- The platform's address decode: the offset in the register window of a byte address of the host bus, if it lies
there (10_state.md R30, 20_memory.md R99; log 15). -/
def windowOffset (a : Nat) : Option (BitVec 8) :=
  if Config.regBase ≤ a ∧ a < Config.regBase + Config.regSpan then some (BitVec.ofNat 8 (a - Config.regBase)) else none

/-! ### Reset (70_reset_and_hazards.md R320 to R322) -/

/-- Every piece of block state takes its reset value; memory, the platform and the environment keep theirs
(70_reset_and_hazards.md R320, R322). -/
def State.resetBlock (s : State) : State :=
  { State.reset with
    rst := s.rst
    mem := s.mem
    held := s.held
    busErrors := s.busErrors
    inputs := s.inputs
    readData := s.readData
    schedule := s.schedule
    freeCount := s.freeCount }

/-- The input `rst` takes a level: the block is reset when it is asserted, a running command abandoned with its writes
left made, and again when it is released (70_reset_and_hazards.md R320, R321; log 11). -/
def State.setRst (s : State) (level : Bool) : State :=
  if level || s.rst then { s.resetBlock with rst := level } else s

/-! ### Stores by the host or another agent (20_memory.md R94) -/

/-- Command i uses the source / the destination (20_memory.md R87). -/
def readsSource (i : Instr) : Bool := i == .apply || i == .pixel || i == .sample

/-- See `readsSource`. -/
def writesDestination (i : Instr) : Bool := i == .apply

/-- A store to byte address a breaks the rule that the buffers are the command's: a lies in a buffer which the running
command i, passing its start checks, uses (20_memory.md R94, 70_reset_and_hazards.md R335; log 7). -/
def Running.racesAt (r : Running) (i : Instr) (a : Nat) : Bool :=
  (startError i r.snap).isNone &&
    ((readsSource i && r.snap.inSrc a) || (writesDestination i && r.snap.inDst a))

/-- Performing at byte address a a store made before the CMD write breaks that rule: a lies in the destination of the
running APPLY. In the source it does not: each read returns the old or the new word (70_reset_and_hazards.md R331, K1.14;
log 17). -/
def Running.drainRacesAt (r : Running) (i : Instr) (a : Nat) : Bool :=
  (startError i r.snap).isNone && writesDestination i && r.snap.inDst a

/-- One byte stored into memory. -/
def State.storeByte (s : State) (a : Nat) (v : Byte) : State := { s with mem := s.mem.writeByte a v }

/-- n words from a base on hold the free words from number c on. -/
def Memory.freeWords (m : Memory) (base c : Nat) : Nat → Memory
  | 0 => m
  | n + 1 => (Memory.freeWords m base c n).writeWord (base + 4 * n) (Config.freeWord (c + n))

/-- Every destination cell of a racing APPLY holds any word (20_memory.md R94, K1.11; log 7). -/
def State.freeDestination (s : State) (q : Snapshot) : State :=
  { s.useFree q.dstLen.toNat with mem := s.mem.freeWords q.dstBase.toNat s.freeCount q.dstLen.toNat }

/-- The running command i is racing from its CMD write on: its reads return any word, its results are any value, and its
destination cells hold any word (20_memory.md R94, K1.11; log 7). -/
def State.race (s : State) (r : Running) (i : Instr) : State :=
  (if writesDestination i then s.freeDestination r.snap else s).progress { r with raced := true }

/-- The words that the host holds, the one with number n apart. -/
def heldExcept (l : List (BitVec 30 × Word)) (n : BitVec 30) : List (BitVec 30 × Word) := l.filter fun p => p.1 != n

/-- The host holds l. -/
def State.setHeld (s : State) (l : List (BitVec 30 × Word)) : State := { s with held := l }

end Sys2Proof.Machine
end

