-- ==== Sys2Proof/Machine/Engine.lean ====
section
/-! DEFINITION. The command engine: the steps of the block and how the environment's events land between them (10_state.md R55, R56, 60_exceptions.md R294, R296, 70_reset_and_hazards.md R340, R341; log 4). -/

namespace Sys2Proof.Machine

/-- One step of the block for the command it runs: the start checks, one memory access, or the completion
(00_scope.md R14). -/
abbrev BlockStep := Running → State → State

/-- An event lands now, before the block's next step (60_exceptions.md R296). -/
def State.due (s : State) : Bool :=
  match s.inputs with
  | [] => false
  | i :: _ => i.after == 0

/-- n block steps have passed. -/
def elapse (n : Nat) : List Input → List Input
  | [] => []
  | i :: l => { i with after := i.after - n } :: l

/-- A block step has passed. -/
def State.tick (s : State) : State := { s with inputs := elapse 1 s.inputs }

/-- The block's steps, at most n of them, until the command completes or an event lands. -/
def State.runSteps (step : BlockStep) : Nat → State → State
  | 0, s => s
  | n + 1, s =>
    match s.engine with
    | .idle => s
    | .running r => if s.due then s else State.runSteps step n (step r s).tick

/-- The steps that a source pixel of APPLY still needs. -/
def PixelWork.left : PixelWork → Nat
  | .sampling win => (win.todo.length - 1) + 5
  | .writing outs => (outs.length - 1) + 1

/-- A bound on the steps that a running command still needs, extra reads apart: a start check, 21 cells and 4 writes for
each source pixel of APPLY, 21 cells for PIXEL, a completion (70_reset_and_hazards.md R341). -/
def Running.left (r : Running) : Nat :=
  if r.checked then (r.todo.map fun j => j.work.left).sum + r.window.todo.length + 2
  else 25 * (r.snap.w * r.snap.h) + 24

/-- The bound for the state's engine: an extra read uses up a choice of the schedule (log 6). -/
def State.left (s : State) : Nat :=
  match s.engine with
  | .idle => 0
  | .running r => r.left + s.schedule.length

/-- The block runs its command until it completes or an event lands. -/
def State.runBlock (s : State) (step : BlockStep) : State := s.runSteps step s.left

/-- A host writes a command word to CMD: no effect while `rst` is asserted (70_reset_and_hazards.md R320), dropped with
OVR <- 1 while BUSY = 1 (60_exceptions.md R294), otherwise accepted (10_state.md R56), and the block starts. -/
def issue (step : BlockStep) (word : Word) (s : State) : Host.Outcome State Fault Refusal :=
  if s.rst then .next s
  else if s.busy then .next s.overrun
  else .next ((s.accept word).runBlock step)

/-- The start checks' step of a command: on success it goes on, with the matrix `win` or the source pixels `todo` before
it (60_exceptions.md R282, 45_scan_driver.md R253). Each lacking cell of the matrix, and the center of each source pixel,
is a word that the command will read for the first time; the other reads that it may make are further ones
(70_reset_and_hazards.md R341; log 6). -/
def State.begin (s : State) (i : Instr) (r : Running) (win : Window) (todo : List PixelJob) : State :=
  s.start i { r with
    window := win
    reads := []
    rereads := r.snap.maxReads - (win.todo.length + todo.length)
    todo := todo
    doneSet := [] }

/-- No matrix: the commands that read none. -/
def noWindow : Window := ⟨[], []⟩

/-- The one step of an illegal command word: ILLEGAL_CMD at once (60_exceptions.md R284). -/
def illegalStep : BlockStep := fun _ s => s.raise .illegalCmd

/-- A CMD write of a word that is no legal command (30_encoding.md R111, 60_exceptions.md R284). -/
def issueIllegal (word : Word) (s : State) : Host.Outcome State Fault Refusal := issue illegalStep word s

end Sys2Proof.Machine
end

