-- ==== Sys2Proof/Machine/MatrixCommands.lean ====
section
/-! DEFINITION. The commands that read one neighborhood matrix or one of its cells: PIXEL, SAMPLE. -/

namespace Sys2Proof.Machine

/-- The results of PIXEL: RES0 to RES3 <- the outputs TL, TR, BL, BR, DECISION <- the edge and pick bits
(44_edge_rule_engine.md R232). -/
def State.setPixelResults (s : State) (o : Fin 4 → QuadrantOut) : State :=
  s.setResults (o 0).out (o 1).out (o 2).out (o 3).out (decisionWord (fun q => (o q).edge) fun q => (o q).pick)

/-- Any output of quadrant q, with PICK[q] implying EDGE[q] as in every DECISION (10_state.md R45, K1.11; log 7). -/
def State.freeOut (s : State) (q : Fin 4) : QuadrantOut where
  out := s.freeAt q.val
  edge := (s.freeAt 4).getLsbD q.val
  pick := (s.freeAt 4).getLsbD q.val && (s.freeAt 4).getLsbD (4 + q.val)

/-- The output of quadrant q of a racing PIXEL: any where a cell that its rule reads lies in the image and so came from a
racing read, else the rule's own (20_memory.md R94, K1.11, 44_edge_rule_engine.md R222, R231; log 7). -/
def State.racingOut (s : State) (r : Running) (q : Fin 4) : QuadrantOut :=
  if r.racingResults (ruleOf q).cells then s.freeOut q else ruleOut r.window.cells q

/-- PIXEL's next step while its matrix around (OPX, OPY) is read (41_neighborhood_sampler.md R162; log 6). -/
def pixelFetch (r : Running) (c : Choice) (s : State) : State :=
  match s.fetchNext r r.window r.snap.opx.toNat r.snap.opy.toNat c with
  | none => s.raise .bus
  | some (win, r', s') => s'.progress { r' with window := win }

/-- PIXEL's completion with its matrix read (44_edge_rule_engine.md R232); what a racing PIXEL builds from its reads is
any value (20_memory.md R94, K1.11; log 7). -/
def pixelComplete (r : Running) (s : State) : State :=
  if r.racingResults allCells then ((s.useFree 5).setPixelResults (s.racingOut r)).complete
  else (s.setPixelResults (ruleOut r.window.cells)).complete

/-- PIXEL: the start checks, the reads of the in-bounds cells around (OPX, OPY) in a free order (log 6), then the four
rules (44_edge_rule_engine.md R232). -/
def pixelStep : BlockStep := fun r s =>
  if r.checked then
    match s.choice.read.extraWord (r.snap.windowWord r.snap.opx.toNat r.snap.opy.toNat) with
    | some a => s.useChoice.extraRead r a
    | none => if r.window.todo.isEmpty then pixelComplete r s else pixelFetch r s.choice s.useChoice
  else s.begin .pixel r (r.snap.window r.snap.opx.toNat r.snap.opy.toNat allCells) []

/-- PIXEL (44_edge_rule_engine.md R232). -/
def execPixel (s : State) : Host.Outcome State Fault Refusal := issue pixelStep (encode .pixel) s

/-- SAMPLE's completion with its cell read; a racing read's word is any value (41_neighborhood_sampler.md R166,
20_memory.md R94, K1.11; log 7). -/
def sampleComplete (r : Running) (s : State) : State :=
  if r.racingResults [r.snap.opk.toNat] then ((s.useFree 1).setRes0 (s.freeAt 0)).complete
  else (s.setRes0 (cell r.window.cells r.snap.opk.toNat)).complete

/-- SAMPLE: the start checks, at most one read, of the cell OPK around (OPX, OPY) if it lies in the image, then
RES0 <- that cell (41_neighborhood_sampler.md R166). -/
def sampleStep : BlockStep := fun r s =>
  if r.checked then
    if r.window.todo.isEmpty then sampleComplete r s
    else
      match s.fetchCell r none r.snap.opx.toNat r.snap.opy.toNat r.snap.opk.toNat with
      | none => s.raise .bus
      | some (w, r', s') => s'.progress { r' with window := ⟨[], r.window.cells.set r.snap.opk.toNat w⟩ }
  else s.begin .sample r (r.snap.window r.snap.opx.toNat r.snap.opy.toNat [r.snap.opk.toNat]) []

/-- SAMPLE (41_neighborhood_sampler.md R166). -/
def execSample (s : State) : Host.Outcome State Fault Refusal := issue sampleStep (encode .sample) s

end Sys2Proof.Machine
end

