-- ==== Sys2Proof/Machine/Scan.lean ====
section
/-! DEFINITION. The scan driver: APPLY (45_scan_driver.md R250 to R257). -/

namespace Sys2Proof.Machine

/-- The writes of source pixel (x, y): destination cell and output of each quadrant (45_scan_driver.md R251, R253). -/
def quadrantWrites (q : Snapshot) (x y : Nat) (m : Matrix) : List (Nat × Word) :=
  [(q.dstCell x y 0, (ruleOut m 0).out), (q.dstCell x y 1, (ruleOut m 1).out),
   (q.dstCell x y 2, (ruleOut m 2).out), (q.dstCell x y 3, (ruleOut m 3).out)]

/-- The source pixels before the scan (45_scan_driver.md R253). -/
def Snapshot.jobs (q : Snapshot) : List PixelJob :=
  q.pixels.map fun p => ⟨p.1, p.2, .sampling (q.window p.1 p.2 allCells)⟩

/-- The work on a pixel with its matrix so far: once no cell is lacking, its four writes follow
(45_scan_driver.md R253, 20_memory.md R90). -/
def sampledWork (q : Snapshot) (x y : Nat) (win : Window) : PixelWork :=
  if win.todo.isEmpty then .writing (quadrantWrites q x y win.cells) else .sampling win

/-- Job i has these writes left; with none left its pixel joins `done_set` (45_scan_driver.md R253, 10_state.md R57). -/
def Running.wrote (r : Running) (i : Nat) (j : PixelJob) (outs : List (Nat × Word)) : Running :=
  match outs with
  | [] => { r with todo := r.todo.eraseIdx i, doneSet := r.doneSet ++ [(j.x, j.y)] }
  | _ :: _ => { r with todo := r.todo.set i { j with work := .writing outs } }

/-- Job i makes its next access: a lacking cell gets its word, or a write is made, which one the choice `c` picks
(45_scan_driver.md R253; log 5, log 6). -/
def jobStep (r : Running) (i : Nat) (j : PixelJob) (c : Choice) (s : State) : State :=
  match j.work with
  | .sampling win =>
    match s.fetchNext r win j.x j.y c with
    | none => s.raise .bus
    | some (win', r', s') =>
      s'.progress { r' with todo := r.todo.set i { j with work := sampledWork r.snap j.x j.y win' } }
  | .writing outs =>
    match outs[c.item % outs.length]? with
    | none => s.progress (r.wrote i j [])
    | some (n, v) =>
      match s.memWrite r.raced c.landed (r.snap.dstAddr n) v with
      | (false, s') => s'.raise .bus
      | (true, s') => s'.progress (r.wrote i j (outs.eraseIdx (c.item % outs.length)))

/-- APPLY: the start checks, then one access of an unfinished source pixel at a time, in a free order, until every
pixel is in `done_set`; the block may read any source word at any time besides (45_scan_driver.md R253, R254,
20_memory.md R88; log 5, log 6). -/
def applyStep : BlockStep := fun r s =>
  if r.checked then
    match s.choice.read.extraWord r.snap.sourceWord with
    | some a => s.useChoice.extraRead r a
    | none =>
      match r.todo[s.choice.job % r.todo.length]? with
      | none => s.complete
      | some j => jobStep r (s.choice.job % r.todo.length) j s.choice s.useChoice
  else s.begin .apply r noWindow r.snap.jobs

/-- APPLY (45_scan_driver.md R253). -/
def execApply (s : State) : Host.Outcome State Fault Refusal := issue applyStep (encode .apply) s

end Sys2Proof.Machine
end

