-- ==== Sys2Proof/Machine/UnitCommands.lean ====
section
/-! DEFINITION. The commands that use no memory: NOP, DIFF, BLEND, UNPACK. -/

namespace Sys2Proof.Machine

/-- NOP: completes (45_scan_driver.md R258). -/
def nopStep : BlockStep := fun r s => if r.checked then s.complete else s.begin .nop r noWindow []

/-- NOP (45_scan_driver.md R258). -/
def execNop (s : State) : Host.Outcome State Fault Refusal := issue nopStep (encode .nop) s

/-- DIFF: RES0 <- bits(diff(OPA, OPB)) (42_color_difference_metric.md R188). -/
def diffStep : BlockStep := fun r s =>
  if r.checked then (s.setRes0 (diff r.snap.opa r.snap.opb)).complete else s.begin .diff r noWindow []

/-- DIFF (42_color_difference_metric.md R188). -/
def execDiff (s : State) : Host.Outcome State Fault Refusal := issue diffStep (encode .diff) s

/-- BLEND: RES0 <- blend(OPA, OPB, ALPHA) (43_color_blender.md R206). -/
def blendStep : BlockStep := fun r s =>
  if r.checked then (s.setRes0 (blend r.snap.opa r.snap.opb alpha)).complete else s.begin .blend r noWindow []

/-- BLEND (43_color_blender.md R206). -/
def execBlend (s : State) : Host.Outcome State Fault Refusal := issue blendStep (encode .blend) s

/-- UNPACK: RES0, RES1, RES2 <- the channels of OPA, RES3 <- their pack (40_packed_rgb_accessor.md R148). -/
def unpackStep : BlockStep := fun r s =>
  if r.checked then
    (s.setResults ((channel r.snap.opa .red).setWidth 32) ((channel r.snap.opa .green).setWidth 32)
      ((channel r.snap.opa .blue).setWidth 32)
      (pack (channel r.snap.opa .red) (channel r.snap.opa .green) (channel r.snap.opa .blue)) s.decision).complete
  else s.begin .unpack r noWindow []

/-- UNPACK (40_packed_rgb_accessor.md R148). -/
def execUnpack (s : State) : Host.Outcome State Fault Refusal := issue unpackStep (encode .unpack) s

end Sys2Proof.Machine
end

