-- ==== Sys2Proof/Machine/Dispatch.lean ====
section
/-! DEFINITION. One arm per command: what a CMD write of its command word does (30_encoding.md R112). -/

namespace Sys2Proof.Machine

def exec (i : Instr) (s : State) : Host.Outcome State Fault Refusal :=
  match i with
  | .nop => Sys2Proof.Machine.execNop s
  | .apply => Sys2Proof.Machine.execApply s
  | .pixel => Sys2Proof.Machine.execPixel s
  | .sample => Sys2Proof.Machine.execSample s
  | .diff => Sys2Proof.Machine.execDiff s
  | .blend => Sys2Proof.Machine.execBlend s
  | .unpack => Sys2Proof.Machine.execUnpack s

end Sys2Proof.Machine
end

