-- ==== Sys2Proof/Machine/Events.lean ====
section
/-! DEFINITION. What an event of the environment does, and how a running command goes on after one. -/

namespace Sys2Proof.Machine

/-- The block step of each command. -/
def commandStep : Instr → BlockStep
  | .nop => nopStep
  | .apply => applyStep
  | .pixel => pixelStep
  | .sample => sampleStep
  | .diff => diffStep
  | .blend => blendStep
  | .unpack => unpackStep

/-- The block step of an accepted command word (30_encoding.md R111). -/
def wordStep (word : Word) : BlockStep :=
  match decode word with
  | .ok i => commandStep i
  | .error _ => illegalStep

/-- A host write of v to CMD (10_state.md R36, 30_encoding.md R111). -/
def command (v : Word) (s : State) : Host.Outcome State Fault Refusal :=
  match decode v with
  | .ok i => exec i s
  | .error _ => issueIllegal v s

/-- The command that runs is racing if what an agent has done `breaks` the rule that the buffers are the command's
(20_memory.md R94; log 7). -/
def State.disturbed (s : State) (breaks : Running → Instr → Bool) : State :=
  match s.engine with
  | .idle => s
  | .running r =>
    match decode r.word with
    | .ok i => if breaks r i then s.race r i else s
    | .error _ => s

/-- A store of one byte by the host or another agent, performed at once (00_scope.md R14, 20_memory.md R94). DESIGN CHOICE
(log 17; the spec gives no order of the two): a store that the host holds for the word stays as it is and counts as the
later one, so that a read may still return the held word, and a later `drain` overwrites the byte. -/
def State.store (s : State) (a : Nat) (v : Byte) : State := (s.storeByte a v).disturbed fun r i => r.racesAt i a

/-- A store of the word with number n by the host that is not performed yet; one that it holds for that word already is
replaced (70_reset_and_hazards.md R331, 20_memory.md R94, K1.14; log 17). -/
def State.hold (s : State) (n : BitVec 30) (v : Word) : State :=
  (s.setHeld ((n, v) :: heldExcept s.held n)).disturbed fun r i => r.racesAt i (4 * n.toNat)

/-- The store that the host holds for the word with number n, if it holds one, is performed (70_reset_and_hazards.md
R331, K1.14; log 17). -/
def State.drain (s : State) (n : BitVec 30) : State :=
  match s.held.lookup n with
  | none => s
  | some v =>
    ((s.storeWord (4 * n.toNat) v).setHeld (heldExcept s.held n)).disturbed fun r i => r.drainRacesAt i (4 * n.toNat)

/-- A register access, or what else reaches the block or memory (10_state.md R30, R31, 70_reset_and_hazards.md R336). -/
def perform (e : Event) (s : State) : Host.Outcome State Fault Refusal :=
  match e with
  | .regRead off =>
    if wordOffset off then .next { s with readData := s.readReg off } else .refused (.registerAccessNotWord off)
  | .regWrite off v =>
    if wordOffset off then (if off = cmdOffset then command v s else .next (s.writeReg off v))
    else .refused (.registerAccessNotWord off)
  | .store a v => .next (s.store a.toNat v)
  | .hold n v => .next (s.hold n v)
  | .drain n => .next (s.drain n)
  | .rst level => .next (s.setRst level)
  | .busErrors l => .next { s with busErrors := l }

/-- The block waits for the next event, if there is one (60_exceptions.md R305). -/
def State.wait (s : State) : State :=
  match s.inputs with
  | [] => s
  | i :: l => { s with inputs := { i with after := 0 } :: l }

/-- No event lands now: a running command goes on, an idle block waits. -/
def State.goOn (s : State) : State :=
  match s.engine with
  | .idle => s.wait
  | .running r => s.runBlock (wordStep r.word)

end Sys2Proof.Machine
end

