-- ==== Sys2Proof/Machine/Step.lean ====
section
/-! DEFINITION. The step: an event that lands now, or the steps of the block up to the next event or the completion of its command (60_exceptions.md R296, 70_reset_and_hazards.md R340; log 4). -/

namespace Sys2Proof.Machine

/-- One step of the machine. -/
def step (s : State) : Host.Outcome State Fault Refusal :=
  match s.inputs with
  | [] => .next s.goOn
  | i :: l => if i.after = 0 then perform i.event { s with inputs := l } else .next s.goOn

/-- `s` with the command word given by `nbits` bits of `w` about to be written to CMD and accepted: the block is idle,
`rst` is released and the CMD write is the next event (log 3). -/
def State.withFetchWord (s : State) (nbits w : Nat) : State :=
  { s with rst := false, engine := .idle, inputs := [⟨0, .regWrite cmdOffset (tableWord nbits w)⟩] }

end Sys2Proof.Machine
end

