-- ==== Sys2Proof/Safety.lean ====
section
/-! DEFINITION. What the statements say of states: when a command is accepted, when no event lands inside it, and the invariants of the machine. -/

namespace Sys2Proof.Machine

/-- A CMD write is accepted: the block is idle and not in reset (10_state.md R56, 70_reset_and_hazards.md R320). -/
def State.Ready (s : State) : Prop := s.engine = .idle ∧ s.rst = false

/-- No event of the environment lands before n block steps have passed (log 4). -/
def State.Quiet (s : State) (n : Nat) : Prop := ∀ i ∈ s.inputs.head?, n ≤ i.after

/-- The source of the live registers passes SRC_LEN, ALIGN and RANGE (60_exceptions.md R285, R287, R288). -/
def Snapshot.SrcOk (q : Snapshot) : Prop :=
  q.srcLen.toNat = q.w * q.h ∧
    (q.w * q.h ≠ 0 → q.srcBase.toNat % 4 = 0 ∧ q.srcBase.toNat + 4 * q.srcLen.toNat ≤ 2 ^ 32)

/-- The destination passes DST_LEN, ALIGN, RANGE and OVERLAP (60_exceptions.md R286 to R289). -/
def Snapshot.DstOk (q : Snapshot) : Prop :=
  q.dstLen.toNat = (2 * q.w) * (2 * q.h) ∧
    (q.w * q.h ≠ 0 →
      q.dstBase.toNat % 4 = 0 ∧ q.dstBase.toNat + 4 * q.dstLen.toNat ≤ 2 ^ 32 ∧
        (q.dstBase.toNat + 4 * q.dstLen.toNat ≤ q.srcBase.toNat ∨
          q.srcBase.toNat + 4 * q.srcLen.toNat ≤ q.dstBase.toNat))

/-- The invariants of STATUS (10_state.md R34); that an error has a code other than NONE is 60_exceptions.md R281. -/
def State.StatusLegal (s : State) : Prop :=
  (s.busy = true → s.done = false ∧ s.err = false ∧ s.errCode = .none) ∧ (s.err = false ↔ s.errCode = .none)

/-- The form of DECISION: bits 31:8 are 0 and PICK[q] = 1 implies EDGE[q] = 1 (10_state.md R45). -/
def State.DecisionLegal (s : State) : Prop :=
  s.decision.toNat < 2 ^ 8 ∧ ∀ q : Fin 4, s.decision.getLsbD (4 + q.val) = true → s.decision.getLsbD q.val = true

/-- While `rst` is asserted every piece of block state has its reset value (70_reset_and_hazards.md R320). -/
def State.ResetHeld (s : State) : Prop := s.rst = true → s.resetBlock = s

/-- A matrix while it is read: 21 cells, of which some of the in-bounds ones among ks lack their word, and those outside
the image are the zero pixel (41_neighborhood_sampler.md R161). -/
def Window.Legal (q : Snapshot) (x y : Nat) (ks : List Nat) (win : Window) : Prop :=
  win.cells.length = nCells ∧ win.todo.Sublist (q.inBoundsCells x y ks) ∧
    ∀ k < nCells, q.cellAddr x y k = none → win.cells[k]? = some 0#32

/-- The work on one source pixel: its matrix is being read, or some of its own four destination cells are left. -/
def PixelJob.Legal (q : Snapshot) (j : PixelJob) : Prop :=
  match j.work with
  | .sampling win => win.Legal q j.x j.y allCells
  | .writing outs =>
    outs ≠ [] ∧
      (outs.map Prod.fst).Sublist [q.dstCell j.x j.y 0, q.dstCell j.x j.y 1, q.dstCell j.x j.y 2, q.dstCell j.x j.y 3]

/-- A running APPLY has passed its start checks, and `done_set` and the unfinished pixels make up [0, W) × [0, H), each
pixel once (10_state.md R57, 45_scan_driver.md R253). -/
def Running.ScanLegal (r : Running) : Prop :=
  r.checked = true →
    startError .apply r.snap = none ∧
      (r.doneSet ++ r.todo.map fun j => (j.x, j.y)).Perm r.snap.pixels ∧ ∀ j ∈ r.todo, j.Legal r.snap

/-- See `Running.ScanLegal`. -/
def State.ScanLegal (s : State) : Prop :=
  ∀ r, s.engine = .running r → r.word = encode .apply → r.ScanLegal

/-- a is the address of a source word (20_memory.md R84, R86). -/
def Snapshot.IsSource (q : Snapshot) (a : Nat) : Prop := ∃ n, n < q.w * q.h ∧ a = q.srcBase.toNat + 4 * n

/-- The addresses of all source words (20_memory.md R84, R86). -/
def Snapshot.sourceWords (q : Snapshot) : List Nat :=
  (List.range (q.w * q.h)).map fun n => q.srcBase.toNat + 4 * n

/-- The words that a command may read: APPLY those of the source, PIXEL those of its matrix, SAMPLE that of its cell
(20_memory.md R87, 44_edge_rule_engine.md R232, 41_neighborhood_sampler.md R166). -/
def Snapshot.readable (q : Snapshot) : Instr → List Nat
  | .apply => q.sourceWords
  | .pixel => q.cellWords q.opx.toNat q.opy.toNat allCells
  | .sample => q.cellWords q.opx.toNat q.opy.toNat [q.opk.toNat]
  | .nop | .diff | .blend | .unpack => []

/-- See `Snapshot.readable`; an illegal command word reads nothing. -/
def Running.readable (r : Running) : List Nat :=
  match decode r.word with
  | .ok i => r.snap.readable i
  | .error _ => []

/-- Those of the words l that the command has not read yet. -/
def Running.unread (r : Running) (l : List Nat) : List Nat := l.filter fun a => !(r.reads.any fun p => p.1 == a)

/-- The running command has read only words that it may read, and the reads it has made, the further ones left to it and
the first ones still to come are together at most 21·W·H (20_memory.md R86, R88, 70_reset_and_hazards.md R341). -/
def Running.ReadsLegal (r : Running) : Prop :=
  (∀ p ∈ r.reads, p.1 ∈ r.readable) ∧
    r.reads.length + r.rereads + (r.unread r.readable).length ≤ 21 * (r.snap.width.toNat * r.snap.height.toNat)

/-- See `Running.ReadsLegal`. -/
def State.ReadsLegal (s : State) : Prop := ∀ r, s.engine = .running r → r.ReadsLegal

/-- The matrix of a running PIXEL or SAMPLE past its start checks is legal (41_neighborhood_sampler.md R161, R162), and
SAMPLE makes at most one read (41_neighborhood_sampler.md R166). -/
def State.WindowLegal (s : State) : Prop :=
  ∀ r, s.engine = .running r → r.checked = true →
    (r.word = encode .pixel → r.window.Legal r.snap r.snap.opx.toNat r.snap.opy.toNat allCells) ∧
    (r.word = encode .sample →
      r.window.Legal r.snap r.snap.opx.toNat r.snap.opy.toNat [r.snap.opk.toNat] ∧
        r.reads.length + r.window.todo.length ≤ 1)

/-- The running command, past what its start checks demand, uses the byte at a: PIXEL and SAMPLE in their source, APPLY in
its source or its destination (20_memory.md R87, R94). -/
def State.UsesByte (s : State) (a : Nat) : Prop :=
  ∃ r, s.engine = .running r ∧
    ((r.word = 0x00000002#32 ∧ r.snap.SrcOk ∧ r.snap.inSrc a = true) ∨
      (r.word = 0x00000003#32 ∧ r.snap.SrcOk ∧ r.snap.opk.toNat ≤ 20 ∧ r.snap.inSrc a = true) ∨
      (r.word = 0x00000001#32 ∧ r.snap.SrcOk ∧ r.snap.DstOk ∧ (r.snap.inSrc a = true ∨ r.snap.inDst a = true)))

/-- The running command is an APPLY, past what its start checks demand, with the byte at a in its destination
(20_memory.md R87, R94). -/
def State.OverwritesByte (s : State) (a : Nat) : Prop :=
  ∃ r, s.engine = .running r ∧ r.word = 0x00000001#32 ∧ r.snap.SrcOk ∧ r.snap.DstOk ∧ r.snap.inDst a = true

/-- All invariants together. -/
structure State.Legal (s : State) : Prop where
  status : s.StatusLegal
  decision : s.DecisionLegal
  memory : s.mem.wf
  reset : s.ResetHeld
  scan : s.ScanLegal
  reads : s.ReadsLegal
  window : s.WindowLegal

/-- The event that lands in this step, if one does. -/
def State.landing (s : State) : Option Event :=
  match s.inputs with
  | [] => none
  | i :: _ => if i.after = 0 then some i.event else none

/-- The command word that the block runs in this step: of the running command, or of the CMD write that lands and is
accepted. -/
def State.commandWord (s : State) : Option Word :=
  match s.engine with
  | .running r => some r.word
  | .idle =>
    match s.landing with
    | some (.regWrite off v) => if off = cmdOffset then some v else none
    | _ => none

/-- The operands of the command that the block runs in this step. -/
def State.commandSnap (s : State) : Snapshot :=
  match s.engine with
  | .running r => r.snap
  | .idle => s.latch

end Sys2Proof.Machine
end

