-- ==== Sys2Proof/Certificates/Slice0/Obligations.lean ====
section
/-! DEFINITION. The statements for the provers, from the numbered rules of spec/.

In the statements about a whole command, `Quiet n` (no event lands within n block steps) and `elapse n` (n block steps
have passed) speak of the environment's queue, and how many steps a command takes is the model's own choice: log 4.
Statements about APPLY and PIXEL hold for every `schedule`, the model's form of what is free inside them: the processing
order (log 5), the reads (log 6), and whether a write answered with `bus_error` has landed (log 22). -/

open Sys2Proof Sys2Proof.Machine

/-! ### Encoding and dispatch -/

/-- 30_encoding.md R112: the opcode map, its reserved opcodes, and words with a non-zero reserved bit. -/
def Obligations.CommandWordsDecode : Prop :=
  decode 0x00000000#32 = .ok .nop ∧ decode 0x00000001#32 = .ok .apply ∧ decode 0x00000002#32 = .ok .pixel ∧
    decode 0x00000003#32 = .ok .sample ∧ decode 0x00000004#32 = .ok .diff ∧ decode 0x00000005#32 = .ok .blend ∧
    decode 0x00000006#32 = .ok .unpack ∧
    (∀ v ∈ [0x7#32, 0x8#32, 0x9#32, 0xA#32, 0xB#32, 0xC#32, 0xD#32, 0xE#32, 0xF#32],
      decode v = .error .reservedOpcode) ∧
    (∀ v ∈ [0x00000010#32, 0x00000011#32, 0x80000001#32, 0xFFFFFFFF#32], decode v = .error .reservedBits)

/-- 30_encoding.md R111, R113, 60_exceptions.md R284: RSV decides first, then OP; an illegal word completes with
ILLEGAL_CMD and changes nothing but STATUS; while BUSY = 1 any word is dropped before decoding. -/
def Obligations.IllegalWordsCompleteWithIllegalCmd : Prop :=
  ∀ v : Word,
    (v.extractLsb' 4 28 ≠ 0#28 → decode v = .error .reservedBits) ∧
    (v.extractLsb' 4 28 = 0#28 → (v.extractLsb' 0 4).toNat ≤ 6 →
      ∃ i, decode v = .ok i ∧ (opcodeOf i).toNat = (v.extractLsb' 0 4).toNat) ∧
    (v.extractLsb' 4 28 = 0#28 → 7 ≤ (v.extractLsb' 0 4).toNat → decode v = .error .reservedOpcode) ∧
    (∀ s : State, s.Ready → s.Quiet 1 → (v.extractLsb' 4 28 ≠ 0#28 ∨ 7 ≤ (v.extractLsb' 0 4).toNat) →
      command v s =
        .next { s with done := true, err := true, errCode := .illegalCmd, inputs := elapse 1 s.inputs }) ∧
    (∀ s : State, s.rst = false → s.busy = true → command v s = .next { s with ovr := true })

/-- Each command has exactly one command word (30_encoding.md R110 to R112). -/
def Obligations.DecodeEncodeAgree : Prop := ∀ (v : Word) (i : Instr), decode v = .ok i ↔ v = encode i

/-- A CMD write that lands runs the decoded command, and `withFetchWord` makes it land. -/
def Obligations.StepRunsTheDecodedCommand : Prop :=
  (∀ (s : State) (v : Word) (rest : List Input) (i : Instr),
    s.inputs = ⟨0, .regWrite 0x0C#8 v⟩ :: rest → decode v = .ok i → step s = exec i { s with inputs := rest }) ∧
  (∀ (s : State) (nbits w : Nat) (i : Instr), decodeTableWord nbits w = some i →
    step (s.withFetchWord nbits w) = exec i { s with rst := false, engine := .idle, inputs := [] })

/-- With no event landing, a running command goes on by the steps of its word until it completes or an event lands,
and an idle block only waits: the event that comes next is then due, and nothing else changes (60_exceptions.md R296,
R305). -/
def Obligations.StepGoesOnWithTheRunningCommand : Prop :=
  ∀ s : State, s.landing = none →
    (∀ r, s.engine = .running r → step s = .next (s.runSteps (wordStep r.word) s.left)) ∧
    (s.engine = .idle → step s = .next { s with inputs := s.inputs.modifyHead fun i => { i with after := 0 } })

/-! ### Acceptance, overrun, completion -/

/-- 10_state.md R56, 70_reset_and_hazards.md R330: a CMD write with BUSY = 0 latches the operand registers, clears
DONE, ERR and ERRCODE and sets BUSY, whatever the word (the event that lands next, after no block step, sees that
state); the running command never reads the live operand registers; and its first step, the start checks, makes no
memory access. -/
def Obligations.AcceptanceLatchesTheOperands : Prop :=
  (∀ (s : State) (v : Word), s.Ready → s.due = true →
    command v s =
      .next { s with
        done := false, err := false, errCode := .none,
        engine := .running {
          word := v, checked := false, window := ⟨[], []⟩, reads := [], rereads := 0, todo := [], doneSet := [],
          raced := false,
          snap := {
            width := s.width, height := s.height, srcBase := s.srcBase, srcLen := s.srcLen, dstBase := s.dstBase,
            dstLen := s.dstLen, opx := s.opx, opy := s.opy, opk := s.opk, opa := s.opa, opb := s.opb } } }) ∧
  (∀ (s : State) (r : Running) (n : RegName) (v : Word), s.engine = .running r →
    n ∈ [RegName.width, .height, .srcBase, .srcLen, .dstBase, .dstLen, .opx, .opy, .opk, .opa, .opb] →
    (s.setReg v n).goOn = s.goOn.setReg v n) ∧
  (∀ (s : State) (r : Running) (m : Memory) (l : List (Access × Nat)), r.checked = false →
    wordStep r.word r { s with mem := m, busErrors := l } = { wordStep r.word r s with mem := m, busErrors := l })

/-- 60_exceptions.md R294: a CMD write while BUSY = 1 sets OVR and changes nothing else; OVR stays until the host
writes 1 to STATUS bit 3 (or `rst` resets the block). -/
def Obligations.OverrunIsDroppedAndSticky : Prop :=
  (∀ (s : State) (v : Word), s.rst = false → s.busy = true → command v s = .next { s with ovr := true }) ∧
  (∀ s t : State, step s = .next t → s.ovr = true → t.ovr = false →
    (∃ v : Word, s.landing = some (.regWrite 0x08#8 v) ∧ v.getLsbD 3 = true) ∨ ∃ b, s.landing = some (.rst b))

/-- 70_reset_and_hazards.md R333: RES0 to RES3 and DECISION change only at a successful completion (or by reset), and a
read returns what they hold. -/
def Obligations.ResultsChangeOnlyAtSuccessfulCompletion : Prop :=
  (∀ s t : State, s.StatusLegal → step s = .next t →
    (t.res0 ≠ s.res0 ∨ t.res1 ≠ s.res1 ∨ t.res2 ≠ s.res2 ∨ t.res3 ≠ s.res3 ∨ t.decision ≠ s.decision) →
    (t.busy = false ∧ t.done = true ∧ t.err = false) ∨ ∃ b, s.landing = some (.rst b)) ∧
  (∀ s : State, s.rst = false →
    s.readReg 0x50#8 = s.res0 ∧ s.readReg 0x54#8 = s.res1 ∧ s.readReg 0x58#8 = s.res2 ∧ s.readReg 0x5C#8 = s.res3 ∧
      s.readReg 0x60#8 = s.decision)

/-- Of all commands only PIXEL writes DECISION (10_state.md R45). -/
def Obligations.OnlyPixelWritesDecision : Prop :=
  ∀ s t : State, step s = .next t → t.decision ≠ s.decision →
    s.commandWord = some 0x00000002#32 ∨ ∃ b, s.landing = some (.rst b)

/-- Every command completes, whatever the state, when no further event lands (70_reset_and_hazards.md R341,
60_exceptions.md R280): a command word written to CMD, and a command that is running. -/
def Obligations.EveryCommandCompletes : Prop :=
  (∀ (s : State) (v : Word), s.Ready → s.inputs = [] →
    ∃ t, command v s = .next t ∧ t.engine = .idle ∧ t.done = true ∧ t.inputs = []) ∧
  (∀ (s : State) (r : Running), s.engine = .running r → s.inputs = [] →
    ∃ t, step s = .next t ∧ t.engine = .idle ∧ t.done = true)

/-! ### Commands without memory -/

/-- 45_scan_driver.md R258: NOP completes; acceptance has cleared ERR and ERRCODE; nothing else changes. -/
def Obligations.NopCompletes : Prop :=
  ∀ s : State, s.Ready → s.Quiet 2 →
    exec .nop s = .next { s with done := true, err := false, errCode := .none, inputs := elapse 2 s.inputs }

/-- 40_packed_rgb_accessor.md R148: the channels of OPA and their pack; nothing else changes. -/
def Obligations.UnpackCompletes : Prop :=
  ∀ s : State, s.Ready → s.Quiet 2 →
    exec .unpack s =
      .next { s with
        done := true, err := false, errCode := .none, inputs := elapse 2 s.inputs,
        res0 := (s.opa.extractLsb' 16 8).setWidth 32,
        res1 := (s.opa.extractLsb' 8 8).setWidth 32,
        res2 := (s.opa.extractLsb' 0 8).setWidth 32,
        res3 := s.opa &&& 0x00FFFFFF#32 }

/-- 42_color_difference_metric.md R188: RES0 gets the pattern of diff(OPA, OPB), nothing else changes; with the rule's
corner cases and example. For all colours diff is R182's expression, each operator one binary32 operation in the rule's
order with R181's patterns, of the absolute channel differences, which are exact (R183; values in units of 2^-149). -/
def Obligations.DiffCompletes : Prop :=
  (∀ s : State, s.Ready → s.Quiet 2 →
    exec .diff s =
      .next { s with
        done := true, err := false, errCode := .none, inputs := elapse 2 s.inputs, res0 := diff s.opa s.opb }) ∧
  (∀ a : Word, diff a a = 0#32) ∧ diff 0xFF000000#32 0#32 = 0#32 ∧ (∀ a b : Word, diff a b = diff b a) ∧
  diff 0x00FFFFFF#32 0#32 = 0x463F4000#32 ∧
  ∀ p q : Word,
    let d := fun c : Channel => fabs (fsub (channelF p c) (channelF q c))
    let r := d .red
    let g := d .green
    let b := d .blue
    let y := fadd (fadd (fmul 0x3E991687#32 r) (fmul 0x3F1645A2#32 g)) (fmul 0x3DE978D5#32 b)
    let u := fadd (fsub (fmul 0xBE2CC921#32 r) (fmul 0x3EA99B6F#32 g)) (fmul 0x3F000000#32 b)
    let v := fsub (fsub (fmul 0x3F000000#32 r) (fmul 0x3ED65E46#32 g)) (fmul 0x3DA686E8#32 b)
    (∀ c : Channel,
      fval (d c) = (((channel p c).toNat : Int) - ((channel q c).toNat : Int)).natAbs * ((2 ^ 149 : Nat) : Int)) ∧
    diff p q = fadd (fadd (fmul 0x42400000#32 y) (fmul 0x40E00000#32 u)) (fmul 0x40C00000#32 v)

/-- 42_color_difference_metric.md R184: symmetry, high bytes, identity. -/
def Obligations.DiffIsSymmetricAndIgnoresHighBytes : Prop :=
  ∀ a b : Word,
    diff a b = diff b a ∧ diff a b = diff (a &&& 0x00FFFFFF#32) (b &&& 0x00FFFFFF#32) ∧
      (a &&& 0x00FFFFFF#32 = b &&& 0x00FFFFFF#32 →
        (∀ c : Channel, channelDiff a b c = 0x00000000#32) ∧ diff a b = 0x00000000#32)

/-- Values of the metric, from 95_test_vectors.md V42.1, V42.3, V42.4. -/
def Obligations.DiffTestVectors : Prop :=
  diff 0x00123456#32 0x00654321#32 = 0x4505E03C#32 ∧ diff 0x00FF0000#32 0#32 = 0x4580DC87#32 ∧
    diff 0x0000FF00#32 0#32 = 0x45BA07D9#32 ∧ diff 0x000000FF#32 0#32 = 0x4507373D#32 ∧
    diff 0x00000001#32 0#32 = 0x4107BEFD#32 ∧ diff 0x00010203#32 0#32 = 0x42B0A067#32 ∧
    diff 0x000A0B0C#32 0x000C0B0A#32 = 0x42453D64#32

/-- 43_color_blender.md R206: RES0 gets blend(OPA, OPB, ALPHA), nothing else changes; with the rule's corner cases and
example. -/
def Obligations.BlendCompletes : Prop :=
  (∀ s : State, s.Ready → s.Quiet 2 →
    exec .blend s =
      .next { s with
        done := true, err := false, errCode := .none, inputs := elapse 2 s.inputs, res0 := blend s.opa s.opb alpha }) ∧
  (∀ a b : Word, (blend a b alpha).extractLsb' 24 8 = 0#8 ∧ blend a b alpha = blend b a alpha ∧
    blend (a &&& 0x00FFFFFF#32) (b &&& 0x00FFFFFF#32) alpha = blend a b alpha) ∧
  blend 0x010101#32 0x020202#32 alpha = 0x010101#32 ∧ blend 0xFFFFFF#32 0xFFFFFF#32 alpha = 0xFFFFFF#32 ∧
  blend 0x00FF00FF#32 0x0000FF00#32 alpha = 0x007F7F7F#32

/-- 43_color_blender.md R203: at ALPHA = 0.5 half a channel value and the sum of two such halves are exact (values in
units of 2^-149), and the blend is the floor of each channel's average. -/
def Obligations.BlendIsTheChannelAverage : Prop :=
  ∀ a b : Word,
    (∀ c : Channel,
      2 * fval (fmul 0x3F000000#32 (channelF a c)) = ((channel a c).toNat : Int) * ((2 ^ 149 : Nat) : Int) ∧
        2 * fval (blendChannel a b 0x3F000000#32 c) =
          (((channel a c).toNat + (channel b c).toNat : Nat) : Int) * ((2 ^ 149 : Nat) : Int)) ∧
    blend a b 0x3F000000#32 =
      pack (BitVec.ofNat 8 (((channel a .red).toNat + (channel b .red).toNat) / 2))
        (BitVec.ofNat 8 (((channel a .green).toNat + (channel b .green).toNat) / 2))
        (BitVec.ofNat 8 (((channel a .blue).toNat + (channel b .blue).toNat) / 2))

/-- 43_color_blender.md R204: commutative, idempotent on the low 24 bits, each channel between the inputs'. -/
def Obligations.BlendLiesBetweenItsInputs : Prop :=
  ∀ a b : Word,
    blend a b alpha = blend b a alpha ∧ blend a a alpha = a &&& 0x00FFFFFF#32 ∧
      ∀ c : Channel,
        min (channel a c).toNat (channel b c).toNat ≤ (channel (blend a b alpha) c).toNat ∧
          (channel (blend a b alpha) c).toNat ≤ max (channel a c).toNat (channel b c).toNat

/-- 43_color_blender.md R207: alpha = 0.0 gives a, alpha = 1.0 gives b, on the low 24 bits, as each channel's blend is
then exactly the one input's channel. -/
def Obligations.BlendBoundary : Prop :=
  ∀ a b : Word,
    (∀ c : Channel,
      blendChannel a b 0x00000000#32 c = channelF a c ∧ blendChannel a b 0x3F800000#32 c = channelF b c) ∧
    blend a b 0x00000000#32 = a &&& 0x00FFFFFF#32 ∧ blend a b 0x3F800000#32 = b &&& 0x00FFFFFF#32

/-- 40_packed_rgb_accessor.md R146: channel and pack are inverse, and pack_f of exact channel values is pack. -/
def Obligations.ChannelPackRoundTrip : Prop :=
  (∀ r g b : Byte,
    channel (pack r g b) .red = r ∧ channel (pack r g b) .green = g ∧ channel (pack r g b) .blue = b ∧
      packF (f32 r.toNat) (f32 g.toNat) (f32 b.toNat) = pack r g b) ∧
  (∀ p : Word, pack (channel p .red) (channel p .green) (channel p .blue) = p &&& 0x00FFFFFF#32)

/-- 40_packed_rgb_accessor.md R145: a finite value (counted in units of 2^-149) is truncated toward zero and its low 8 bits
are taken; the rule's corner cases; a NaN or an infinity gives 0. -/
def Obligations.ToByteTruncatesAndWraps : Prop :=
  (∀ v : F32, fisNaN v = false → fisInf v = false →
    ((to8 v).toNat : Int) = Int.tdiv (fval v) ((2 ^ 149 : Nat) : Int) % 256) ∧
  to8 0x437FE666#32 = 255#8 ∧ to8 0x43800000#32 = 0#8 ∧ to8 0x4396599A#32 = 44#8 ∧ to8 0xBF000000#32 = 0#8 ∧
    to8 0xBF800000#32 = 255#8 ∧ to8 0xC3804000#32 = 0#8 ∧ (∀ v : F32, fisNaN v = true → to8 v = 0#8) ∧
    to8 0x7F800000#32 = 0#8 ∧ to8 0xFF800000#32 = 0#8 ∧ packF 0x42FF0000#32 0#32 0x437F0000#32 = 0x007F00FF#32

/-- 00_scope.md R10: the sum, difference and product of finite values are the nearest binary32, at equal distance the
even one, and finite whenever the exact result lies within the largest finite value; and the comparisons are ordered: they
hold where neither operand is a NaN and the values compare so. Values are counted in units of 2^-149 (an infinity counts
as 2^128, above every finite value), products in units of 2^-298. -/
def Obligations.FloatResultsAreNearestEven : Prop :=
  (∀ a b : F32,
    (flt a b = true ↔ fisNaN a = false ∧ fisNaN b = false ∧ fval a < fval b) ∧
      (fle a b = true ↔ fisNaN a = false ∧ fisNaN b = false ∧ fval a ≤ fval b)) ∧
  ∀ a b : F32, fexp a ≠ 255 → fexp b ≠ 255 →
    (∀ r exact, (r = fadd a b ∧ exact = fval a + fval b) ∨ (r = fsub a b ∧ exact = fval a - fval b) →
      (exact.natAbs ≤ fmag 0x7F7FFFFF#32 → fexp r ≠ 255) ∧
      (fexp r ≠ 255 → ∀ c : F32, fexp c ≠ 255 →
        (fval r - exact).natAbs ≤ (fval c - exact).natAbs ∧
          ((fval r - exact).natAbs = (fval c - exact).natAbs → fval c ≠ fval r → r.getLsbD 0 = false))) ∧
    ((fmag a * fmag b ≤ fmag 0x7F7FFFFF#32 * 2 ^ 149 → fexp (fmul a b) ≠ 255) ∧
      (fexp (fmul a b) ≠ 255 → ∀ c : F32, fexp c ≠ 255 →
        (fval (fmul a b) * 2 ^ 149 - fval a * fval b).natAbs ≤ (fval c * 2 ^ 149 - fval a * fval b).natAbs ∧
          ((fval (fmul a b) * 2 ^ 149 - fval a * fval b).natAbs = (fval c * 2 ^ 149 - fval a * fval b).natAbs →
            fval c ≠ fval (fmul a b) → (fmul a b).getLsbD 0 = false)))

/-- 42_color_difference_metric.md R181, 43_color_blender.md R200: each constant is nearer to its decimal literal (given in
millionths) than the binary32 values next to it. -/
def Obligations.ConstantsAreNearestTheLiterals : Prop :=
  ∀ c ∈ [(cYR, 299000), (cYG, 587000), (cYB, 114000), (cUR, -168736), (cUG, 331264), (cUB, 500000), (cVR, 500000),
      (cVG, 418688), (cVB, 81312), (wY, 48000000), (wU, 7000000), (wV, 6000000), (alpha, 500000), (axisK, 4000000)],
    (fval c.1 * 1000000 - c.2 * ((2 ^ 149 : Nat) : Int)).natAbs <
        (fval (BitVec.ofNat 32 (c.1.toNat - 1)) * 1000000 - c.2 * ((2 ^ 149 : Nat) : Int)).natAbs ∧
      (fval c.1 * 1000000 - c.2 * ((2 ^ 149 : Nat) : Int)).natAbs <
        (fval (BitVec.ofNat 32 (c.1.toNat + 1)) * 1000000 - c.2 * ((2 ^ 149 : Nat) : Int)).natAbs

/-! ### The sampler and the edge rules -/

/-- 41_neighborhood_sampler.md R161, R164: the 21 offsets are the 5x5 square less its corners, row by row; a cell is
the source word of its own coordinate, or zero when one coordinate lies outside the image. -/
def Obligations.SamplerCellsAndBounds : Prop :=
  cellOffsets =
    ((List.range 25).filter fun n => n ∉ [0, 4, 20, 24]).map (fun n => (((n % 5 : Nat) : Int) - 2, ((n / 5 : Nat) : Int) - 2)) ∧
  ∀ (m : Memory) (q : Snapshot) (x y k : Nat) (dx dy : Int), cellOffsets[k]? = some (dx, dy) →
    (∀ xx yy : Nat, (x : Int) + dx = xx → (y : Int) + dy = yy → xx < q.width.toNat → yy < q.height.toNat →
      sampleCell m q x y k = m.readWord (q.srcBase.toNat + 4 * (yy * q.width.toNat + xx))) ∧
    ((x : Int) + dx < 0 ∨ (q.width.toNat : Int) ≤ x + dx ∨ (y : Int) + dy < 0 ∨ (q.height.toNat : Int) ≤ y + dy →
      sampleCell m q x y k = 0#32)

/-- 44_edge_rule_engine.md R221, R222, R224: the terms of the four rules in the table's order, the strict comparison,
the candidate with ties to the first-listed, and the pass-through of all 32 bits. -/
def Obligations.QuadrantRulesFollowTheTable : Prop :=
  ∀ m : Matrix,
    let d := fun i j => diff (cell m i) (cell m j)
    let sum := fun (t1 t2 t3 t4 tX : F32) => fadd (fadd (fadd (fadd t1 t2) t3) t4) (fmul 0x40800000#32 tX)
    let rule := fun (a b : F32) (x y : Nat) =>
      if flt a b then
        (if fle (d 10 x) (d 10 y) then (⟨blend (cell m 10) (cell m x) 0x3F000000#32, true, false⟩ : QuadrantOut)
          else ⟨blend (cell m 10) (cell m y) 0x3F000000#32, true, true⟩)
      else ⟨cell m 10, false, false⟩
    ruleOut m 0 = rule (sum (d 10 14) (d 10 6) (d 4 8) (d 4 1) (d 9 5))
      (sum (d 9 15) (d 9 3) (d 5 11) (d 5 0) (d 10 4)) 9 5 ∧
    ruleOut m 1 = rule (sum (d 10 16) (d 10 4) (d 6 12) (d 6 1) (d 5 11))
      (sum (d 11 15) (d 11 7) (d 9 5) (d 5 2) (d 10 6)) 5 11 ∧
    ruleOut m 2 = rule (sum (d 10 4) (d 10 16) (d 14 8) (d 14 19) (d 9 15))
      (sum (d 9 5) (d 9 13) (d 11 15) (d 15 18) (d 10 14)) 9 15 ∧
    ruleOut m 3 = rule (sum (d 10 6) (d 10 14) (d 16 12) (d 16 19) (d 11 15))
      (sum (d 9 15) (d 15 20) (d 15 17) (d 5 11) (d 10 16)) 11 15

/-- 44_edge_rule_engine.md R230: with Hm the mirror x → -x and Vm the mirror y → -y of the cells, the other quadrants'
terms are the mirrored terms of top-left, as sets of unordered pairs, but for bottom-right's d(15,17) and the order of
top-right's candidates. -/
def Obligations.QuadrantTableSymmetry : Prop :=
  let hm := fun k : Nat => [2, 1, 0, 7, 6, 5, 4, 3, 12, 11, 10, 9, 8, 17, 16, 15, 14, 13, 20, 19, 18].getD k 0
  let vm := fun k : Nat => [18, 19, 20, 13, 14, 15, 16, 17, 8, 9, 10, 11, 12, 3, 4, 5, 6, 7, 0, 1, 2].getD k 0
  let pair := fun (f : Nat → Nat) (p : Nat × Nat) => (min (f p.1) (f p.2), max (f p.1) (f p.2))
  let a := fun (f : Nat → Nat) (r : QuadrantRule) => [r.a1, r.a2, r.a3, r.a4].map (pair f)
  let b := fun (f : Nat → Nat) (r : QuadrantRule) => [r.b1, r.b2, r.b3, r.b4].map (pair f)
  let axes := fun (f : Nat → Nat) (r : QuadrantRule) => (pair f r.aX, pair f r.bX)
  (∀ k < 21, cellOffsets[hm k]? = (cellOffsets[k]?).map (fun d => (-d.1, d.2)) ∧
    cellOffsets[vm k]? = (cellOffsets[k]?).map (fun d => (d.1, -d.2))) ∧
  ((a id ruleTR).Perm (a hm ruleTL) ∧ (b id ruleTR).Perm (b hm ruleTL) ∧ axes id ruleTR = axes hm ruleTL ∧
    ruleTR.x = hm ruleTL.y ∧ ruleTR.y = hm ruleTL.x) ∧
  ((a id ruleBL).Perm (a vm ruleTL) ∧ (b id ruleBL).Perm (b vm ruleTL) ∧ axes id ruleBL = axes vm ruleTL ∧
    ruleBL.x = vm ruleTL.x ∧ ruleBL.y = vm ruleTL.y) ∧
  ((a id ruleBR).Perm (a (hm ∘ vm) ruleTL) ∧ axes id ruleBR = axes (hm ∘ vm) ruleTL ∧
    ruleBR.x = hm (vm ruleTL.x) ∧ ruleBR.y = hm (vm ruleTL.y) ∧ ruleBR.b3 = (15, 17) ∧
    (b (hm ∘ vm) ruleTL).Perm (b id { ruleBR with b3 := (11, 17) }))

/-- The bottom-right rule's third B term is d(15,17) (44_edge_rule_engine.md R228, 95_test_vectors.md V44.2); the top-right
rule finds no edge at (0, 0) of RGBW, and the top-left rule an edge with its second candidate at (1, 0) (V44.1); around the
one pixel 0x00FFFFFF every rule finds an edge and takes the first of its equal candidates (44_edge_rule_engine.md R229,
V44.3). -/
def Obligations.EdgeRuleTestVectors : Prop :=
  (let m : Matrix := [0, 0, 0, 0, 0, 0, 0, 0, 0, 0, 0, 0x00FFFFFF#32, 0, 0, 0, 0x00FF0000#32, 0, 0, 0, 0, 0];
    sumA ruleBR m = 0x46FDA378#32 ∧ sumB ruleBR m = 0x46C04565#32 ∧ ruleOut m 3 = ⟨0#32, false, false⟩) ∧
  (let m : Matrix :=
      [0, 0, 0, 0, 0, 0, 0, 0, 0, 0, 0x00FF0000#32, 0x0000FF00#32, 0, 0, 0, 0x000000FF#32, 0x00FFFFFF#32, 0, 0, 0, 0];
    sumA ruleTR m = 0x470CD3EC#32 ∧ sumB ruleTR m = 0x46EEC75B#32 ∧ ruleOut m 1 = ⟨0x00FF0000#32, false, false⟩) ∧
  (let m : Matrix :=
      [0, 0, 0, 0, 0, 0, 0, 0, 0, 0x00FF0000#32, 0x0000FF00#32, 0, 0, 0, 0x000000FF#32, 0x00FFFFFF#32, 0, 0, 0, 0, 0];
    sumA ruleTL m = 0x46EEC75B#32 ∧ sumB ruleTL m = 0x470CD3EC#32 ∧ ruleOut m 0 = ⟨0x00007F00#32, true, true⟩) ∧
  (let m : Matrix := [0, 0, 0, 0, 0, 0, 0, 0, 0, 0, 0x00FFFFFF#32, 0, 0, 0, 0, 0, 0, 0, 0, 0, 0];
    ∀ q, sumA (ruleOf q) m = 0x46BF4000#32 ∧ sumB (ruleOf q) m = 0x473F4000#32 ∧
      ruleOut m q = ⟨0x007F7F7F#32, true, false⟩)

/-- Where all cells have the same 24-bit colour no rule finds an edge, and the center passes through with all 32 bits
(44_edge_rule_engine.md R224, R229, 42_color_difference_metric.md R184). -/
def Obligations.EqualColoursGiveNoEdge : Prop :=
  ∀ m : Matrix, (∀ i j, i ≤ 20 → j ≤ 20 → cell m i &&& 0x00FFFFFF#32 = cell m j &&& 0x00FFFFFF#32) →
    ∀ q, ruleOut m q = ⟨cell m 10, false, false⟩

/-! ### Commands that use memory -/

/-- 41_neighborhood_sampler.md R166: with its checks passed and its read answered, of a word whose stores are performed,
SAMPLE puts its cell into RES0 and changes nothing else; a cell outside the image takes no read. -/
def Obligations.SampleCompletes : Prop :=
  ∀ s : State, s.Ready → s.Quiet 3 → s.latch.SrcOk → s.opk.toNat ≤ 20 →
    (∀ a, s.latch.cellAddr s.opx.toNat s.opy.toNat s.opk.toNat = some a →
      (.read, a) ∉ s.busErrors ∧ s.heldWord a = none) →
    exec .sample s =
      .next { s with
        done := true, err := false, errCode := .none,
        inputs := elapse (if (s.latch.cellAddr s.opx.toNat s.opy.toNat s.opk.toNat).isSome then 3 else 2) s.inputs,
        res0 := sampleCell s.mem s.latch s.opx.toNat s.opy.toNat s.opk.toNat }

/-- 44_edge_rule_engine.md R232: with its checks passed and its reads answered, of words whose stores are performed, PIXEL
puts the outputs TL, TR, BL, BR into RES0 to RES3 and the edge and pick bits into DECISION, and changes nothing else. -/
def Obligations.PixelCompletes : Prop :=
  ∀ s : State, s.Ready → s.Quiet (23 + s.schedule.length) → s.latch.SrcOk →
    (∀ k a, k ≤ 20 → s.latch.cellAddr s.opx.toNat s.opy.toNat k = some a →
      (.read, a) ∉ s.busErrors ∧ s.heldWord a = none) →
    ∃ (d : Word) (n : Nat) (sch : List Choice),
      (∀ q : Fin 4,
        d.getLsbD q.val = (ruleOut (sampleMatrix s.mem s.latch s.opx.toNat s.opy.toNat) q).edge ∧
          d.getLsbD (4 + q.val) = (ruleOut (sampleMatrix s.mem s.latch s.opx.toNat s.opy.toNat) q).pick) ∧
      d.toNat < 2 ^ 8 ∧ n ≤ 23 + s.schedule.length ∧
      exec .pixel s =
        .next { s with
          done := true, err := false, errCode := .none, inputs := elapse n s.inputs, schedule := sch,
          res0 := (ruleOut (sampleMatrix s.mem s.latch s.opx.toNat s.opy.toNat) 0).out,
          res1 := (ruleOut (sampleMatrix s.mem s.latch s.opx.toNat s.opy.toNat) 1).out,
          res2 := (ruleOut (sampleMatrix s.mem s.latch s.opx.toNat s.opy.toNat) 2).out,
          res3 := (ruleOut (sampleMatrix s.mem s.latch s.opx.toNat s.opy.toNat) 3).out,
          decision := d }

/-- 60_exceptions.md R282, R283, R285 to R290: the start checks in their order; the first that fails is the error the
command completes with, and nothing but STATUS changes. -/
def Obligations.StartChecksInOrder : Prop :=
  ∀ s : State, s.Ready → s.Quiet 1 →
    let w := s.width.toNat
    let h := s.height.toNat
    let srcEnd := s.srcBase.toNat + 4 * s.srcLen.toNat
    let dstEnd := s.dstBase.toNat + 4 * s.dstLen.toNat
    let failed := fun (c : ErrCode) =>
      { s with done := true, err := true, errCode := c, inputs := elapse 1 s.inputs }
    (∀ c : ErrCode,
      (if s.srcLen.toNat ≠ w * h then some .srcLen
        else if s.dstLen.toNat ≠ (2 * w) * (2 * h) then some .dstLen
        else if w * h = 0 then none
        else if s.srcBase.toNat % 4 ≠ 0 then some .align
        else if s.dstBase.toNat % 4 ≠ 0 then some .align
        else if srcEnd > 2 ^ 32 then some .range
        else if dstEnd > 2 ^ 32 then some .range
        else if s.srcBase.toNat < dstEnd ∧ s.dstBase.toNat < srcEnd then some .overlap
        else none) = some c →
      exec .apply s = .next (failed c)) ∧
    (∀ c : ErrCode,
      (if s.srcLen.toNat ≠ w * h then some .srcLen
        else if w * h = 0 then none
        else if s.srcBase.toNat % 4 ≠ 0 then some .align
        else if srcEnd > 2 ^ 32 then some .range
        else none) = some c →
      exec .pixel s = .next (failed c)) ∧
    (∀ c : ErrCode,
      (if s.srcLen.toNat ≠ w * h then some .srcLen
        else if w * h ≠ 0 ∧ s.srcBase.toNat % 4 ≠ 0 then some .align
        else if w * h ≠ 0 ∧ srcEnd > 2 ^ 32 then some .range
        else if s.opk.toNat > 20 then some .arg
        else none) = some c →
      exec .sample s = .next (failed c))

/-- A read that memory answers with `bus_error` completes SAMPLE and PIXEL with BUS and changes nothing but STATUS
(60_exceptions.md R293), and of the model's own fields PIXEL's other reads may use up choices and free words. -/
def Obligations.BusErrorStopsSampleAndPixel : Prop :=
  (∀ (s : State) (a : Nat), s.Ready → s.Quiet 2 → s.latch.SrcOk → s.opk.toNat ≤ 20 →
    s.latch.cellAddr s.opx.toNat s.opy.toNat s.opk.toNat = some a → (.read, a) ∈ s.busErrors →
    exec .sample s = .next { s with done := true, err := true, errCode := .bus, inputs := elapse 2 s.inputs }) ∧
  (∀ (s : State) (k a : Nat), s.Ready → s.Quiet (22 + s.schedule.length) → s.latch.SrcOk → k ≤ 20 →
    s.latch.cellAddr s.opx.toNat s.opy.toNat k = some a → (.read, a) ∈ s.busErrors →
    ∃ n sch c, n ≤ 22 + s.schedule.length ∧
      exec .pixel s =
        .next { s with
          done := true, err := true, errCode := .bus, inputs := elapse n s.inputs, schedule := sch, freeCount := c })

/-- 45_scan_driver.md R253: with its checks passed, its accesses answered and the source's stores performed, APPLY
writes into destination cell off(x, y, q) the output of rule q on the matrix of (x, y), for every source pixel and
quadrant, in whatever order the schedule picks; no byte outside the destination changes, and no register but STATUS. That a store
which the host holds for a destination word stays as it is is the model's choice (log 17). -/
def Obligations.ApplyUpscalesTheImage : Prop :=
  ∀ s : State, s.Ready → s.Quiet (25 * (s.width.toNat * s.height.toNat) + 2 + s.schedule.length) → s.mem.wf →
    s.latch.SrcOk → s.latch.DstOk →
    (∀ a, s.latch.inSrc a = true → (.read, a) ∉ s.busErrors ∧ s.heldWord a = none) →
    (∀ a, s.latch.inDst a = true → (.write, a) ∉ s.busErrors) →
    ∃ (m : Memory) (n : Nat) (sch : List Choice),
      exec .apply s =
        .next { s with
          done := true, err := false, errCode := .none, inputs := elapse n s.inputs, mem := m, schedule := sch } ∧
      n ≤ 25 * (s.width.toNat * s.height.toNat) + 2 + s.schedule.length ∧
      m.wf ∧
      (∀ (x y : Nat) (q : Fin 4), x < s.width.toNat → y < s.height.toNat →
        m.readWord (s.dstBase.toNat + 4 * ((2 * y + q.val / 2) * (2 * s.width.toNat) + (2 * x + q.val % 2))) =
          (ruleOut (sampleMatrix s.mem s.latch x y) q).out) ∧
      (∀ a, a < s.dstBase.toNat ∨ s.dstBase.toNat + 4 * s.dstLen.toNat ≤ a → m.readByte a = s.mem.readByte a)

/-- APPLY on a source whose stores are performed, with any answers of memory: it completes, with BUS exactly where memory
refuses the read of a source word or the write of a destination cell, all of which it must make; and each destination cell
holds its old value or the value a successful APPLY writes there; no byte outside the destination changes, no result
register (60_exceptions.md R293). BUS is raised at once: where every read is refused the first one ends the command with
nothing but STATUS changed (and a choice of `schedule` used), and where every write is, only the cell of the first one may
have changed. -/
def Obligations.ApplyLeavesCellsOldOrFinal : Prop :=
  ∀ s : State, s.Ready → s.Quiet (25 * (s.width.toNat * s.height.toNat) + 2 + s.schedule.length) → s.mem.wf →
    s.latch.SrcOk → s.latch.DstOk → (∀ a, s.latch.inSrc a = true → s.heldWord a = none) →
    ∃ t : State,
      exec .apply s = .next t ∧ t.engine = .idle ∧ t.done = true ∧ (t.err = true → t.errCode = .bus) ∧
      (t.err = true ↔
        (∃ n, n < s.width.toNat * s.height.toNat ∧ (.read, s.srcBase.toNat + 4 * n) ∈ s.busErrors) ∨
          ∃ n, n < 4 * (s.width.toNat * s.height.toNat) ∧ (.write, s.dstBase.toNat + 4 * n) ∈ s.busErrors) ∧
      (0 < s.width.toNat * s.height.toNat →
        (∀ n, n < s.width.toNat * s.height.toNat → (.read, s.srcBase.toNat + 4 * n) ∈ s.busErrors) →
        ∃ sch,
          t = { s with
            done := true, err := true, errCode := .bus, inputs := elapse 2 s.inputs, schedule := sch }) ∧
      ((∀ n, n < 4 * (s.width.toNat * s.height.toNat) → (.write, s.dstBase.toNat + 4 * n) ∈ s.busErrors) →
        ∃ n, ∀ a, a < s.dstBase.toNat + 4 * n ∨ s.dstBase.toNat + 4 * n + 4 ≤ a →
          t.mem.readByte a = s.mem.readByte a) ∧
      t.latch = s.latch ∧ t.res0 = s.res0 ∧ t.res1 = s.res1 ∧ t.res2 = s.res2 ∧ t.res3 = s.res3 ∧
      t.decision = s.decision ∧
      (∀ (x y : Nat) (q : Fin 4), x < s.width.toNat → y < s.height.toNat →
        let a := s.dstBase.toNat + 4 * ((2 * y + q.val / 2) * (2 * s.width.toNat) + (2 * x + q.val % 2))
        t.mem.readWord a = s.mem.readWord a ∨
          t.mem.readWord a = (ruleOut (sampleMatrix s.mem s.latch x y) q).out) ∧
      (∀ a, a < s.dstBase.toNat ∨ s.dstBase.toNat + 4 * s.dstLen.toNat ≤ a → t.mem.readByte a = s.mem.readByte a)

/-- After any number of block steps of an APPLY on a source whose stores are performed, while no event lands, each
destination cell holds its old value or the value a successful APPLY writes there, and no byte outside the destination
has changed: what reset leaves of an abandoned APPLY, and what a read before completion sees (20_memory.md R90, R93,
70_reset_and_hazards.md R321). -/
def Obligations.ApplyCellsAreOldOrFinalThroughout : Prop :=
  ∀ (s : State) (n : Nat), s.Ready → s.Quiet n → s.mem.wf → s.latch.SrcOk → s.latch.DstOk →
    (∀ a, s.latch.inSrc a = true → s.heldWord a = none) →
    (∀ (x y : Nat) (q : Fin 4), x < s.width.toNat → y < s.height.toNat →
      let a := s.dstBase.toNat + 4 * ((2 * y + q.val / 2) * (2 * s.width.toNat) + (2 * x + q.val % 2))
      let m := ((s.accept (encode .apply)).runSteps applyStep n).mem
      m.readWord a = s.mem.readWord a ∨ m.readWord a = (ruleOut (sampleMatrix s.mem s.latch x y) q).out) ∧
    ∀ a, a < s.dstBase.toNat ∨ s.dstBase.toNat + 4 * s.dstLen.toNat ≤ a →
      ((s.accept (encode .apply)).runSteps applyStep n).mem.readByte a = s.mem.readByte a

/-- Two APPLY commands on the same image write the same destination words, whatever the processing order and the
buffer addresses (45_scan_driver.md R254, R260). -/
def Obligations.ApplyIsIndependentOfOrderAndAddresses : Prop :=
  ∀ s₁ s₂ : State,
    (∀ s, s = s₁ ∨ s = s₂ →
      s.Ready ∧ s.Quiet (25 * (s.width.toNat * s.height.toNat) + 2 + s.schedule.length) ∧ s.mem.wf ∧
        s.latch.SrcOk ∧ s.latch.DstOk ∧
        (∀ a, s.latch.inSrc a = true → (.read, a) ∉ s.busErrors ∧ s.heldWord a = none) ∧
        (∀ a, s.latch.inDst a = true → (.write, a) ∉ s.busErrors)) →
    s₁.width = s₂.width → s₁.height = s₂.height →
    (∀ n, n < s₁.width.toNat * s₁.height.toNat →
      s₁.mem.readWord (s₁.srcBase.toNat + 4 * n) = s₂.mem.readWord (s₂.srcBase.toNat + 4 * n)) →
    ∃ t₁ t₂, exec .apply s₁ = .next t₁ ∧ exec .apply s₂ = .next t₂ ∧
      ∀ n, n < 4 * (s₁.width.toNat * s₁.height.toNat) →
        t₁.mem.readWord (s₁.dstBase.toNat + 4 * n) = t₂.mem.readWord (s₂.dstBase.toNat + 4 * n)

/-- 45_scan_driver.md R252: (x, y, q) → off(x, y, q) is a bijection onto [0, 4·W·H). -/
def Obligations.DestinationCellsAreABijection : Prop :=
  ∀ s : Snapshot,
    (∀ x y q, x < s.width.toNat → y < s.height.toNat → s.dstCell x y q < 4 * (s.width.toNat * s.height.toNat)) ∧
    (∀ x y q x' y' q', x < s.width.toNat → x' < s.width.toNat → s.dstCell x y q = s.dstCell x' y' q' →
      x = x' ∧ y = y' ∧ q = q') ∧
    (∀ n, n < 4 * (s.width.toNat * s.height.toNat) →
      ∃ x y q, x < s.width.toNat ∧ y < s.height.toNat ∧ s.dstCell x y q = n)

/-- 45_scan_driver.md R256: an empty image needs lengths of 0, makes no memory access, does not check the bases, and
completes with DONE = 1, ERR = 0. -/
def Obligations.EmptyImageApplies : Prop :=
  ∀ s : State, s.Ready → s.Quiet 2 → (s.width = 0#32 ∨ s.height = 0#32) →
    (s.srcLen = 0#32 → s.dstLen = 0#32 →
      exec .apply s =
        .next { s with done := true, err := false, errCode := .none, inputs := elapse 2 s.inputs }) ∧
    (s.srcLen ≠ 0#32 →
      exec .apply s = .next { s with done := true, err := true, errCode := .srcLen, inputs := elapse 1 s.inputs }) ∧
    (s.srcLen = 0#32 → s.dstLen ≠ 0#32 →
      exec .apply s = .next { s with done := true, err := true, errCode := .dstLen, inputs := elapse 1 s.inputs })

/-- 70_reset_and_hazards.md R323: right after reset, whatever memory and the host hold and whatever accesses memory
would answer with `bus_error`, the image and the lengths are empty, APPLY succeeds with memory as it was, and PIXEL and
SAMPLE succeed with the results of an all-zero matrix (all 0), so that none of them makes an access. -/
def Obligations.ResetStateIsALegalConfiguration : Prop :=
  ∀ (m : Memory) (hd : List (BitVec 30 × Word)) (l : List (Access × Nat)) (sch : List Choice) (c : Nat),
    let s := { State.reset with mem := m, held := hd, busErrors := l, schedule := sch, freeCount := c }
    (s.width = 0#32 ∧ s.height = 0#32 ∧ s.srcLen = 0#32 ∧ s.dstLen = 0#32) ∧
      exec .apply s = .next { s with done := true } ∧
      (∃ d : Word,
        (∀ q : Fin 4,
          d.getLsbD q.val = (ruleOut (List.replicate 21 0#32) q).edge ∧
            d.getLsbD (4 + q.val) = (ruleOut (List.replicate 21 0#32) q).pick) ∧
        d.toNat < 2 ^ 8 ∧
        exec .pixel s =
          .next { s with
            done := true,
            res0 := (ruleOut (List.replicate 21 0#32) 0).out, res1 := (ruleOut (List.replicate 21 0#32) 1).out,
            res2 := (ruleOut (List.replicate 21 0#32) 2).out, res3 := (ruleOut (List.replicate 21 0#32) 3).out,
            decision := d }) ∧
      exec .pixel s = .next { s with done := true } ∧ exec .sample s = .next { s with done := true }

/-- A command writes memory only as APPLY, and then only in its destination; a step in which no store is performed changes
no other byte (20_memory.md R86, R87, R89). -/
def Obligations.OnlyApplyWritesAndOnlyItsDestination : Prop :=
  ∀ s t : State, s.mem.wf → s.ScanLegal → step s = .next t → (∀ a v, s.landing ≠ some (.store a v)) →
    (∀ n, s.landing ≠ some (.drain n)) →
    ∀ a, t.mem.readByte a ≠ s.mem.readByte a →
      s.commandWord = some 0x00000001#32 ∧ s.commandSnap.dstBase.toNat ≤ a ∧
        a < s.commandSnap.dstBase.toNat + 4 * s.commandSnap.dstLen.toNat

/-- A word of memory is four bytes, the least significant at the lowest address (20_memory.md R81). A store by the host or
another agent, performed at once, with no command running, changes that byte and nothing else, and so does one
during a command outside the buffers that the command uses (of a command that fails its start checks, of NOP, DIFF,
BLEND, UNPACK and of an illegal word: anywhere). Into the source of a running PIXEL or SAMPLE that passes its start checks
it makes the command racing; into the source or the destination of such a running APPLY it also leaves every destination
cell with a free word (20_memory.md R94, K1.11; log 7). That a store which the host holds for the same word stays as it is
is the model's choice, where the spec gives no order of the two (log 17). -/
def Obligations.StoresLandInMemory : Prop :=
  (∀ (s : State) (a : Word) (v : Byte) (rest : List Input), s.mem.wf →
    s.inputs = ⟨0, .store a v⟩ :: rest →
    (∀ r, s.engine = .running r →
      (r.word = 0x00000002#32 → r.snap.inSrc a.toNat = false ∨ ¬r.snap.SrcOk) ∧
      (r.word = 0x00000003#32 → r.snap.inSrc a.toNat = false ∨ ¬r.snap.SrcOk ∨ 20 < r.snap.opk.toNat) ∧
      (r.word = 0x00000001#32 →
        (r.snap.inSrc a.toNat = false ∧ r.snap.inDst a.toNat = false) ∨ ¬r.snap.SrcOk ∨ ¬r.snap.DstOk)) →
    ∃ m, step s = .next { s with inputs := rest, mem := m } ∧ m.wf ∧ m.readByte a.toNat = v ∧
      ∀ b, b ≠ a.toNat → m.readByte b = s.mem.readByte b) ∧
  (∀ (s : State) (r : Running) (a : Word) (v : Byte) (rest : List Input),
    s.engine = .running r → r.word = 0x00000002#32 ∨ (r.word = 0x00000003#32 ∧ r.snap.opk.toNat ≤ 20) → r.snap.SrcOk →
    r.snap.inSrc a.toNat = true → s.inputs = ⟨0, .store a v⟩ :: rest →
    step s = .next { s with
      inputs := rest, mem := s.mem.writeByte a.toNat v, engine := .running { r with raced := true } }) ∧
  (∀ (s : State) (r : Running) (a : Word) (v : Byte) (rest : List Input), s.mem.wf →
    s.engine = .running r → r.word = 0x00000001#32 → r.snap.SrcOk → r.snap.DstOk →
    r.snap.inSrc a.toNat = true ∨ r.snap.inDst a.toNat = true →
    s.inputs = ⟨0, .store a v⟩ :: rest →
    ∃ m,
      step s = .next { s with
        inputs := rest, mem := m, engine := .running { r with raced := true },
        freeCount := s.freeCount + r.snap.dstLen.toNat } ∧
      (∀ n, n < r.snap.dstLen.toNat →
        m.readWord (r.snap.dstBase.toNat + 4 * n) = Config.freeWord (s.freeCount + n)) ∧
      ∀ b, r.snap.inDst b = false → m.readByte b = if b = a.toNat then v else s.mem.readByte b) ∧
  (∀ (m : Memory) (a : Nat),
    m.readWord a = m.readByte (a + 3) ++ m.readByte (a + 2) ++ m.readByte (a + 1) ++ m.readByte a) ∧
  (∀ (m : Memory) (a : Nat) (v : Word), m.wf → a + 3 < 2 ^ 32 →
    (m.writeWord a v).wf ∧
      (∀ i, i < 4 → (m.writeWord a v).readByte (a + i) = v.extractLsb' (8 * i) 8) ∧
      ∀ b, b < a ∨ a + 4 ≤ b → (m.writeWord a v).readByte b = m.readByte b)

/-- A store that the host has made and that is not performed in memory (20_memory.md R92, 70_reset_and_hazards.md R331,
K1.14; log 17). It changes no memory when it is made, and it changes its word when it is performed; a command whose source
it lies in goes on undisturbed then, and reads the old or the new word, freely, before: the reads of all other words
return memory as it is, and a SAMPLE of the word completes with one of the two. Made in the buffers of a running command,
or performed in the destination of a running APPLY, it makes the command racing as a store performed at once does, with a
free word in every destination cell of an APPLY and all else as it was (20_memory.md R94, K1.11; log 7). -/
def Obligations.UnperformedStoresAreOldOrNew : Prop :=
  (∀ (s : State) (n : BitVec 30), (.read, 4 * n.toNat) ∉ s.busErrors →
    (∀ v, s.held.lookup n = some v →
      s.memRead false (4 * n.toNat) =
        some (if (Config.freeWord s.freeCount).getLsbD 0 then v else s.mem.readWord (4 * n.toNat),
          { s with freeCount := s.freeCount + 1 })) ∧
    (s.held.lookup n = none → s.memRead false (4 * n.toNat) = some (s.mem.readWord (4 * n.toNat), s))) ∧
  (∀ (s : State) (n : BitVec 30) (v : Word), s.Ready → s.Quiet 3 → s.latch.SrcOk → s.opk.toNat ≤ 20 →
    s.latch.cellAddr s.opx.toNat s.opy.toNat s.opk.toNat = some (4 * n.toNat) → (.read, 4 * n.toNat) ∉ s.busErrors →
    s.held.lookup n = some v →
    ∃ w, (w = v ∨ w = s.mem.readWord (4 * n.toNat)) ∧
      exec .sample s =
        .next { s with
          done := true, err := false, errCode := .none, inputs := elapse 3 s.inputs, freeCount := s.freeCount + 1,
          res0 := w }) ∧
  (∀ (s : State) (n : BitVec 30) (v : Word) (rest : List Input), s.inputs = ⟨0, .hold n v⟩ :: rest →
    (¬s.UsesByte (4 * n.toNat) →
      step s = .next { s with inputs := rest, held := (n, v) :: s.held.filter fun p => p.1 != n }) ∧
    (∀ r, s.UsesByte (4 * n.toNat) → s.engine = .running r → r.word ≠ 0x00000001#32 →
      step s = .next { s with
        inputs := rest, held := (n, v) :: s.held.filter fun p => p.1 != n,
        engine := .running { r with raced := true } }) ∧
    (∀ r, s.UsesByte (4 * n.toNat) → s.engine = .running r → r.word = 0x00000001#32 → s.mem.wf →
      ∃ m,
        step s = .next { s with
          inputs := rest, held := (n, v) :: s.held.filter fun p => p.1 != n, mem := m,
          engine := .running { r with raced := true }, freeCount := s.freeCount + r.snap.dstLen.toNat } ∧
        m.wf ∧
        (∀ k, k < r.snap.dstLen.toNat →
          m.readWord (r.snap.dstBase.toNat + 4 * k) = Config.freeWord (s.freeCount + k)) ∧
        ∀ b, r.snap.inDst b = false → m.readByte b = s.mem.readByte b)) ∧
  (∀ (s : State) (n : BitVec 30) (rest : List Input), s.mem.wf → s.inputs = ⟨0, .drain n⟩ :: rest →
    (s.held.lookup n = none → step s = .next { s with inputs := rest }) ∧
    (∀ v, s.held.lookup n = some v → ¬s.OverwritesByte (4 * n.toNat) →
      ∃ m, step s = .next { s with inputs := rest, mem := m, held := s.held.filter fun p => p.1 != n } ∧ m.wf ∧
        m.readWord (4 * n.toNat) = v ∧
        ∀ b, b < 4 * n.toNat ∨ 4 * n.toNat + 4 ≤ b → m.readByte b = s.mem.readByte b) ∧
    (∀ v r, s.held.lookup n = some v → s.OverwritesByte (4 * n.toNat) → s.engine = .running r →
      ∃ m,
        step s = .next { s with
          inputs := rest, held := s.held.filter fun p => p.1 != n, mem := m,
          engine := .running { r with raced := true }, freeCount := s.freeCount + r.snap.dstLen.toNat } ∧
        m.wf ∧
        (∀ k, k < r.snap.dstLen.toNat →
          m.readWord (r.snap.dstBase.toNat + 4 * k) = Config.freeWord (s.freeCount + k)) ∧
        ∀ b, r.snap.inDst b = false → m.readByte b = s.mem.readByte b))

/-- A read of a racing command that memory answers returns a free word, a write stores one (20_memory.md R94, K1.11;
log 7). That the write leaves a store which the host holds for the same word as it is is the model's choice (log 17). -/
def Obligations.RacingAccessesUseFreeWords : Prop :=
  ∀ (s : State) (a : Nat) (v : Word) (landed : Bool), a % 4 = 0 → a < 2 ^ 32 →
    ((.read, a) ∉ s.busErrors →
      s.memRead true a = some (Config.freeWord s.freeCount, { s with freeCount := s.freeCount + 1 })) ∧
    ((.write, a) ∉ s.busErrors →
      s.memWrite true landed a v =
        (true, { s with mem := s.mem.writeWord a (Config.freeWord s.freeCount), freeCount := s.freeCount + 1 }))

/-- The results of a racing PIXEL or SAMPLE that completes successfully are free words where a cell they are built from lies
in the image: of PIXEL, quadrant by quadrant, with the quadrant's bits of DECISION free but for its form. Where none does, no
read was made for them, and they are what the rules give for zero pixels (20_memory.md R94, K1.11, 44_edge_rule_engine.md
R222; log 7). -/
def Obligations.RacingResultsAreFree : Prop :=
  ∀ (s t : State) (r : Running), s.engine = .running r → r.raced = true → s.WindowLegal → s.landing = none →
    step s = .next t → t.engine = .idle → t.err = false →
    let addr := fun k : Nat => r.snap.cellAddr r.snap.opx.toNat r.snap.opy.toNat k
    let read := fun q : Fin 4 =>
      match q with
      | 0 => [10, 14, 6, 4, 8, 1, 9, 5, 15, 3, 11, 0]
      | 1 => [10, 16, 4, 6, 12, 1, 5, 11, 15, 7, 9, 2]
      | 2 => [10, 4, 16, 14, 8, 19, 9, 15, 5, 13, 11, 18]
      | 3 => [10, 6, 14, 16, 12, 19, 11, 15, 9, 20, 17, 5]
    let res := fun q : Fin 4 =>
      match q with
      | 0 => t.res0
      | 1 => t.res1
      | 2 => t.res2
      | 3 => t.res3
    (r.word = 0x00000002#32 →
      t.decision.toNat < 2 ^ 8 ∧
      ∃ n, s.freeCount ≤ n ∧ ∀ q : Fin 4,
        ((∃ k ∈ read q, (addr k).isSome = true) →
          res q = Config.freeWord (n + q.val) ∧
            t.decision.getLsbD q.val = (Config.freeWord (n + 4)).getLsbD q.val ∧
            t.decision.getLsbD (4 + q.val) =
              ((Config.freeWord (n + 4)).getLsbD q.val && (Config.freeWord (n + 4)).getLsbD (4 + q.val))) ∧
        ((∀ k ∈ read q, addr k = none) →
          res q = 0#32 ∧ t.decision.getLsbD q.val = false ∧ t.decision.getLsbD (4 + q.val) = false)) ∧
    (r.word = 0x00000003#32 → r.snap.opk.toNat ≤ 20 →
      ((addr r.snap.opk.toNat).isSome = true → ∃ n, s.freeCount ≤ n ∧ t.res0 = Config.freeWord n) ∧
      (addr r.snap.opk.toNat = none → t.res0 = 0#32))

/-- A racing APPLY whose destination cells hold free words, as the store that made it racing left them, goes on with free
words in all of them and changes no other byte (20_memory.md R94, K1.11; log 7). -/
def Obligations.RacingApplyLeavesFreeWords : Prop :=
  ∀ (s t : State) (r : Running), s.engine = .running r → r.word = 0x00000001#32 → r.raced = true → s.mem.wf →
    s.ScanLegal → r.snap.SrcOk → r.snap.DstOk → s.landing = none → step s = .next t →
    (∀ n, n < r.snap.dstLen.toNat → ∃ k, s.mem.readWord (r.snap.dstBase.toNat + 4 * n) = Config.freeWord k) →
    (∀ n, n < r.snap.dstLen.toNat → ∃ k, t.mem.readWord (r.snap.dstBase.toNat + 4 * n) = Config.freeWord k) ∧
      ∀ b, r.snap.inDst b = false → t.mem.readByte b = s.mem.readByte b

/-! ### Registers -/

/-- 10_state.md R31, R32, R36, R46: what a read of each offset returns. -/
def Obligations.RegisterReadsFollowTheMap : Prop :=
  ∀ (s : State) (off : BitVec 8) (rest : List Input), s.rst = false → off.toNat % 4 = 0 →
    s.inputs = ⟨0, .regRead off⟩ :: rest →
    step s = .next { s with
      inputs := rest
      readData :=
        match off.toNat with
        | 0x00 => 0x58425232#32
        | 0x04 => s.ctrlWord
        | 0x08 => s.statusWord
        | 0x10 => s.width
        | 0x14 => s.height
        | 0x18 => s.srcBase
        | 0x1C => s.srcLen
        | 0x20 => s.dstBase
        | 0x24 => s.dstLen
        | 0x28 => BitVec.ofNat 32 (2 * s.width.toNat)
        | 0x2C => BitVec.ofNat 32 (2 * s.height.toNat)
        | 0x30 => BitVec.ofNat 32 (4 * s.width.toNat * s.height.toNat)
        | 0x34 => s.opx
        | 0x38 => s.opy
        | 0x3C => s.opk
        | 0x40 => s.opa
        | 0x44 => s.opb
        | 0x50 => s.res0
        | 0x54 => s.res1
        | 0x58 => s.res2
        | 0x5C => s.res3
        | 0x60 => s.decision
        | _ => 0#32 }

/-- 10_state.md R33, R35, R46: what a write to each offset other than CMD's does; RO registers, reserved offsets and
reserved bits ignore it. -/
def Obligations.RegisterWritesFollowTheMap : Prop :=
  ∀ (s : State) (off : BitVec 8) (v : Word) (rest : List Input), s.rst = false → off.toNat % 4 = 0 → off ≠ 0x0C#8 →
    s.inputs = ⟨0, .regWrite off v⟩ :: rest →
    let u := { s with inputs := rest }
    step s = .next
      (match off.toNat with
        | 0x04 => { u with irqEn := v.getLsbD 0 }
        | 0x08 =>
          { u with
            done := if v.getLsbD 1 then false else s.done
            err := if v.getLsbD 2 then false else s.err
            errCode := if v.getLsbD 2 then .none else s.errCode
            ovr := if v.getLsbD 3 then false else s.ovr }
        | 0x10 => { u with width := v }
        | 0x14 => { u with height := v }
        | 0x18 => { u with srcBase := v }
        | 0x1C => { u with srcLen := v }
        | 0x20 => { u with dstBase := v }
        | 0x24 => { u with dstLen := v }
        | 0x34 => { u with opx := v }
        | 0x38 => { u with opy := v }
        | 0x3C => { u with opk := v }
        | 0x40 => { u with opa := v }
        | 0x44 => { u with opb := v }
        | _ => u)

/-- The layout of the STATUS and CTRL words (10_state.md R33, R34, 60_exceptions.md R281). -/
def Obligations.StatusAndCtrlLayout : Prop :=
  ∀ s : State,
    s.statusWord.toNat =
      (if s.busy then 1 else 0) + (if s.done then 2 else 0) + (if s.err then 4 else 0) + (if s.ovr then 8 else 0) +
        256 * (match s.errCode with
          | .none => 0 | .illegalCmd => 1 | .srcLen => 2 | .dstLen => 3 | .align => 4 | .range => 5 | .overlap => 6
          | .arg => 7 | .bus => 8) ∧
    s.ctrlWord.toNat = (if s.irqEn then 1 else 0) ∧ (s.busy = true ↔ ∃ r, s.engine = .running r)

/-- 60_exceptions.md R295: `irq` is CTRL.IRQ_EN and STATUS.DONE; a completion with IRQ_EN = 1 raises it; a 1 written to
STATUS bit 1, IRQ_EN = 0 and acceptance lower it. -/
def Obligations.IrqIsEnabledDone : Prop :=
  ∀ s : State,
    (s.irq = true ↔ s.ctrlWord.getLsbD 0 = true ∧ s.statusWord.getLsbD 1 = true) ∧
    s.complete.irq = s.irqEn ∧ (∀ c, (s.raise c).irq = s.irqEn) ∧
    (∀ v : Word, v.getLsbD 1 = true → (s.setReg v .status).irq = false) ∧
    (∀ v : Word, v.getLsbD 0 = false → (s.setReg v .ctrl).irq = false) ∧ (∀ w, (s.accept w).irq = false)

/-- A register access at an offset that is no multiple of 4 is refused by name (10_state.md R30, K1.10; log 10). -/
def Obligations.MisalignedRegisterAccessIsRefused : Prop :=
  ∀ (s : State) (off : BitVec 8) (v : Word) (rest : List Input), off.toNat % 4 ≠ 0 →
    s.inputs = ⟨0, .regRead off⟩ :: rest ∨ s.inputs = ⟨0, .regWrite off v⟩ :: rest →
    step s = .refused (.registerAccessNotWord off)

/-! ### Reset -/

/-- 10_state.md R62: the values after reset; reset does not change memory. -/
def Obligations.ResetValues : Prop :=
  State.reset.readReg 0x00#8 = 0x58425232#32 ∧ State.reset.irqEn = false ∧ State.reset.statusWord = 0#32 ∧
    State.reset.readReg 0x0C#8 = 0#32 ∧
    State.reset.latch = ⟨0, 0, 0, 0, 0, 0, 0, 0, 0, 0, 0⟩ ∧ State.reset.readReg 0x28#8 = 0#32 ∧
    State.reset.readReg 0x2C#8 = 0#32 ∧ State.reset.readReg 0x30#8 = 0#32 ∧ State.reset.res0 = 0#32 ∧
    State.reset.res1 = 0#32 ∧ State.reset.res2 = 0#32 ∧ State.reset.res3 = 0#32 ∧ State.reset.decision = 0#32 ∧
    State.reset.engine = .idle ∧ State.reset.irq = false ∧ ∀ (s : State) (level : Bool), (s.setRst level).mem = s.mem

/-- 70_reset_and_hazards.md R320, R321, R322: asserting `rst` gives every piece of block state its reset value and
abandons a running command, with memory as it is; while it is asserted writes have no effect and reads return 0;
releasing it leaves the reset values. -/
def Obligations.ResetClearsTheBlockAndKeepsMemory : Prop :=
  (∀ (s : State) (level : Bool) (rest : List Input), s.inputs = ⟨0, .rst level⟩ :: rest → level = true ∨ s.rst = true →
    step s = .next { State.reset with
      rst := level, mem := s.mem, held := s.held, busErrors := s.busErrors, inputs := rest, readData := s.readData,
      schedule := s.schedule, freeCount := s.freeCount }) ∧
  (∀ (s : State) (off : BitVec 8) (v : Word) (rest : List Input), s.rst = true → off.toNat % 4 = 0 →
    (s.inputs = ⟨0, .regRead off⟩ :: rest → step s = .next { s with inputs := rest, readData := 0#32 }) ∧
    (s.inputs = ⟨0, .regWrite off v⟩ :: rest → step s = .next { s with inputs := rest })) ∧
  (∀ (s : State) (i : Instr), s.rst = true → exec i s = .next s)

/-! ### Invariants -/

/-- The invariants hold at reset. -/
def Obligations.InvariantsHoldAtReset : Prop := State.reset.Legal

/-- Every step keeps BUSY = 1 → DONE = ERR = 0 and ERRCODE = NONE, and ERR = 0 ↔ ERRCODE = NONE (10_state.md R34). -/
def Obligations.StatusInvariantKept : Prop := ∀ s t : State, s.StatusLegal → step s = .next t → t.StatusLegal

/-- Every step keeps DECISION's form: bits 31:8 are 0 and PICK[q] = 1 implies EDGE[q] = 1 (10_state.md R45). -/
def Obligations.DecisionInvariantKept : Prop := ∀ s t : State, s.DecisionLegal → step s = .next t → t.DecisionLegal

/-- Every step keeps memory in its canonical form, inside the address space (20_memory.md R80; log 1). -/
def Obligations.MemoryInvariantKept : Prop := ∀ s t : State, s.mem.wf → step s = .next t → t.mem.wf

/-- Every step keeps the block at its reset values while `rst` is asserted (70_reset_and_hazards.md R320). -/
def Obligations.ResetInvariantKept : Prop := ∀ s t : State, s.ResetHeld → step s = .next t → t.ResetHeld

/-- Every step keeps the scan's invariant: `done_set` and the unfinished pixels make up [0, W) × [0, H), each pixel
once, its matrix being read or some of its own four destination cells left to write (10_state.md R57, 45_scan_driver.md
R253). -/
def Obligations.ScanInvariantKept : Prop := ∀ s t : State, s.ScanLegal → step s = .next t → t.ScanLegal

/-- Every step keeps that a running command has read only words that it may read, source words all of them, each as often
as it likes, and at most 21·W·H reads in all, those still left to it counted (20_memory.md R86, R88,
70_reset_and_hazards.md R341). -/
def Obligations.ReadInvariantKept : Prop :=
  (∀ s t : State, s.ReadsLegal → step s = .next t → t.ReadsLegal) ∧
  ∀ r : Running, r.ReadsLegal →
    (∀ p ∈ r.reads, r.snap.IsSource p.1) ∧ r.reads.length ≤ 21 * (r.snap.width.toNat * r.snap.height.toNat)

/-- Every step keeps that the matrix of a PIXEL or SAMPLE past its start checks has 21 cells, only in-bounds ones lacking
their word, and the zero pixel in those outside the image, and that SAMPLE makes at most one read
(41_neighborhood_sampler.md R161, R162, R166). -/
def Obligations.WindowInvariantKept : Prop := ∀ s t : State, s.WindowLegal → step s = .next t → t.WindowLegal
end

