-- ==== Sys2Proof/Laws/Memory.lean ====
section
/-! SUPPORT. Laws of memory: reads after writes, the canonical form, and bytes outside a written word. -/

namespace Sys2Proof.Machine

namespace Memory

/-- Every listed address of a strictly rising list lies above `k`. -/
def Above (k : Nat) (m : Memory) : Prop := ∀ c ∈ m, k < c.1

theorem readByte_above {m : Memory} {a k : Nat} (h : Above k m) (hm : m.Pairwise fun c d => c.1 < d.1)
    (ha : a ≤ k) : readByte m a = Config.unlistedByte := by
  cases m with
  | nil => rfl
  | cons c m =>
    have hc : k < c.1 := h c (by simp)
    simp only [readByte]
    rw [if_neg (by omega), if_pos (by omega)]

theorem above_tail {c : Host.Cell} {m : Memory} (hm : (c :: m).Pairwise fun c d => c.1 < d.1) :
    Above c.1 m := fun _ hd => (List.pairwise_cons.mp hm).1 _ hd

/-- A byte written reads back; every other byte keeps its value. -/
theorem readByte_writeByte {m : Memory} (hm : m.Pairwise fun c d => c.1 < d.1) (a : Nat) (v : Byte) (b : Nat) :
    readByte (writeByte m a v) b = if b = a then v else readByte m b := by
  induction m with
  | nil =>
    simp only [writeByte]
    split
    · next h => simp only [readByte, h]; split <;> rfl
    · simp only [readByte]; split
      · rfl
      · split <;> rfl
  | cons c m ih =>
    obtain ⟨k, w⟩ := c
    have htail := (List.pairwise_cons.mp hm).2
    have habove : Above k m := above_tail hm
    simp only [writeByte]
    by_cases h1 : a < k
    · rw [if_pos h1]
      by_cases hv : v = Config.unlistedByte
      · rw [if_pos hv]
        by_cases hb : b = a
        · subst hb; simp only [readByte]; rw [if_neg (by omega), if_pos h1, if_pos trivial, hv]
        · rw [if_neg hb]
      · rw [if_neg hv]
        simp only [readByte]
        by_cases hb : b = a
        · simp [hb]
        · rw [if_neg hb, if_neg hb]
          by_cases hba : b < a
          · rw [if_pos hba, if_neg (by omega), if_pos (by omega)]
          · rw [if_neg hba]
    · rw [if_neg h1]
      by_cases h2 : a = k
      · subst h2
        rw [if_pos rfl]
        by_cases hv : v = Config.unlistedByte
        · rw [if_pos hv]
          by_cases hb : b = a
          · subst hb; rw [if_pos rfl, hv]; exact readByte_above habove htail (Nat.le_refl _)
          · rw [if_neg hb]; simp only [readByte]; rw [if_neg hb]
            by_cases hba : b < a
            · rw [if_pos hba]; exact readByte_above habove htail (Nat.le_of_lt hba)
            · rw [if_neg hba]
        · rw [if_neg hv]; simp only [readByte]
          by_cases hb : b = a
          · simp [hb]
          · simp [hb]
      · rw [if_neg h2]; simp only [readByte]
        by_cases hb : b = k
        · subst hb; rw [if_pos rfl, if_neg (by omega), if_pos rfl]
        · rw [if_neg hb, if_neg hb]
          by_cases hbk : b < k
          · rw [if_pos hbk, if_neg (by omega), if_pos hbk]
          · rw [if_neg hbk, if_neg hbk]; exact ih htail

theorem mem_writeByte {m : Memory} {a : Nat} {v : Byte} {c : Host.Cell} (h : c ∈ writeByte m a v) :
    c ∈ m ∨ (c = (a, v) ∧ v ≠ Config.unlistedByte) := by
  induction m with
  | nil =>
    simp only [writeByte] at h
    split at h
    · simp at h
    · next hv => exact .inr ⟨by simpa using h, hv⟩
  | cons d m ih =>
    obtain ⟨k, w⟩ := d
    simp only [writeByte] at h
    split at h
    · split at h
      · exact .inl h
      · next hv =>
        rcases List.mem_cons.mp h with rfl | h
        · exact .inr ⟨rfl, hv⟩
        · exact .inl h
    · split at h
      · next hk =>
        split at h
        · exact .inl (List.mem_cons_of_mem _ h)
        · next hv =>
          rcases List.mem_cons.mp h with rfl | h
          · exact .inr ⟨by rw [hk], hv⟩
          · exact .inl (List.mem_cons_of_mem _ h)
      · rcases List.mem_cons.mp h with rfl | h
        · exact .inl (by simp)
        · rcases ih h with h | h
          · exact .inl (List.mem_cons_of_mem _ h)
          · exact .inr h

theorem pairwise_writeByte {m : Memory} (hm : m.Pairwise fun c d => c.1 < d.1) (a : Nat) (v : Byte) :
    (writeByte m a v).Pairwise fun c d => c.1 < d.1 := by
  induction m with
  | nil => simp only [writeByte]; split <;> simp
  | cons d m ih =>
    obtain ⟨k, w⟩ := d
    have htail := (List.pairwise_cons.mp hm).2
    have habove : Above k m := above_tail hm
    simp only [writeByte]
    split
    · next h1 =>
      split
      · exact hm
      · refine List.pairwise_cons.mpr ⟨fun c hc => ?_, hm⟩
        rcases List.mem_cons.mp hc with rfl | hc
        · exact h1
        · exact Nat.lt_trans h1 (habove c hc)
    · next h1 =>
      split
      · split
        · exact htail
        · exact List.pairwise_cons.mpr ⟨habove, htail⟩
      · next h2 =>
        refine List.pairwise_cons.mpr ⟨fun c hc => ?_, ih htail⟩
        rcases mem_writeByte hc with hc | ⟨rfl, -⟩
        · exact habove c hc
        · show k < a
          omega

/-- A byte store keeps the canonical form. -/
theorem wf_writeByte {m : Memory} (hm : m.wf) {a : Nat} (ha : a < 2 ^ 32) (v : Byte) : (writeByte m a v).wf :=
  ⟨pairwise_writeByte hm.1 a v, fun c hc => by
    rcases mem_writeByte hc with hc | ⟨rfl, hv⟩
    · exact hm.2 c hc
    · exact ⟨ha, hv⟩⟩

theorem pairwise_writeWord {m : Memory} (hm : m.Pairwise fun c d => c.1 < d.1) (a : Nat) (v : Word) :
    (writeWord m a v).Pairwise fun c d => c.1 < d.1 :=
  pairwise_writeByte (pairwise_writeByte (pairwise_writeByte (pairwise_writeByte hm _ _) _ _) _ _) _ _

/-- A word store keeps the canonical form. -/
theorem wf_writeWord {m : Memory} (hm : m.wf) {a : Nat} (ha : a + 3 < 2 ^ 32) (v : Word) : (writeWord m a v).wf :=
  wf_writeByte (wf_writeByte (wf_writeByte (wf_writeByte hm (by omega) _) (by omega) _) (by omega) _) ha _

/-- A byte outside a stored word keeps its value. -/
theorem readByte_writeWord_of_ne {m : Memory} (hm : m.Pairwise fun c d => c.1 < d.1) {a b : Nat} (v : Word)
    (h : b < a ∨ a + 4 ≤ b) : readByte (writeWord m a v) b = readByte m b := by
  have h1 := pairwise_writeByte hm a (v.extractLsb' 0 8)
  have h2 := pairwise_writeByte h1 (a + 1) (v.extractLsb' 8 8)
  have h3 := pairwise_writeByte h2 (a + 2) (v.extractLsb' 16 8)
  unfold writeWord
  rw [readByte_writeByte h3, if_neg (by omega), readByte_writeByte h2, if_neg (by omega), readByte_writeByte h1,
    if_neg (by omega), readByte_writeByte hm, if_neg (by omega)]

theorem word_of_bytes (v : Word) :
    v.extractLsb' 24 8 ++ v.extractLsb' 16 8 ++ v.extractLsb' 8 8 ++ v.extractLsb' 0 8 = v := by
  ext i hi
  simp only [BitVec.getElem_append, BitVec.getElem_extractLsb']
  split
  · simp [BitVec.getLsbD_eq_getElem hi]
  · split
    · next h1 h2 => simp [show 8 + (i - 8) = i by omega, BitVec.getLsbD_eq_getElem hi]
    · split
      · next h1 h2 h3 => simp [show 16 + (i - 8 - 8) = i by omega, BitVec.getLsbD_eq_getElem hi]
      · next h1 h2 h3 => simp [show 24 + (i - 8 - 8 - 8) = i by omega, BitVec.getLsbD_eq_getElem hi]

/-- A word written reads back. -/
theorem readWord_writeWord {m : Memory} (hm : m.Pairwise fun c d => c.1 < d.1) (a : Nat) (v : Word) :
    readWord (writeWord m a v) a = v := by
  have h1 := pairwise_writeByte hm a (v.extractLsb' 0 8)
  have h2 := pairwise_writeByte h1 (a + 1) (v.extractLsb' 8 8)
  have h3 := pairwise_writeByte h2 (a + 2) (v.extractLsb' 16 8)
  have r0 : readByte (writeWord m a v) a = v.extractLsb' 0 8 := by
    unfold writeWord
    rw [readByte_writeByte h3, if_neg (by omega), readByte_writeByte h2, if_neg (by omega), readByte_writeByte h1,
      if_neg (by omega), readByte_writeByte hm, if_pos rfl]
  have r1 : readByte (writeWord m a v) (a + 1) = v.extractLsb' 8 8 := by
    unfold writeWord
    rw [readByte_writeByte h3, if_neg (by omega), readByte_writeByte h2, if_neg (by omega), readByte_writeByte h1,
      if_pos rfl]
  have r2 : readByte (writeWord m a v) (a + 2) = v.extractLsb' 16 8 := by
    unfold writeWord
    rw [readByte_writeByte h3, if_neg (by omega), readByte_writeByte h2, if_pos rfl]
  have r3 : readByte (writeWord m a v) (a + 3) = v.extractLsb' 24 8 := by
    unfold writeWord
    rw [readByte_writeByte h3, if_pos rfl]
  unfold readWord
  rw [r0, r1, r2, r3]
  exact word_of_bytes v

/-- A word apart from a stored word keeps its value. -/
theorem readWord_writeWord_of_ne {m : Memory} (hm : m.Pairwise fun c d => c.1 < d.1) {a b : Nat} (v : Word)
    (h : b + 4 ≤ a ∨ a + 4 ≤ b) : readWord (writeWord m a v) b = readWord m b := by
  unfold readWord
  rw [readByte_writeWord_of_ne hm v (by omega), readByte_writeWord_of_ne hm v (by omega),
    readByte_writeWord_of_ne hm v (by omega), readByte_writeWord_of_ne hm v (by omega)]

theorem wf_freeWords {m : Memory} (hm : m.wf) {base c n : Nat} (h : base + 4 * n ≤ 2 ^ 32) :
    (freeWords m base c n).wf := by
  induction n with
  | zero => exact hm
  | succ n ih => exact wf_writeWord (ih (by omega)) (by omega) _

theorem pairwise_freeWords {m : Memory} (hm : m.Pairwise fun c d => c.1 < d.1) (base c n : Nat) :
    (freeWords m base c n).Pairwise fun c d => c.1 < d.1 := by
  induction n with
  | zero => exact hm
  | succ n ih => exact pairwise_writeWord ih _ _

/-- Bytes outside the run of free words keep their value. -/
theorem readByte_freeWords_of_ne {m : Memory} (hm : m.Pairwise fun c d => c.1 < d.1) {base c n b : Nat}
    (h : b < base ∨ base + 4 * n ≤ b) : readByte (freeWords m base c n) b = readByte m b := by
  induction n with
  | zero => rfl
  | succ n ih =>
    simp only [freeWords]
    rw [readByte_writeWord_of_ne (pairwise_freeWords hm _ _ _) _ (by omega), ih (by omega)]

/-- Each word of a run of free words. -/
theorem readWord_freeWords {m : Memory} (hm : m.Pairwise fun c d => c.1 < d.1) (base c n i : Nat) (hi : i < n) :
    readWord (freeWords m base c n) (base + 4 * i) = Config.freeWord (c + i) := by
  induction n with
  | zero => omega
  | succ n ih =>
    have hp := pairwise_freeWords hm base c n
    by_cases h : i = n
    · subst h; exact readWord_writeWord hp _ _
    · rw [← ih (by omega)]
      exact readWord_writeWord_of_ne hp _ (by omega)

/-- Equal reads make equal memories: the canonical form is one list per content. -/
theorem ext_of_readByte {m n : Memory} (hm : m.wf) (hn : n.wf) (h : ∀ a, readByte m a = readByte n a) : m = n := by
  induction m generalizing n with
  | nil =>
    cases n with
    | nil => rfl
    | cons d n =>
      have := h d.1
      simp only [readByte, if_pos] at this
      exact absurd this.symm (hn.2 d (by simp)).2
  | cons c m ih =>
    cases n with
    | nil =>
      have := h c.1
      simp only [readByte, if_pos] at this
      exact absurd this (hm.2 c (by simp)).2
    | cons d n =>
      have hkey : c.1 = d.1 := by
        rcases Nat.lt_trichotomy c.1 d.1 with hlt | heq | hgt
        · have := h c.1
          simp only [readByte, if_pos] at this
          rw [if_neg (by omega), if_pos hlt] at this
          exact absurd this (hm.2 c (by simp)).2
        · exact heq
        · have := h d.1
          simp only [readByte, if_pos] at this
          rw [if_neg (by omega), if_pos hgt] at this
          exact absurd this.symm (hn.2 d (by simp)).2
      have hval : c.2 = d.2 := by
        have := h c.1
        simpa only [readByte, if_pos, hkey] using this
      have hcd : c = d := Prod.ext hkey hval
      subst hcd
      have hm' : Memory.wf m := ⟨(List.pairwise_cons.mp hm.1).2, fun x hx => hm.2 x (List.mem_cons_of_mem _ hx)⟩
      have hn' : Memory.wf n := ⟨(List.pairwise_cons.mp hn.1).2, fun x hx => hn.2 x (List.mem_cons_of_mem _ hx)⟩
      rw [ih hm' hn' fun a => ?_]
      rcases Nat.lt_or_ge c.1 a with hlt | hge
      · have := h a
        simp only [readByte] at this
        rwa [if_neg (by omega), if_neg (by omega), if_neg (by omega), if_neg (by omega)] at this
      · rw [readByte_above (above_tail hm.1) hm'.1 hge, readByte_above (above_tail hn.1) hn'.1 hge]

end Memory

end Sys2Proof.Machine
end

