-- ==== Sys2Proof/Laws/State.lean ====
section
/-! SUPPORT. One lemma per field per shared update of State: what the update writes there, or that it leaves it alone. -/

namespace Sys2Proof.Machine

/-! ### tick -/

@[simp] theorem State.tick_irqEn (s : State) : s.tick.irqEn = s.irqEn := rfl
@[simp] theorem State.tick_done (s : State) : s.tick.done = s.done := rfl
@[simp] theorem State.tick_err (s : State) : s.tick.err = s.err := rfl
@[simp] theorem State.tick_ovr (s : State) : s.tick.ovr = s.ovr := rfl
@[simp] theorem State.tick_errCode (s : State) : s.tick.errCode = s.errCode := rfl
@[simp] theorem State.tick_width (s : State) : s.tick.width = s.width := rfl
@[simp] theorem State.tick_height (s : State) : s.tick.height = s.height := rfl
@[simp] theorem State.tick_srcBase (s : State) : s.tick.srcBase = s.srcBase := rfl
@[simp] theorem State.tick_srcLen (s : State) : s.tick.srcLen = s.srcLen := rfl
@[simp] theorem State.tick_dstBase (s : State) : s.tick.dstBase = s.dstBase := rfl
@[simp] theorem State.tick_dstLen (s : State) : s.tick.dstLen = s.dstLen := rfl
@[simp] theorem State.tick_opx (s : State) : s.tick.opx = s.opx := rfl
@[simp] theorem State.tick_opy (s : State) : s.tick.opy = s.opy := rfl
@[simp] theorem State.tick_opk (s : State) : s.tick.opk = s.opk := rfl
@[simp] theorem State.tick_opa (s : State) : s.tick.opa = s.opa := rfl
@[simp] theorem State.tick_opb (s : State) : s.tick.opb = s.opb := rfl
@[simp] theorem State.tick_res0 (s : State) : s.tick.res0 = s.res0 := rfl
@[simp] theorem State.tick_res1 (s : State) : s.tick.res1 = s.res1 := rfl
@[simp] theorem State.tick_res2 (s : State) : s.tick.res2 = s.res2 := rfl
@[simp] theorem State.tick_res3 (s : State) : s.tick.res3 = s.res3 := rfl
@[simp] theorem State.tick_decision (s : State) : s.tick.decision = s.decision := rfl
@[simp] theorem State.tick_engine (s : State) : s.tick.engine = s.engine := rfl
@[simp] theorem State.tick_rst (s : State) : s.tick.rst = s.rst := rfl
@[simp] theorem State.tick_mem (s : State) : s.tick.mem = s.mem := rfl
@[simp] theorem State.tick_held (s : State) : s.tick.held = s.held := rfl
@[simp] theorem State.tick_busErrors (s : State) : s.tick.busErrors = s.busErrors := rfl
@[simp] theorem State.tick_inputs (s : State) : s.tick.inputs = elapse 1 s.inputs := rfl
@[simp] theorem State.tick_readData (s : State) : s.tick.readData = s.readData := rfl
@[simp] theorem State.tick_schedule (s : State) : s.tick.schedule = s.schedule := rfl
@[simp] theorem State.tick_freeCount (s : State) : s.tick.freeCount = s.freeCount := rfl

/-! ### overrun -/

@[simp] theorem State.overrun_irqEn (s : State) : s.overrun.irqEn = s.irqEn := rfl
@[simp] theorem State.overrun_done (s : State) : s.overrun.done = s.done := rfl
@[simp] theorem State.overrun_err (s : State) : s.overrun.err = s.err := rfl
@[simp] theorem State.overrun_ovr (s : State) : s.overrun.ovr = true := rfl
@[simp] theorem State.overrun_errCode (s : State) : s.overrun.errCode = s.errCode := rfl
@[simp] theorem State.overrun_width (s : State) : s.overrun.width = s.width := rfl
@[simp] theorem State.overrun_height (s : State) : s.overrun.height = s.height := rfl
@[simp] theorem State.overrun_srcBase (s : State) : s.overrun.srcBase = s.srcBase := rfl
@[simp] theorem State.overrun_srcLen (s : State) : s.overrun.srcLen = s.srcLen := rfl
@[simp] theorem State.overrun_dstBase (s : State) : s.overrun.dstBase = s.dstBase := rfl
@[simp] theorem State.overrun_dstLen (s : State) : s.overrun.dstLen = s.dstLen := rfl
@[simp] theorem State.overrun_opx (s : State) : s.overrun.opx = s.opx := rfl
@[simp] theorem State.overrun_opy (s : State) : s.overrun.opy = s.opy := rfl
@[simp] theorem State.overrun_opk (s : State) : s.overrun.opk = s.opk := rfl
@[simp] theorem State.overrun_opa (s : State) : s.overrun.opa = s.opa := rfl
@[simp] theorem State.overrun_opb (s : State) : s.overrun.opb = s.opb := rfl
@[simp] theorem State.overrun_res0 (s : State) : s.overrun.res0 = s.res0 := rfl
@[simp] theorem State.overrun_res1 (s : State) : s.overrun.res1 = s.res1 := rfl
@[simp] theorem State.overrun_res2 (s : State) : s.overrun.res2 = s.res2 := rfl
@[simp] theorem State.overrun_res3 (s : State) : s.overrun.res3 = s.res3 := rfl
@[simp] theorem State.overrun_decision (s : State) : s.overrun.decision = s.decision := rfl
@[simp] theorem State.overrun_engine (s : State) : s.overrun.engine = s.engine := rfl
@[simp] theorem State.overrun_rst (s : State) : s.overrun.rst = s.rst := rfl
@[simp] theorem State.overrun_mem (s : State) : s.overrun.mem = s.mem := rfl
@[simp] theorem State.overrun_held (s : State) : s.overrun.held = s.held := rfl
@[simp] theorem State.overrun_busErrors (s : State) : s.overrun.busErrors = s.busErrors := rfl
@[simp] theorem State.overrun_inputs (s : State) : s.overrun.inputs = s.inputs := rfl
@[simp] theorem State.overrun_readData (s : State) : s.overrun.readData = s.readData := rfl
@[simp] theorem State.overrun_schedule (s : State) : s.overrun.schedule = s.schedule := rfl
@[simp] theorem State.overrun_freeCount (s : State) : s.overrun.freeCount = s.freeCount := rfl

/-! ### complete -/

@[simp] theorem State.complete_irqEn (s : State) : s.complete.irqEn = s.irqEn := rfl
@[simp] theorem State.complete_done (s : State) : s.complete.done = true := rfl
@[simp] theorem State.complete_err (s : State) : s.complete.err = s.err := rfl
@[simp] theorem State.complete_ovr (s : State) : s.complete.ovr = s.ovr := rfl
@[simp] theorem State.complete_errCode (s : State) : s.complete.errCode = s.errCode := rfl
@[simp] theorem State.complete_width (s : State) : s.complete.width = s.width := rfl
@[simp] theorem State.complete_height (s : State) : s.complete.height = s.height := rfl
@[simp] theorem State.complete_srcBase (s : State) : s.complete.srcBase = s.srcBase := rfl
@[simp] theorem State.complete_srcLen (s : State) : s.complete.srcLen = s.srcLen := rfl
@[simp] theorem State.complete_dstBase (s : State) : s.complete.dstBase = s.dstBase := rfl
@[simp] theorem State.complete_dstLen (s : State) : s.complete.dstLen = s.dstLen := rfl
@[simp] theorem State.complete_opx (s : State) : s.complete.opx = s.opx := rfl
@[simp] theorem State.complete_opy (s : State) : s.complete.opy = s.opy := rfl
@[simp] theorem State.complete_opk (s : State) : s.complete.opk = s.opk := rfl
@[simp] theorem State.complete_opa (s : State) : s.complete.opa = s.opa := rfl
@[simp] theorem State.complete_opb (s : State) : s.complete.opb = s.opb := rfl
@[simp] theorem State.complete_res0 (s : State) : s.complete.res0 = s.res0 := rfl
@[simp] theorem State.complete_res1 (s : State) : s.complete.res1 = s.res1 := rfl
@[simp] theorem State.complete_res2 (s : State) : s.complete.res2 = s.res2 := rfl
@[simp] theorem State.complete_res3 (s : State) : s.complete.res3 = s.res3 := rfl
@[simp] theorem State.complete_decision (s : State) : s.complete.decision = s.decision := rfl
@[simp] theorem State.complete_engine (s : State) : s.complete.engine = .idle := rfl
@[simp] theorem State.complete_rst (s : State) : s.complete.rst = s.rst := rfl
@[simp] theorem State.complete_mem (s : State) : s.complete.mem = s.mem := rfl
@[simp] theorem State.complete_held (s : State) : s.complete.held = s.held := rfl
@[simp] theorem State.complete_busErrors (s : State) : s.complete.busErrors = s.busErrors := rfl
@[simp] theorem State.complete_inputs (s : State) : s.complete.inputs = s.inputs := rfl
@[simp] theorem State.complete_readData (s : State) : s.complete.readData = s.readData := rfl
@[simp] theorem State.complete_schedule (s : State) : s.complete.schedule = s.schedule := rfl
@[simp] theorem State.complete_freeCount (s : State) : s.complete.freeCount = s.freeCount := rfl

/-! ### raise -/

@[simp] theorem State.raise_irqEn (s : State) (c : ErrCode) : (s.raise c).irqEn = s.irqEn := rfl
@[simp] theorem State.raise_done (s : State) (c : ErrCode) : (s.raise c).done = true := rfl
@[simp] theorem State.raise_err (s : State) (c : ErrCode) : (s.raise c).err = true := rfl
@[simp] theorem State.raise_ovr (s : State) (c : ErrCode) : (s.raise c).ovr = s.ovr := rfl
@[simp] theorem State.raise_errCode (s : State) (c : ErrCode) : (s.raise c).errCode = c := rfl
@[simp] theorem State.raise_width (s : State) (c : ErrCode) : (s.raise c).width = s.width := rfl
@[simp] theorem State.raise_height (s : State) (c : ErrCode) : (s.raise c).height = s.height := rfl
@[simp] theorem State.raise_srcBase (s : State) (c : ErrCode) : (s.raise c).srcBase = s.srcBase := rfl
@[simp] theorem State.raise_srcLen (s : State) (c : ErrCode) : (s.raise c).srcLen = s.srcLen := rfl
@[simp] theorem State.raise_dstBase (s : State) (c : ErrCode) : (s.raise c).dstBase = s.dstBase := rfl
@[simp] theorem State.raise_dstLen (s : State) (c : ErrCode) : (s.raise c).dstLen = s.dstLen := rfl
@[simp] theorem State.raise_opx (s : State) (c : ErrCode) : (s.raise c).opx = s.opx := rfl
@[simp] theorem State.raise_opy (s : State) (c : ErrCode) : (s.raise c).opy = s.opy := rfl
@[simp] theorem State.raise_opk (s : State) (c : ErrCode) : (s.raise c).opk = s.opk := rfl
@[simp] theorem State.raise_opa (s : State) (c : ErrCode) : (s.raise c).opa = s.opa := rfl
@[simp] theorem State.raise_opb (s : State) (c : ErrCode) : (s.raise c).opb = s.opb := rfl
@[simp] theorem State.raise_res0 (s : State) (c : ErrCode) : (s.raise c).res0 = s.res0 := rfl
@[simp] theorem State.raise_res1 (s : State) (c : ErrCode) : (s.raise c).res1 = s.res1 := rfl
@[simp] theorem State.raise_res2 (s : State) (c : ErrCode) : (s.raise c).res2 = s.res2 := rfl
@[simp] theorem State.raise_res3 (s : State) (c : ErrCode) : (s.raise c).res3 = s.res3 := rfl
@[simp] theorem State.raise_decision (s : State) (c : ErrCode) : (s.raise c).decision = s.decision := rfl
@[simp] theorem State.raise_engine (s : State) (c : ErrCode) : (s.raise c).engine = .idle := rfl
@[simp] theorem State.raise_rst (s : State) (c : ErrCode) : (s.raise c).rst = s.rst := rfl
@[simp] theorem State.raise_mem (s : State) (c : ErrCode) : (s.raise c).mem = s.mem := rfl
@[simp] theorem State.raise_held (s : State) (c : ErrCode) : (s.raise c).held = s.held := rfl
@[simp] theorem State.raise_busErrors (s : State) (c : ErrCode) : (s.raise c).busErrors = s.busErrors := rfl
@[simp] theorem State.raise_inputs (s : State) (c : ErrCode) : (s.raise c).inputs = s.inputs := rfl
@[simp] theorem State.raise_readData (s : State) (c : ErrCode) : (s.raise c).readData = s.readData := rfl
@[simp] theorem State.raise_schedule (s : State) (c : ErrCode) : (s.raise c).schedule = s.schedule := rfl
@[simp] theorem State.raise_freeCount (s : State) (c : ErrCode) : (s.raise c).freeCount = s.freeCount := rfl

/-! ### progress -/

@[simp] theorem State.progress_irqEn (s : State) (r : Running) : (s.progress r).irqEn = s.irqEn := rfl
@[simp] theorem State.progress_done (s : State) (r : Running) : (s.progress r).done = s.done := rfl
@[simp] theorem State.progress_err (s : State) (r : Running) : (s.progress r).err = s.err := rfl
@[simp] theorem State.progress_ovr (s : State) (r : Running) : (s.progress r).ovr = s.ovr := rfl
@[simp] theorem State.progress_errCode (s : State) (r : Running) : (s.progress r).errCode = s.errCode := rfl
@[simp] theorem State.progress_width (s : State) (r : Running) : (s.progress r).width = s.width := rfl
@[simp] theorem State.progress_height (s : State) (r : Running) : (s.progress r).height = s.height := rfl
@[simp] theorem State.progress_srcBase (s : State) (r : Running) : (s.progress r).srcBase = s.srcBase := rfl
@[simp] theorem State.progress_srcLen (s : State) (r : Running) : (s.progress r).srcLen = s.srcLen := rfl
@[simp] theorem State.progress_dstBase (s : State) (r : Running) : (s.progress r).dstBase = s.dstBase := rfl
@[simp] theorem State.progress_dstLen (s : State) (r : Running) : (s.progress r).dstLen = s.dstLen := rfl
@[simp] theorem State.progress_opx (s : State) (r : Running) : (s.progress r).opx = s.opx := rfl
@[simp] theorem State.progress_opy (s : State) (r : Running) : (s.progress r).opy = s.opy := rfl
@[simp] theorem State.progress_opk (s : State) (r : Running) : (s.progress r).opk = s.opk := rfl
@[simp] theorem State.progress_opa (s : State) (r : Running) : (s.progress r).opa = s.opa := rfl
@[simp] theorem State.progress_opb (s : State) (r : Running) : (s.progress r).opb = s.opb := rfl
@[simp] theorem State.progress_res0 (s : State) (r : Running) : (s.progress r).res0 = s.res0 := rfl
@[simp] theorem State.progress_res1 (s : State) (r : Running) : (s.progress r).res1 = s.res1 := rfl
@[simp] theorem State.progress_res2 (s : State) (r : Running) : (s.progress r).res2 = s.res2 := rfl
@[simp] theorem State.progress_res3 (s : State) (r : Running) : (s.progress r).res3 = s.res3 := rfl
@[simp] theorem State.progress_decision (s : State) (r : Running) : (s.progress r).decision = s.decision := rfl
@[simp] theorem State.progress_engine (s : State) (r : Running) : (s.progress r).engine = .running r := rfl
@[simp] theorem State.progress_rst (s : State) (r : Running) : (s.progress r).rst = s.rst := rfl
@[simp] theorem State.progress_mem (s : State) (r : Running) : (s.progress r).mem = s.mem := rfl
@[simp] theorem State.progress_held (s : State) (r : Running) : (s.progress r).held = s.held := rfl
@[simp] theorem State.progress_busErrors (s : State) (r : Running) : (s.progress r).busErrors = s.busErrors := rfl
@[simp] theorem State.progress_inputs (s : State) (r : Running) : (s.progress r).inputs = s.inputs := rfl
@[simp] theorem State.progress_readData (s : State) (r : Running) : (s.progress r).readData = s.readData := rfl
@[simp] theorem State.progress_schedule (s : State) (r : Running) : (s.progress r).schedule = s.schedule := rfl
@[simp] theorem State.progress_freeCount (s : State) (r : Running) : (s.progress r).freeCount = s.freeCount := rfl

/-! ### accept -/

@[simp] theorem State.accept_irqEn (s : State) (w : Word) : (s.accept w).irqEn = s.irqEn := rfl
@[simp] theorem State.accept_done (s : State) (w : Word) : (s.accept w).done = false := rfl
@[simp] theorem State.accept_err (s : State) (w : Word) : (s.accept w).err = false := rfl
@[simp] theorem State.accept_ovr (s : State) (w : Word) : (s.accept w).ovr = s.ovr := rfl
@[simp] theorem State.accept_errCode (s : State) (w : Word) : (s.accept w).errCode = .none := rfl
@[simp] theorem State.accept_width (s : State) (w : Word) : (s.accept w).width = s.width := rfl
@[simp] theorem State.accept_height (s : State) (w : Word) : (s.accept w).height = s.height := rfl
@[simp] theorem State.accept_srcBase (s : State) (w : Word) : (s.accept w).srcBase = s.srcBase := rfl
@[simp] theorem State.accept_srcLen (s : State) (w : Word) : (s.accept w).srcLen = s.srcLen := rfl
@[simp] theorem State.accept_dstBase (s : State) (w : Word) : (s.accept w).dstBase = s.dstBase := rfl
@[simp] theorem State.accept_dstLen (s : State) (w : Word) : (s.accept w).dstLen = s.dstLen := rfl
@[simp] theorem State.accept_opx (s : State) (w : Word) : (s.accept w).opx = s.opx := rfl
@[simp] theorem State.accept_opy (s : State) (w : Word) : (s.accept w).opy = s.opy := rfl
@[simp] theorem State.accept_opk (s : State) (w : Word) : (s.accept w).opk = s.opk := rfl
@[simp] theorem State.accept_opa (s : State) (w : Word) : (s.accept w).opa = s.opa := rfl
@[simp] theorem State.accept_opb (s : State) (w : Word) : (s.accept w).opb = s.opb := rfl
@[simp] theorem State.accept_res0 (s : State) (w : Word) : (s.accept w).res0 = s.res0 := rfl
@[simp] theorem State.accept_res1 (s : State) (w : Word) : (s.accept w).res1 = s.res1 := rfl
@[simp] theorem State.accept_res2 (s : State) (w : Word) : (s.accept w).res2 = s.res2 := rfl
@[simp] theorem State.accept_res3 (s : State) (w : Word) : (s.accept w).res3 = s.res3 := rfl
@[simp] theorem State.accept_decision (s : State) (w : Word) : (s.accept w).decision = s.decision := rfl
@[simp] theorem State.accept_engine (s : State) (w : Word) : (s.accept w).engine = .running ⟨w, s.latch, false, ⟨[], []⟩, [], 0, [], [], false⟩ := rfl
@[simp] theorem State.accept_rst (s : State) (w : Word) : (s.accept w).rst = s.rst := rfl
@[simp] theorem State.accept_mem (s : State) (w : Word) : (s.accept w).mem = s.mem := rfl
@[simp] theorem State.accept_held (s : State) (w : Word) : (s.accept w).held = s.held := rfl
@[simp] theorem State.accept_busErrors (s : State) (w : Word) : (s.accept w).busErrors = s.busErrors := rfl
@[simp] theorem State.accept_inputs (s : State) (w : Word) : (s.accept w).inputs = s.inputs := rfl
@[simp] theorem State.accept_readData (s : State) (w : Word) : (s.accept w).readData = s.readData := rfl
@[simp] theorem State.accept_schedule (s : State) (w : Word) : (s.accept w).schedule = s.schedule := rfl
@[simp] theorem State.accept_freeCount (s : State) (w : Word) : (s.accept w).freeCount = s.freeCount := rfl

/-! ### useFree -/

@[simp] theorem State.useFree_irqEn (s : State) (n : Nat) : (s.useFree n).irqEn = s.irqEn := rfl
@[simp] theorem State.useFree_done (s : State) (n : Nat) : (s.useFree n).done = s.done := rfl
@[simp] theorem State.useFree_err (s : State) (n : Nat) : (s.useFree n).err = s.err := rfl
@[simp] theorem State.useFree_ovr (s : State) (n : Nat) : (s.useFree n).ovr = s.ovr := rfl
@[simp] theorem State.useFree_errCode (s : State) (n : Nat) : (s.useFree n).errCode = s.errCode := rfl
@[simp] theorem State.useFree_width (s : State) (n : Nat) : (s.useFree n).width = s.width := rfl
@[simp] theorem State.useFree_height (s : State) (n : Nat) : (s.useFree n).height = s.height := rfl
@[simp] theorem State.useFree_srcBase (s : State) (n : Nat) : (s.useFree n).srcBase = s.srcBase := rfl
@[simp] theorem State.useFree_srcLen (s : State) (n : Nat) : (s.useFree n).srcLen = s.srcLen := rfl
@[simp] theorem State.useFree_dstBase (s : State) (n : Nat) : (s.useFree n).dstBase = s.dstBase := rfl
@[simp] theorem State.useFree_dstLen (s : State) (n : Nat) : (s.useFree n).dstLen = s.dstLen := rfl
@[simp] theorem State.useFree_opx (s : State) (n : Nat) : (s.useFree n).opx = s.opx := rfl
@[simp] theorem State.useFree_opy (s : State) (n : Nat) : (s.useFree n).opy = s.opy := rfl
@[simp] theorem State.useFree_opk (s : State) (n : Nat) : (s.useFree n).opk = s.opk := rfl
@[simp] theorem State.useFree_opa (s : State) (n : Nat) : (s.useFree n).opa = s.opa := rfl
@[simp] theorem State.useFree_opb (s : State) (n : Nat) : (s.useFree n).opb = s.opb := rfl
@[simp] theorem State.useFree_res0 (s : State) (n : Nat) : (s.useFree n).res0 = s.res0 := rfl
@[simp] theorem State.useFree_res1 (s : State) (n : Nat) : (s.useFree n).res1 = s.res1 := rfl
@[simp] theorem State.useFree_res2 (s : State) (n : Nat) : (s.useFree n).res2 = s.res2 := rfl
@[simp] theorem State.useFree_res3 (s : State) (n : Nat) : (s.useFree n).res3 = s.res3 := rfl
@[simp] theorem State.useFree_decision (s : State) (n : Nat) : (s.useFree n).decision = s.decision := rfl
@[simp] theorem State.useFree_engine (s : State) (n : Nat) : (s.useFree n).engine = s.engine := rfl
@[simp] theorem State.useFree_rst (s : State) (n : Nat) : (s.useFree n).rst = s.rst := rfl
@[simp] theorem State.useFree_mem (s : State) (n : Nat) : (s.useFree n).mem = s.mem := rfl
@[simp] theorem State.useFree_held (s : State) (n : Nat) : (s.useFree n).held = s.held := rfl
@[simp] theorem State.useFree_busErrors (s : State) (n : Nat) : (s.useFree n).busErrors = s.busErrors := rfl
@[simp] theorem State.useFree_inputs (s : State) (n : Nat) : (s.useFree n).inputs = s.inputs := rfl
@[simp] theorem State.useFree_readData (s : State) (n : Nat) : (s.useFree n).readData = s.readData := rfl
@[simp] theorem State.useFree_schedule (s : State) (n : Nat) : (s.useFree n).schedule = s.schedule := rfl
@[simp] theorem State.useFree_freeCount (s : State) (n : Nat) : (s.useFree n).freeCount = s.freeCount + n := rfl

/-! ### useChoice -/

@[simp] theorem State.useChoice_irqEn (s : State) : s.useChoice.irqEn = s.irqEn := rfl
@[simp] theorem State.useChoice_done (s : State) : s.useChoice.done = s.done := rfl
@[simp] theorem State.useChoice_err (s : State) : s.useChoice.err = s.err := rfl
@[simp] theorem State.useChoice_ovr (s : State) : s.useChoice.ovr = s.ovr := rfl
@[simp] theorem State.useChoice_errCode (s : State) : s.useChoice.errCode = s.errCode := rfl
@[simp] theorem State.useChoice_width (s : State) : s.useChoice.width = s.width := rfl
@[simp] theorem State.useChoice_height (s : State) : s.useChoice.height = s.height := rfl
@[simp] theorem State.useChoice_srcBase (s : State) : s.useChoice.srcBase = s.srcBase := rfl
@[simp] theorem State.useChoice_srcLen (s : State) : s.useChoice.srcLen = s.srcLen := rfl
@[simp] theorem State.useChoice_dstBase (s : State) : s.useChoice.dstBase = s.dstBase := rfl
@[simp] theorem State.useChoice_dstLen (s : State) : s.useChoice.dstLen = s.dstLen := rfl
@[simp] theorem State.useChoice_opx (s : State) : s.useChoice.opx = s.opx := rfl
@[simp] theorem State.useChoice_opy (s : State) : s.useChoice.opy = s.opy := rfl
@[simp] theorem State.useChoice_opk (s : State) : s.useChoice.opk = s.opk := rfl
@[simp] theorem State.useChoice_opa (s : State) : s.useChoice.opa = s.opa := rfl
@[simp] theorem State.useChoice_opb (s : State) : s.useChoice.opb = s.opb := rfl
@[simp] theorem State.useChoice_res0 (s : State) : s.useChoice.res0 = s.res0 := rfl
@[simp] theorem State.useChoice_res1 (s : State) : s.useChoice.res1 = s.res1 := rfl
@[simp] theorem State.useChoice_res2 (s : State) : s.useChoice.res2 = s.res2 := rfl
@[simp] theorem State.useChoice_res3 (s : State) : s.useChoice.res3 = s.res3 := rfl
@[simp] theorem State.useChoice_decision (s : State) : s.useChoice.decision = s.decision := rfl
@[simp] theorem State.useChoice_engine (s : State) : s.useChoice.engine = s.engine := rfl
@[simp] theorem State.useChoice_rst (s : State) : s.useChoice.rst = s.rst := rfl
@[simp] theorem State.useChoice_mem (s : State) : s.useChoice.mem = s.mem := rfl
@[simp] theorem State.useChoice_held (s : State) : s.useChoice.held = s.held := rfl
@[simp] theorem State.useChoice_busErrors (s : State) : s.useChoice.busErrors = s.busErrors := rfl
@[simp] theorem State.useChoice_inputs (s : State) : s.useChoice.inputs = s.inputs := rfl
@[simp] theorem State.useChoice_readData (s : State) : s.useChoice.readData = s.readData := rfl
@[simp] theorem State.useChoice_schedule (s : State) : s.useChoice.schedule = s.schedule.tail := rfl
@[simp] theorem State.useChoice_freeCount (s : State) : s.useChoice.freeCount = s.freeCount := rfl

/-! ### storeByte -/

@[simp] theorem State.storeByte_irqEn (s : State) (a : Nat) (v : Byte) : (s.storeByte a v).irqEn = s.irqEn := rfl
@[simp] theorem State.storeByte_done (s : State) (a : Nat) (v : Byte) : (s.storeByte a v).done = s.done := rfl
@[simp] theorem State.storeByte_err (s : State) (a : Nat) (v : Byte) : (s.storeByte a v).err = s.err := rfl
@[simp] theorem State.storeByte_ovr (s : State) (a : Nat) (v : Byte) : (s.storeByte a v).ovr = s.ovr := rfl
@[simp] theorem State.storeByte_errCode (s : State) (a : Nat) (v : Byte) : (s.storeByte a v).errCode = s.errCode := rfl
@[simp] theorem State.storeByte_width (s : State) (a : Nat) (v : Byte) : (s.storeByte a v).width = s.width := rfl
@[simp] theorem State.storeByte_height (s : State) (a : Nat) (v : Byte) : (s.storeByte a v).height = s.height := rfl
@[simp] theorem State.storeByte_srcBase (s : State) (a : Nat) (v : Byte) : (s.storeByte a v).srcBase = s.srcBase := rfl
@[simp] theorem State.storeByte_srcLen (s : State) (a : Nat) (v : Byte) : (s.storeByte a v).srcLen = s.srcLen := rfl
@[simp] theorem State.storeByte_dstBase (s : State) (a : Nat) (v : Byte) : (s.storeByte a v).dstBase = s.dstBase := rfl
@[simp] theorem State.storeByte_dstLen (s : State) (a : Nat) (v : Byte) : (s.storeByte a v).dstLen = s.dstLen := rfl
@[simp] theorem State.storeByte_opx (s : State) (a : Nat) (v : Byte) : (s.storeByte a v).opx = s.opx := rfl
@[simp] theorem State.storeByte_opy (s : State) (a : Nat) (v : Byte) : (s.storeByte a v).opy = s.opy := rfl
@[simp] theorem State.storeByte_opk (s : State) (a : Nat) (v : Byte) : (s.storeByte a v).opk = s.opk := rfl
@[simp] theorem State.storeByte_opa (s : State) (a : Nat) (v : Byte) : (s.storeByte a v).opa = s.opa := rfl
@[simp] theorem State.storeByte_opb (s : State) (a : Nat) (v : Byte) : (s.storeByte a v).opb = s.opb := rfl
@[simp] theorem State.storeByte_res0 (s : State) (a : Nat) (v : Byte) : (s.storeByte a v).res0 = s.res0 := rfl
@[simp] theorem State.storeByte_res1 (s : State) (a : Nat) (v : Byte) : (s.storeByte a v).res1 = s.res1 := rfl
@[simp] theorem State.storeByte_res2 (s : State) (a : Nat) (v : Byte) : (s.storeByte a v).res2 = s.res2 := rfl
@[simp] theorem State.storeByte_res3 (s : State) (a : Nat) (v : Byte) : (s.storeByte a v).res3 = s.res3 := rfl
@[simp] theorem State.storeByte_decision (s : State) (a : Nat) (v : Byte) : (s.storeByte a v).decision = s.decision := rfl
@[simp] theorem State.storeByte_engine (s : State) (a : Nat) (v : Byte) : (s.storeByte a v).engine = s.engine := rfl
@[simp] theorem State.storeByte_rst (s : State) (a : Nat) (v : Byte) : (s.storeByte a v).rst = s.rst := rfl
@[simp] theorem State.storeByte_mem (s : State) (a : Nat) (v : Byte) : (s.storeByte a v).mem = s.mem.writeByte a v := rfl
@[simp] theorem State.storeByte_held (s : State) (a : Nat) (v : Byte) : (s.storeByte a v).held = s.held := rfl
@[simp] theorem State.storeByte_busErrors (s : State) (a : Nat) (v : Byte) : (s.storeByte a v).busErrors = s.busErrors := rfl
@[simp] theorem State.storeByte_inputs (s : State) (a : Nat) (v : Byte) : (s.storeByte a v).inputs = s.inputs := rfl
@[simp] theorem State.storeByte_readData (s : State) (a : Nat) (v : Byte) : (s.storeByte a v).readData = s.readData := rfl
@[simp] theorem State.storeByte_schedule (s : State) (a : Nat) (v : Byte) : (s.storeByte a v).schedule = s.schedule := rfl
@[simp] theorem State.storeByte_freeCount (s : State) (a : Nat) (v : Byte) : (s.storeByte a v).freeCount = s.freeCount := rfl

/-! ### writeStatus -/

@[simp] theorem State.writeStatus_irqEn (s : State) (v : Word) : (s.writeStatus v).irqEn = s.irqEn := rfl
@[simp] theorem State.writeStatus_done (s : State) (v : Word) : (s.writeStatus v).done = (s.done && !v.getLsbD 1) := rfl
@[simp] theorem State.writeStatus_err (s : State) (v : Word) : (s.writeStatus v).err = (s.err && !v.getLsbD 2) := rfl
@[simp] theorem State.writeStatus_ovr (s : State) (v : Word) : (s.writeStatus v).ovr = (s.ovr && !v.getLsbD 3) := rfl
@[simp] theorem State.writeStatus_errCode (s : State) (v : Word) : (s.writeStatus v).errCode = (if v.getLsbD 2 then .none else s.errCode) := rfl
@[simp] theorem State.writeStatus_width (s : State) (v : Word) : (s.writeStatus v).width = s.width := rfl
@[simp] theorem State.writeStatus_height (s : State) (v : Word) : (s.writeStatus v).height = s.height := rfl
@[simp] theorem State.writeStatus_srcBase (s : State) (v : Word) : (s.writeStatus v).srcBase = s.srcBase := rfl
@[simp] theorem State.writeStatus_srcLen (s : State) (v : Word) : (s.writeStatus v).srcLen = s.srcLen := rfl
@[simp] theorem State.writeStatus_dstBase (s : State) (v : Word) : (s.writeStatus v).dstBase = s.dstBase := rfl
@[simp] theorem State.writeStatus_dstLen (s : State) (v : Word) : (s.writeStatus v).dstLen = s.dstLen := rfl
@[simp] theorem State.writeStatus_opx (s : State) (v : Word) : (s.writeStatus v).opx = s.opx := rfl
@[simp] theorem State.writeStatus_opy (s : State) (v : Word) : (s.writeStatus v).opy = s.opy := rfl
@[simp] theorem State.writeStatus_opk (s : State) (v : Word) : (s.writeStatus v).opk = s.opk := rfl
@[simp] theorem State.writeStatus_opa (s : State) (v : Word) : (s.writeStatus v).opa = s.opa := rfl
@[simp] theorem State.writeStatus_opb (s : State) (v : Word) : (s.writeStatus v).opb = s.opb := rfl
@[simp] theorem State.writeStatus_res0 (s : State) (v : Word) : (s.writeStatus v).res0 = s.res0 := rfl
@[simp] theorem State.writeStatus_res1 (s : State) (v : Word) : (s.writeStatus v).res1 = s.res1 := rfl
@[simp] theorem State.writeStatus_res2 (s : State) (v : Word) : (s.writeStatus v).res2 = s.res2 := rfl
@[simp] theorem State.writeStatus_res3 (s : State) (v : Word) : (s.writeStatus v).res3 = s.res3 := rfl
@[simp] theorem State.writeStatus_decision (s : State) (v : Word) : (s.writeStatus v).decision = s.decision := rfl
@[simp] theorem State.writeStatus_engine (s : State) (v : Word) : (s.writeStatus v).engine = s.engine := rfl
@[simp] theorem State.writeStatus_rst (s : State) (v : Word) : (s.writeStatus v).rst = s.rst := rfl
@[simp] theorem State.writeStatus_mem (s : State) (v : Word) : (s.writeStatus v).mem = s.mem := rfl
@[simp] theorem State.writeStatus_held (s : State) (v : Word) : (s.writeStatus v).held = s.held := rfl
@[simp] theorem State.writeStatus_busErrors (s : State) (v : Word) : (s.writeStatus v).busErrors = s.busErrors := rfl
@[simp] theorem State.writeStatus_inputs (s : State) (v : Word) : (s.writeStatus v).inputs = s.inputs := rfl
@[simp] theorem State.writeStatus_readData (s : State) (v : Word) : (s.writeStatus v).readData = s.readData := rfl
@[simp] theorem State.writeStatus_schedule (s : State) (v : Word) : (s.writeStatus v).schedule = s.schedule := rfl
@[simp] theorem State.writeStatus_freeCount (s : State) (v : Word) : (s.writeStatus v).freeCount = s.freeCount := rfl

/-! ### setRes0 -/

@[simp] theorem State.setRes0_irqEn (s : State) (v : Word) : (s.setRes0 v).irqEn = s.irqEn := rfl
@[simp] theorem State.setRes0_done (s : State) (v : Word) : (s.setRes0 v).done = s.done := rfl
@[simp] theorem State.setRes0_err (s : State) (v : Word) : (s.setRes0 v).err = s.err := rfl
@[simp] theorem State.setRes0_ovr (s : State) (v : Word) : (s.setRes0 v).ovr = s.ovr := rfl
@[simp] theorem State.setRes0_errCode (s : State) (v : Word) : (s.setRes0 v).errCode = s.errCode := rfl
@[simp] theorem State.setRes0_width (s : State) (v : Word) : (s.setRes0 v).width = s.width := rfl
@[simp] theorem State.setRes0_height (s : State) (v : Word) : (s.setRes0 v).height = s.height := rfl
@[simp] theorem State.setRes0_srcBase (s : State) (v : Word) : (s.setRes0 v).srcBase = s.srcBase := rfl
@[simp] theorem State.setRes0_srcLen (s : State) (v : Word) : (s.setRes0 v).srcLen = s.srcLen := rfl
@[simp] theorem State.setRes0_dstBase (s : State) (v : Word) : (s.setRes0 v).dstBase = s.dstBase := rfl
@[simp] theorem State.setRes0_dstLen (s : State) (v : Word) : (s.setRes0 v).dstLen = s.dstLen := rfl
@[simp] theorem State.setRes0_opx (s : State) (v : Word) : (s.setRes0 v).opx = s.opx := rfl
@[simp] theorem State.setRes0_opy (s : State) (v : Word) : (s.setRes0 v).opy = s.opy := rfl
@[simp] theorem State.setRes0_opk (s : State) (v : Word) : (s.setRes0 v).opk = s.opk := rfl
@[simp] theorem State.setRes0_opa (s : State) (v : Word) : (s.setRes0 v).opa = s.opa := rfl
@[simp] theorem State.setRes0_opb (s : State) (v : Word) : (s.setRes0 v).opb = s.opb := rfl
@[simp] theorem State.setRes0_res0 (s : State) (v : Word) : (s.setRes0 v).res0 = v := rfl
@[simp] theorem State.setRes0_res1 (s : State) (v : Word) : (s.setRes0 v).res1 = s.res1 := rfl
@[simp] theorem State.setRes0_res2 (s : State) (v : Word) : (s.setRes0 v).res2 = s.res2 := rfl
@[simp] theorem State.setRes0_res3 (s : State) (v : Word) : (s.setRes0 v).res3 = s.res3 := rfl
@[simp] theorem State.setRes0_decision (s : State) (v : Word) : (s.setRes0 v).decision = s.decision := rfl
@[simp] theorem State.setRes0_engine (s : State) (v : Word) : (s.setRes0 v).engine = s.engine := rfl
@[simp] theorem State.setRes0_rst (s : State) (v : Word) : (s.setRes0 v).rst = s.rst := rfl
@[simp] theorem State.setRes0_mem (s : State) (v : Word) : (s.setRes0 v).mem = s.mem := rfl
@[simp] theorem State.setRes0_held (s : State) (v : Word) : (s.setRes0 v).held = s.held := rfl
@[simp] theorem State.setRes0_busErrors (s : State) (v : Word) : (s.setRes0 v).busErrors = s.busErrors := rfl
@[simp] theorem State.setRes0_inputs (s : State) (v : Word) : (s.setRes0 v).inputs = s.inputs := rfl
@[simp] theorem State.setRes0_readData (s : State) (v : Word) : (s.setRes0 v).readData = s.readData := rfl
@[simp] theorem State.setRes0_schedule (s : State) (v : Word) : (s.setRes0 v).schedule = s.schedule := rfl
@[simp] theorem State.setRes0_freeCount (s : State) (v : Word) : (s.setRes0 v).freeCount = s.freeCount := rfl

/-! ### setResults -/

@[simp] theorem State.setResults_irqEn (s : State) (a b c d e : Word) : (s.setResults a b c d e).irqEn = s.irqEn := rfl
@[simp] theorem State.setResults_done (s : State) (a b c d e : Word) : (s.setResults a b c d e).done = s.done := rfl
@[simp] theorem State.setResults_err (s : State) (a b c d e : Word) : (s.setResults a b c d e).err = s.err := rfl
@[simp] theorem State.setResults_ovr (s : State) (a b c d e : Word) : (s.setResults a b c d e).ovr = s.ovr := rfl
@[simp] theorem State.setResults_errCode (s : State) (a b c d e : Word) : (s.setResults a b c d e).errCode = s.errCode := rfl
@[simp] theorem State.setResults_width (s : State) (a b c d e : Word) : (s.setResults a b c d e).width = s.width := rfl
@[simp] theorem State.setResults_height (s : State) (a b c d e : Word) : (s.setResults a b c d e).height = s.height := rfl
@[simp] theorem State.setResults_srcBase (s : State) (a b c d e : Word) : (s.setResults a b c d e).srcBase = s.srcBase := rfl
@[simp] theorem State.setResults_srcLen (s : State) (a b c d e : Word) : (s.setResults a b c d e).srcLen = s.srcLen := rfl
@[simp] theorem State.setResults_dstBase (s : State) (a b c d e : Word) : (s.setResults a b c d e).dstBase = s.dstBase := rfl
@[simp] theorem State.setResults_dstLen (s : State) (a b c d e : Word) : (s.setResults a b c d e).dstLen = s.dstLen := rfl
@[simp] theorem State.setResults_opx (s : State) (a b c d e : Word) : (s.setResults a b c d e).opx = s.opx := rfl
@[simp] theorem State.setResults_opy (s : State) (a b c d e : Word) : (s.setResults a b c d e).opy = s.opy := rfl
@[simp] theorem State.setResults_opk (s : State) (a b c d e : Word) : (s.setResults a b c d e).opk = s.opk := rfl
@[simp] theorem State.setResults_opa (s : State) (a b c d e : Word) : (s.setResults a b c d e).opa = s.opa := rfl
@[simp] theorem State.setResults_opb (s : State) (a b c d e : Word) : (s.setResults a b c d e).opb = s.opb := rfl
@[simp] theorem State.setResults_res0 (s : State) (a b c d e : Word) : (s.setResults a b c d e).res0 = a := rfl
@[simp] theorem State.setResults_res1 (s : State) (a b c d e : Word) : (s.setResults a b c d e).res1 = b := rfl
@[simp] theorem State.setResults_res2 (s : State) (a b c d e : Word) : (s.setResults a b c d e).res2 = c := rfl
@[simp] theorem State.setResults_res3 (s : State) (a b c d e : Word) : (s.setResults a b c d e).res3 = d := rfl
@[simp] theorem State.setResults_decision (s : State) (a b c d e : Word) : (s.setResults a b c d e).decision = e := rfl
@[simp] theorem State.setResults_engine (s : State) (a b c d e : Word) : (s.setResults a b c d e).engine = s.engine := rfl
@[simp] theorem State.setResults_rst (s : State) (a b c d e : Word) : (s.setResults a b c d e).rst = s.rst := rfl
@[simp] theorem State.setResults_mem (s : State) (a b c d e : Word) : (s.setResults a b c d e).mem = s.mem := rfl
@[simp] theorem State.setResults_held (s : State) (a b c d e : Word) : (s.setResults a b c d e).held = s.held := rfl
@[simp] theorem State.setResults_busErrors (s : State) (a b c d e : Word) : (s.setResults a b c d e).busErrors = s.busErrors := rfl
@[simp] theorem State.setResults_inputs (s : State) (a b c d e : Word) : (s.setResults a b c d e).inputs = s.inputs := rfl
@[simp] theorem State.setResults_readData (s : State) (a b c d e : Word) : (s.setResults a b c d e).readData = s.readData := rfl
@[simp] theorem State.setResults_schedule (s : State) (a b c d e : Word) : (s.setResults a b c d e).schedule = s.schedule := rfl
@[simp] theorem State.setResults_freeCount (s : State) (a b c d e : Word) : (s.setResults a b c d e).freeCount = s.freeCount := rfl

/-! ### storeWord -/

@[simp] theorem State.storeWord_irqEn (s : State) (a : Nat) (v : Word) : (s.storeWord a v).irqEn = s.irqEn := rfl
@[simp] theorem State.storeWord_done (s : State) (a : Nat) (v : Word) : (s.storeWord a v).done = s.done := rfl
@[simp] theorem State.storeWord_err (s : State) (a : Nat) (v : Word) : (s.storeWord a v).err = s.err := rfl
@[simp] theorem State.storeWord_ovr (s : State) (a : Nat) (v : Word) : (s.storeWord a v).ovr = s.ovr := rfl
@[simp] theorem State.storeWord_errCode (s : State) (a : Nat) (v : Word) : (s.storeWord a v).errCode = s.errCode := rfl
@[simp] theorem State.storeWord_width (s : State) (a : Nat) (v : Word) : (s.storeWord a v).width = s.width := rfl
@[simp] theorem State.storeWord_height (s : State) (a : Nat) (v : Word) : (s.storeWord a v).height = s.height := rfl
@[simp] theorem State.storeWord_srcBase (s : State) (a : Nat) (v : Word) : (s.storeWord a v).srcBase = s.srcBase := rfl
@[simp] theorem State.storeWord_srcLen (s : State) (a : Nat) (v : Word) : (s.storeWord a v).srcLen = s.srcLen := rfl
@[simp] theorem State.storeWord_dstBase (s : State) (a : Nat) (v : Word) : (s.storeWord a v).dstBase = s.dstBase := rfl
@[simp] theorem State.storeWord_dstLen (s : State) (a : Nat) (v : Word) : (s.storeWord a v).dstLen = s.dstLen := rfl
@[simp] theorem State.storeWord_opx (s : State) (a : Nat) (v : Word) : (s.storeWord a v).opx = s.opx := rfl
@[simp] theorem State.storeWord_opy (s : State) (a : Nat) (v : Word) : (s.storeWord a v).opy = s.opy := rfl
@[simp] theorem State.storeWord_opk (s : State) (a : Nat) (v : Word) : (s.storeWord a v).opk = s.opk := rfl
@[simp] theorem State.storeWord_opa (s : State) (a : Nat) (v : Word) : (s.storeWord a v).opa = s.opa := rfl
@[simp] theorem State.storeWord_opb (s : State) (a : Nat) (v : Word) : (s.storeWord a v).opb = s.opb := rfl
@[simp] theorem State.storeWord_res0 (s : State) (a : Nat) (v : Word) : (s.storeWord a v).res0 = s.res0 := rfl
@[simp] theorem State.storeWord_res1 (s : State) (a : Nat) (v : Word) : (s.storeWord a v).res1 = s.res1 := rfl
@[simp] theorem State.storeWord_res2 (s : State) (a : Nat) (v : Word) : (s.storeWord a v).res2 = s.res2 := rfl
@[simp] theorem State.storeWord_res3 (s : State) (a : Nat) (v : Word) : (s.storeWord a v).res3 = s.res3 := rfl
@[simp] theorem State.storeWord_decision (s : State) (a : Nat) (v : Word) : (s.storeWord a v).decision = s.decision := rfl
@[simp] theorem State.storeWord_engine (s : State) (a : Nat) (v : Word) : (s.storeWord a v).engine = s.engine := rfl
@[simp] theorem State.storeWord_rst (s : State) (a : Nat) (v : Word) : (s.storeWord a v).rst = s.rst := rfl
@[simp] theorem State.storeWord_mem (s : State) (a : Nat) (v : Word) : (s.storeWord a v).mem = s.mem.writeWord a v := rfl
@[simp] theorem State.storeWord_held (s : State) (a : Nat) (v : Word) : (s.storeWord a v).held = s.held := rfl
@[simp] theorem State.storeWord_busErrors (s : State) (a : Nat) (v : Word) : (s.storeWord a v).busErrors = s.busErrors := rfl
@[simp] theorem State.storeWord_inputs (s : State) (a : Nat) (v : Word) : (s.storeWord a v).inputs = s.inputs := rfl
@[simp] theorem State.storeWord_readData (s : State) (a : Nat) (v : Word) : (s.storeWord a v).readData = s.readData := rfl
@[simp] theorem State.storeWord_schedule (s : State) (a : Nat) (v : Word) : (s.storeWord a v).schedule = s.schedule := rfl
@[simp] theorem State.storeWord_freeCount (s : State) (a : Nat) (v : Word) : (s.storeWord a v).freeCount = s.freeCount := rfl

/-! ### setHeld -/

@[simp] theorem State.setHeld_irqEn (s : State) (l : List (BitVec 30 × Word)) : (s.setHeld l).irqEn = s.irqEn := rfl
@[simp] theorem State.setHeld_done (s : State) (l : List (BitVec 30 × Word)) : (s.setHeld l).done = s.done := rfl
@[simp] theorem State.setHeld_err (s : State) (l : List (BitVec 30 × Word)) : (s.setHeld l).err = s.err := rfl
@[simp] theorem State.setHeld_ovr (s : State) (l : List (BitVec 30 × Word)) : (s.setHeld l).ovr = s.ovr := rfl
@[simp] theorem State.setHeld_errCode (s : State) (l : List (BitVec 30 × Word)) : (s.setHeld l).errCode = s.errCode := rfl
@[simp] theorem State.setHeld_width (s : State) (l : List (BitVec 30 × Word)) : (s.setHeld l).width = s.width := rfl
@[simp] theorem State.setHeld_height (s : State) (l : List (BitVec 30 × Word)) : (s.setHeld l).height = s.height := rfl
@[simp] theorem State.setHeld_srcBase (s : State) (l : List (BitVec 30 × Word)) : (s.setHeld l).srcBase = s.srcBase := rfl
@[simp] theorem State.setHeld_srcLen (s : State) (l : List (BitVec 30 × Word)) : (s.setHeld l).srcLen = s.srcLen := rfl
@[simp] theorem State.setHeld_dstBase (s : State) (l : List (BitVec 30 × Word)) : (s.setHeld l).dstBase = s.dstBase := rfl
@[simp] theorem State.setHeld_dstLen (s : State) (l : List (BitVec 30 × Word)) : (s.setHeld l).dstLen = s.dstLen := rfl
@[simp] theorem State.setHeld_opx (s : State) (l : List (BitVec 30 × Word)) : (s.setHeld l).opx = s.opx := rfl
@[simp] theorem State.setHeld_opy (s : State) (l : List (BitVec 30 × Word)) : (s.setHeld l).opy = s.opy := rfl
@[simp] theorem State.setHeld_opk (s : State) (l : List (BitVec 30 × Word)) : (s.setHeld l).opk = s.opk := rfl
@[simp] theorem State.setHeld_opa (s : State) (l : List (BitVec 30 × Word)) : (s.setHeld l).opa = s.opa := rfl
@[simp] theorem State.setHeld_opb (s : State) (l : List (BitVec 30 × Word)) : (s.setHeld l).opb = s.opb := rfl
@[simp] theorem State.setHeld_res0 (s : State) (l : List (BitVec 30 × Word)) : (s.setHeld l).res0 = s.res0 := rfl
@[simp] theorem State.setHeld_res1 (s : State) (l : List (BitVec 30 × Word)) : (s.setHeld l).res1 = s.res1 := rfl
@[simp] theorem State.setHeld_res2 (s : State) (l : List (BitVec 30 × Word)) : (s.setHeld l).res2 = s.res2 := rfl
@[simp] theorem State.setHeld_res3 (s : State) (l : List (BitVec 30 × Word)) : (s.setHeld l).res3 = s.res3 := rfl
@[simp] theorem State.setHeld_decision (s : State) (l : List (BitVec 30 × Word)) : (s.setHeld l).decision = s.decision := rfl
@[simp] theorem State.setHeld_engine (s : State) (l : List (BitVec 30 × Word)) : (s.setHeld l).engine = s.engine := rfl
@[simp] theorem State.setHeld_rst (s : State) (l : List (BitVec 30 × Word)) : (s.setHeld l).rst = s.rst := rfl
@[simp] theorem State.setHeld_mem (s : State) (l : List (BitVec 30 × Word)) : (s.setHeld l).mem = s.mem := rfl
@[simp] theorem State.setHeld_held (s : State) (l : List (BitVec 30 × Word)) : (s.setHeld l).held = l := rfl
@[simp] theorem State.setHeld_busErrors (s : State) (l : List (BitVec 30 × Word)) : (s.setHeld l).busErrors = s.busErrors := rfl
@[simp] theorem State.setHeld_inputs (s : State) (l : List (BitVec 30 × Word)) : (s.setHeld l).inputs = s.inputs := rfl
@[simp] theorem State.setHeld_readData (s : State) (l : List (BitVec 30 × Word)) : (s.setHeld l).readData = s.readData := rfl
@[simp] theorem State.setHeld_schedule (s : State) (l : List (BitVec 30 × Word)) : (s.setHeld l).schedule = s.schedule := rfl
@[simp] theorem State.setHeld_freeCount (s : State) (l : List (BitVec 30 × Word)) : (s.setHeld l).freeCount = s.freeCount := rfl

end Sys2Proof.Machine
end

