-- ==== Sys2Proof/Laws/Block.lean ====
section
/-! SUPPORT. Everything one step of the block can do, and the induction over the block's steps. -/

namespace Sys2Proof.Machine

/-- What no step of the block touches: the live registers, CTRL, OVR, `rst`, the platform and the environment. -/
structure State.SameOutside (s t : State) : Prop where
  irqEn : t.irqEn = s.irqEn
  ovr : t.ovr = s.ovr
  latch : t.latch = s.latch
  rst : t.rst = s.rst
  held : t.held = s.held
  busErrors : t.busErrors = s.busErrors
  inputs : t.inputs = s.inputs
  readData : t.readData = s.readData

/-- The result registers are the same. -/
structure State.SameResults (s t : State) : Prop where
  res0 : t.res0 = s.res0
  res1 : t.res1 = s.res1
  res2 : t.res2 = s.res2
  res3 : t.res3 = s.res3
  decision : t.decision = s.decision

/-- What getting a word can do to the reads of command i: nothing, the first read of a word that it may read, or a further
one, of those left to it (20_memory.md R88). -/
def Running.OneRead (i : Instr) (r r' : Running) : Prop :=
  (r'.reads = r.reads ∧ r'.rereads = r.rereads) ∨
    ∃ a w, a ∈ r.snap.readable i ∧ r'.reads = (a, w) :: r.reads ∧
      ((r'.rereads = r.rereads ∧ ∀ p ∈ r.reads, p.1 ≠ a) ∨ r'.rereads + 1 = r.rereads)

/-- What a step can do to the reads of command i: start their list, or what getting a word can do. -/
def Running.ReadsNext (i : Instr) (r r' : Running) : Prop :=
  (r'.reads = [] ∧ r'.rereads + (r.snap.readable i).length ≤ r.snap.maxReads) ∨ r.OneRead i r'

/-- The reads stay as they are. -/
theorem Running.ReadsNext.same (i : Instr) {r r' : Running} (h : r'.reads = r.reads ∧ r'.rereads = r.rereads) :
    Running.ReadsNext i r r' := .inr (.inl h)

/-- What a step can do to memory: nothing, or one write of APPLY to a cell that one of its pixels still owes. -/
def State.OneWrite (i : Instr) (s : State) (r : Running) (t : State) : Prop :=
  t.mem = s.mem ∨
    (i = .apply ∧ ∃ n v, wordAddr (r.snap.dstAddr n) = true ∧ t.mem = s.mem.writeWord (r.snap.dstAddr n) v ∧
      ∃ j ∈ r.todo, ∃ outs, j.work = .writing outs ∧ n ∈ outs.map Prod.fst)

/-- How a step of the block ends: the command completes, completes with an error, or goes on. -/
inductive State.BlockEnd (i : Instr) (s : State) (r : Running) (t : State) : Prop where
  | completed (engine : t.engine = .idle) (done : t.done = true) (err : t.err = s.err)
      (errCode : t.errCode = s.errCode) (mem : t.mem = s.mem)
      (decision : t.decision = s.decision ∨ (i = .pixel ∧ ∃ e p, t.decision = decisionWord e p ∧ ∀ q, p q = true → e q = true))
  | failed (code : ErrCode) (hcode : code ≠ .none) (engine : t.engine = .idle) (done : t.done = true)
      (err : t.err = true) (errCode : t.errCode = code) (results : s.SameResults t) (mem : s.OneWrite i r t)
  | going (r' : Running) (engine : t.engine = .running r') (word : r'.word = r.word) (snap : r'.snap = r.snap)
      (raced : r'.raced = r.raced) (reads : Running.ReadsNext i r r')
      (left : r'.left + t.schedule.length < r.left + s.schedule.length)
      (done : t.done = s.done) (err : t.err = s.err) (errCode : t.errCode = s.errCode) (results : s.SameResults t)
      (mem : s.OneWrite i r t)

theorem State.SameResults.refl (s : State) : s.SameResults s := ⟨rfl, rfl, rfl, rfl, rfl⟩

/-! ### The shared operations -/

theorem errCode_ne_none_of_startError {i : Instr} {q : Snapshot} {c : ErrCode} (h : startError i q = some c) :
    c ≠ .none := by
  obtain ⟨f, hf, hc⟩ := List.exists_of_findSome?_eq_some h
  intro hn
  subst hn
  cases i <;> simp only [startChecks, List.mem_cons, List.not_mem_nil, or_false] at hf
  all_goals
    first
    | exact hf
    | (rcases hf with rfl | rfl | rfl | rfl | rfl | rfl | rfl <;> revert hc <;>
        simp only [checkSrcLen, checkDstLen, checkSrcAlign, checkDstAlign, checkSrcRange, checkDstRange, checkOverlap] <;>
        split <;> simp)
    | (rcases hf with rfl | rfl | rfl | rfl <;> revert hc <;>
        simp only [checkSrcLen, checkSrcAlign, checkSrcRange, checkArg] <;> split <;> simp)

theorem inBounds_iff {q : Snapshot} {c : Int × Int} :
    q.inBounds c = true ↔ 0 ≤ c.1 ∧ c.1 < q.w ∧ 0 ≤ c.2 ∧ c.2 < q.h := by
  unfold Snapshot.inBounds; simp [and_assoc]

theorem index_lt {w h x y : Nat} (hx : x < w) (hy : y < h) : y * w + x < w * h := by
  have := Nat.mul_le_mul_right w (show y + 1 ≤ h from hy)
  rw [Nat.add_mul, Nat.one_mul, Nat.mul_comm h w] at this
  omega

/-- A cell inside the image is a source word. -/
theorem isSource_of_cellAddr {q : Snapshot} {x y k a : Nat} (ha : q.cellAddr x y k = some a) : q.IsSource a := by
  unfold Snapshot.cellAddr at ha
  simp only at ha
  split at ha
  · next hc =>
    obtain ⟨h1, h2, h3, h4⟩ := inBounds_iff.mp hc
    cases ha
    exact ⟨_, index_lt (w := q.w) (h := q.h) (by omega) (by omega), rfl⟩
  · cases ha

theorem isSource_of_sourceWord {q : Snapshot} {n a : Nat} (ha : q.sourceWord n = some a) : q.IsSource a := by
  unfold Snapshot.sourceWord Snapshot.nonEmpty at ha
  split at ha
  · next h =>
    cases ha
    exact ⟨_, Nat.mod_lt _ (Nat.pos_of_ne_zero (by simpa using h)), rfl⟩
  · cases ha

/-- The words that PIXEL may read are those of its in-bounds cells (44_edge_rule_engine.md R232). -/
theorem cell_of_windowWord {q : Snapshot} {x y n a : Nat} (ha : q.windowWord x y n = some a) :
    ∃ k, k ≤ 20 ∧ q.cellAddr x y k = some a := by
  obtain ⟨k, hk, hka⟩ := List.mem_filterMap.mp (List.mem_of_getElem? ha)
  have := List.mem_range.mp hk
  exact ⟨k, by unfold nCells at this; omega, hka⟩

theorem mem_sourceWords {q : Snapshot} {a : Nat} : a ∈ q.sourceWords ↔ q.IsSource a := by
  simp only [Snapshot.sourceWords, Snapshot.IsSource, List.mem_map, List.mem_range, eq_comm]

/-- Every cell of the matrix around (x, y) is one of its 21. -/
theorem cellAddr_mem_cellWords {q : Snapshot} {x y k a : Nat} (ha : q.cellAddr x y k = some a) :
    a ∈ q.cellWords x y allCells := by
  refine List.mem_filterMap.mpr ?_
  by_cases hk : k < nCells
  · exact ⟨k, List.mem_range.mpr hk, ha⟩
  · refine ⟨10, by decide, ?_⟩
    have : cellCoord x y 10 = cellCoord x y k := by
      unfold cellCoord
      rw [show cellOffsets.getD k (0, 0) = cellOffsets.getD 10 (0, 0) from
        List.getD_eq_default _ _ (by simpa [cellOffsets, nCells] using hk)]
    unfold Snapshot.cellAddr at *
    rw [this]
    exact ha

/-- Every word that a command may read is a source word (20_memory.md R86). -/
theorem isSource_of_readable {i : Instr} {q : Snapshot} {a : Nat} (h : a ∈ q.readable i) : q.IsSource a := by
  have cells : ∀ {x y ks}, a ∈ q.cellWords x y ks → q.IsSource a := fun h =>
    let ⟨_, _, hk⟩ := List.mem_filterMap.mp h
    isSource_of_cellAddr hk
  cases i with
  | apply => exact mem_sourceWords.mp h
  | pixel => exact cells h
  | sample => exact cells h
  | nop => cases h
  | diff => cases h
  | blend => cases h
  | unpack => cases h

theorem length_cellWords (q : Snapshot) (x y : Nat) (ks : List Nat) :
    (q.cellWords x y ks).length = (q.inBoundsCells x y ks).length := by
  unfold Snapshot.cellWords Snapshot.inBoundsCells
  rw [List.length_filterMap_eq_countP, List.countP_eq_length_filter]

theorem length_cellWords_le (q : Snapshot) (x y : Nat) {ks : List Nat} (hks : ks.length ≤ 21) :
    (q.cellWords x y ks).length ≤ q.maxReads := by
  cases hl : q.cellWords x y ks with
  | nil => exact Nat.zero_le _
  | cons a l =>
    have hle : (q.cellWords x y ks).length ≤ ks.length := List.length_filterMap_le _ _
    obtain ⟨k, -, hk⟩ := List.mem_filterMap.mp (show a ∈ q.cellWords x y ks by rw [hl]; exact List.mem_cons_self)
    obtain ⟨n, hn, -⟩ := isSource_of_cellAddr hk
    unfold Snapshot.maxReads
    rw [hl] at hle
    omega

/-- The words that a command may read are no more than the reads it may make (70_reset_and_hazards.md R341). -/
theorem length_readable_le (q : Snapshot) (i : Instr) : (q.readable i).length ≤ q.maxReads := by
  cases i with
  | apply => simp [Snapshot.readable, Snapshot.sourceWords, Snapshot.maxReads]; omega
  | pixel => exact length_cellWords_le q _ _ (by decide)
  | sample => exact length_cellWords_le q _ _ (by simp)
  | nop => exact Nat.zero_le _
  | diff => exact Nat.zero_le _
  | blend => exact Nat.zero_le _
  | unpack => exact Nat.zero_le _

theorem extraWord_eq_some {c : ReadChoice} {f : Nat → Option Nat} {a : Nat} (h : c.extraWord f = some a) :
    ∃ n, c = .extra n ∧ f n = some a := by
  cases c with
  | extra n => exact ⟨n, rfl, h⟩
  | fetch => cases h
  | reuse n => cases h

/-- An extra read uses up a choice of the schedule, since an exhausted one asks for none. -/
theorem schedule_of_extra {s : State} {n : Nat} (h : s.choice.read = .extra n) :
    s.useChoice.schedule.length + 1 = s.schedule.length := by
  unfold State.choice State.useChoice at *
  cases hs : s.schedule with
  | nil => rw [hs] at h; cases h
  | cons c l => rfl

theorem useChoice_schedule_le (s : State) : s.useChoice.schedule.length ≤ s.schedule.length := by
  simp [State.useChoice]

/-! ### The sampler's reads -/

/-- What getting a word can do to command i: nothing but to its reads. -/
def Running.AfterRead (i : Instr) (r r' : Running) : Prop :=
  r' = { r with reads := r'.reads, rereads := r'.rereads } ∧ Running.OneRead i r r'

theorem Running.AfterRead.refl (i : Instr) (r : Running) : Running.AfterRead i r r := ⟨rfl, .inl ⟨rfl, rfl⟩⟩

theorem Running.AfterRead.same {i : Instr} {r r' : Running} (h : Running.AfterRead i r r') :
    r'.word = r.word ∧ r'.snap = r.snap ∧ r'.checked = r.checked ∧ r'.window = r.window ∧ r'.todo = r.todo ∧
      r'.doneSet = r.doneSet ∧ r'.raced = r.raced ∧ Running.ReadsNext i r r' := by
  obtain ⟨h, hr⟩ := h
  exact ⟨by rw [h], by rw [h], by rw [h], by rw [h], by rw [h], by rw [h], by rw [h], .inr hr⟩

/-- A read that memory answers uses up at most one free word (20_memory.md R94, 70_reset_and_hazards.md R331). -/
theorem State.answer_cases (s : State) (raced : Bool) (a : Nat) : ∃ n, (s.answer raced a).2 = s.useFree n := by
  unfold State.answer
  split
  · exact ⟨1, rfl⟩
  · split
    · exact ⟨1, rfl⟩
    · exact ⟨0, rfl⟩

theorem State.readWord_cases {s s' : State} {r r' : Running} {a : Nat} {w : Word}
    (h : s.readWord r a = some (w, r', s')) :
    (∃ n, s' = s.useFree n) ∧ r' = { r with reads := (a, w) :: r.reads } := by
  unfold State.readWord State.memRead at h
  by_cases hp : s.portOk .read a = true
  · rw [if_pos hp] at h
    obtain ⟨rfl, rfl, rfl⟩ := by simpa using h
    exact ⟨s.answer_cases _ _, rfl⟩
  · rw [if_neg hp] at h; cases h

/-- A word that the command has not read is none of those that it has. -/
theorem Running.wordRead_none {r : Running} {a n : Nat} (h : r.wordRead a n = none) : ∀ p ∈ r.reads, p.1 ≠ a := by
  intro p hp he
  unfold Running.wordRead at h
  simp only [Option.map_eq_none_iff, List.getElem?_eq_none_iff] at h
  have : 0 < (r.reads.filter fun p => p.1 == a).length :=
    List.length_pos_of_mem (List.mem_filter.mpr ⟨hp, by simpa using he⟩)
  have := Nat.mod_lt n this
  omega

/-- A word that is reused has been read. -/
theorem Running.wordRead_some {r : Running} {a n : Nat} {w : Word} (h : r.wordRead a n = some w) : (a, w) ∈ r.reads := by
  unfold Running.wordRead at h
  obtain ⟨p, hp, rfl⟩ := Option.map_eq_some_iff.mp h
  obtain ⟨hm, he⟩ := List.mem_filter.mp (List.mem_of_getElem? hp)
  obtain rfl : p.1 = a := by simpa using he
  exact hm

/-- Getting a word changes nothing but the count of free words and the command's reads. -/
theorem State.fetchWord_cases {i : Instr} {s s' : State} {r r' : Running} {reuse : Option Nat} {a : Nat} {w : Word}
    (hread : a ∈ r.snap.readable i) (h : s.fetchWord r reuse a = some (w, r', s')) :
    (∃ n, s' = s.useFree n) ∧ Running.AfterRead i r r' := by
  unfold State.fetchWord at h
  split at h
  · next hl =>
    obtain ⟨h1, rfl⟩ := State.readWord_cases h
    exact ⟨h1, rfl, .inr ⟨a, w, hread, rfl, .inl ⟨rfl, Running.wordRead_none hl⟩⟩⟩
  · split at h
    · obtain ⟨-, rfl, rfl⟩ := by simpa using h
      exact ⟨⟨0, rfl⟩, .refl i r⟩
    · next hc =>
      obtain ⟨h1, rfl⟩ := State.readWord_cases h
      simp at hc
      exact ⟨h1, rfl, .inr ⟨a, w, hread, rfl, .inr (by simp only; omega)⟩⟩

/-- Getting the word of a cell changes no more. -/
theorem State.fetchCell_cases {i : Instr} {s s' : State} {r r' : Running} {reuse : Option Nat} {x y k : Nat} {w : Word}
    (hread : ∀ a, r.snap.cellAddr x y k = some a → a ∈ r.snap.readable i)
    (h : s.fetchCell r reuse x y k = some (w, r', s')) : (∃ n, s' = s.useFree n) ∧ Running.AfterRead i r r' := by
  unfold State.fetchCell at h
  split at h
  · obtain ⟨-, rfl, rfl⟩ := by simpa using h
    exact ⟨⟨0, rfl⟩, .refl i r⟩
  · next a ha => exact State.fetchWord_cases (hread a ha) h

/-- Everything that filling a cell of a matrix can do. -/
theorem State.fetchNext_cases {i : Instr} {s s' : State} {r r' : Running} {win win' : Window} {x y : Nat} {c : Choice}
    (hread : ∀ k a, r.snap.cellAddr x y k = some a → a ∈ r.snap.readable i)
    (h : s.fetchNext r win x y c = some (win', r', s')) :
    (∃ n, s' = s.useFree n) ∧ Running.AfterRead i r r' ∧
      ((win.todo = [] ∧ win' = win) ∨
        ∃ i k w, win.todo[i]? = some k ∧ win' = ⟨win.todo.eraseIdx i, win.cells.set k w⟩) := by
  unfold State.fetchNext at h
  split at h
  · next hn =>
    obtain ⟨rfl, rfl, rfl⟩ := by simpa using h
    refine ⟨⟨0, rfl⟩, .refl i r, .inl ⟨?_, rfl⟩⟩
    by_contra hne
    have := Nat.mod_lt c.item (List.length_pos_iff.mpr hne)
    rw [List.getElem?_eq_none_iff] at hn
    omega
  · next k hk =>
    split at h
    · cases h
    · next w r1 s1 hf =>
      obtain ⟨rfl, rfl, rfl⟩ := by simpa using h
      obtain ⟨h1, h2⟩ := State.fetchCell_cases (hread k) hf
      exact ⟨h1, h2, .inr ⟨_, k, w, hk, rfl⟩⟩

theorem length_inBoundsCells_le (q : Snapshot) (x y : Nat) (ks : List Nat) : (q.inBoundsCells x y ks).length ≤ ks.length :=
  List.length_filter_le _ _

/-! ### The block's writes -/

theorem State.putWord_eq (s : State) (raced : Bool) (a : Nat) (v : Word) :
    ∃ n v', s.putWord raced a v = (s.useFree n).storeWord a v' := by
  unfold State.putWord
  split
  · exact ⟨1, s.freeAt 0, rfl⟩
  · exact ⟨0, v, rfl⟩

/-- A write of the block stores one word at its address, or leaves memory as it is where memory answers with
`bus_error` (60_exceptions.md R293; log 22). -/
theorem State.memWrite_cases {s s' : State} {raced landed ok : Bool} {a : Nat} {v : Word}
    (h : s.memWrite raced landed a v = (ok, s')) :
    (ok = false ∧ s' = s) ∨ (wordAddr a = true ∧ ∃ n v', s' = (s.useFree n).storeWord a v') := by
  unfold State.memWrite at h
  split at h
  · next hp =>
    obtain ⟨-, rfl⟩ := Prod.mk.inj h
    unfold State.portOk at hp
    exact .inr ⟨(Bool.and_eq_true_iff.mp hp).1, s.putWord_eq raced a v⟩
  · obtain ⟨rfl, hs⟩ := Prod.mk.inj h
    split at hs
    · next hl =>
      subst hs
      exact .inr ⟨(Bool.and_eq_true_iff.mp hl).2, s.putWord_eq raced a v⟩
    · exact .inl ⟨rfl, hs.symm⟩

theorem begin_eq (s : State) (i : Instr) (r : Running) (win : Window) (todo : List PixelJob) :
    s.begin i r win todo =
      match startError i r.snap with
      | some code => s.raise code
      | none =>
        s.progress { r with
          checked := true, window := win, reads := [], rereads := r.snap.maxReads - (win.todo.length + todo.length),
          todo := todo, doneSet := [] } := rfl

theorem length_pixels (q : Snapshot) : q.pixels.length = q.w * q.h := by simp [Snapshot.pixels]

theorem sum_left_jobs (q : Snapshot) : ((q.jobs).map fun j => j.work.left).sum ≤ 25 * (q.w * q.h) := by
  have : ∀ l : List (Nat × Nat),
      ((l.map fun p => (⟨p.1, p.2, .sampling (q.window p.1 p.2 allCells)⟩ : PixelJob)).map fun j => j.work.left).sum ≤
        25 * l.length := by
    intro l
    induction l with
    | nil => simp
    | cons p l ih =>
      have hle : (q.inBoundsCells p.1 p.2 allCells).length ≤ 21 := by
        simpa [allCells, nCells] using length_inBoundsCells_le q p.1 p.2 allCells
      have hp : (PixelWork.sampling (q.window p.1 p.2 allCells)).left ≤ 25 := by
        simp only [PixelWork.left, Snapshot.window]; omega
      simp only [List.map_cons, List.sum_cons, List.length_cons] at *
      omega
  have h := this q.pixels
  rwa [length_pixels] at h

/-- The start checks' step. -/
theorem begin_cases (s : State) (i : Instr) (r : Running) (win : Window) (todo : List PixelJob) (hr : r.checked = false)
    (hwin : win.todo.length ≤ 21) (hneed : (r.snap.readable i).length ≤ win.todo.length + todo.length)
    (htodo : (todo.map fun j => j.work.left).sum ≤ 25 * (r.snap.w * r.snap.h)) :
    s.SameOutside (s.begin i r win todo) ∧ s.BlockEnd i r (s.begin i r win todo) := by
  rw [begin_eq]
  split
  · next code h =>
    exact ⟨⟨rfl, rfl, rfl, rfl, rfl, rfl, rfl, rfl⟩,
      .failed code (errCode_ne_none_of_startError h) rfl rfl rfl rfl ⟨rfl, rfl, rfl, rfl, rfl⟩ (.inl rfl)⟩
  · refine ⟨⟨rfl, rfl, rfl, rfl, rfl, rfl, rfl, rfl⟩,
      .going _ rfl rfl rfl rfl (.inl ⟨rfl, ?_⟩) ?_ rfl rfl rfl ⟨rfl, rfl, rfl, rfl, rfl⟩ (.inl rfl)⟩
    · have := length_readable_le r.snap i
      simp only
      omega
    · simp only [Running.left, hr, if_true, State.progress_schedule, Bool.false_eq_true, if_false]
      omega

theorem fail_bus (s : State) (i : Instr) (r : Running) :
    s.SameOutside (s.raise .bus) ∧ s.BlockEnd i r (s.raise .bus) :=
  ⟨⟨rfl, rfl, rfl, rfl, rfl, rfl, rfl, rfl⟩,
    .failed .bus (by decide) rfl rfl rfl rfl ⟨rfl, rfl, rfl, rfl, rfl⟩ (.inl rfl)⟩

/-- What a step does after it has used up a choice. -/
theorem after_useChoice {i : Instr} {s t : State} {r : Running}
    (h : s.useChoice.SameOutside t ∧ s.useChoice.BlockEnd i r t) : s.SameOutside t ∧ s.BlockEnd i r t := by
  obtain ⟨ho, hb⟩ := h
  refine ⟨⟨ho.1, ho.2, ho.3, ho.4, ho.5, ho.6, ho.7, ho.8⟩, ?_⟩
  cases hb with
  | completed a b c d e f => exact .completed a b c d e f
  | failed code a b c d e f g => exact .failed code a b c d e ⟨f.1, f.2, f.3, f.4, f.5⟩ g
  | going r' a b c ra rd l d e f g m =>
    exact .going r' a b c ra rd (Nat.lt_of_lt_of_le l (Nat.add_le_add_left (useChoice_schedule_le s) _)) d e f
      ⟨g.1, g.2, g.3, g.4, g.5⟩ m

/-- An extra read is one read of a word that the command may read, or a bus error, or nothing (20_memory.md R88). -/
theorem extraRead_cases {i : Instr} {s : State} {r : Running} {n a : Nat} (hc : s.choice.read = .extra n)
    (hread : a ∈ r.snap.readable i) :
    s.SameOutside (s.useChoice.extraRead r a) ∧ s.BlockEnd i r (s.useChoice.extraRead r a) := by
  have hsch := schedule_of_extra hc
  unfold State.extraRead
  split
  · exact after_useChoice (fail_bus _ _ _)
  · next w r' s' hw =>
    obtain ⟨⟨k, rfl⟩, ha⟩ := State.fetchWord_cases hread hw
    obtain ⟨h1, h2, h3, h4, h5, -, h7, h8⟩ := ha.same
    refine ⟨⟨rfl, rfl, rfl, rfl, rfl, rfl, rfl, rfl⟩,
      .going _ rfl h1 h2 h7 h8 ?_ rfl rfl rfl ⟨rfl, rfl, rfl, rfl, rfl⟩ (.inl rfl)⟩
    simp only [Running.left, h2, h3, h4, h5, State.progress_schedule, State.useFree_schedule]
    omega

/-! ### APPLY's access -/

theorem sum_set_lt {l : List Nat} {i n : Nat} (hi : i < l.length) (hn : n < l[i]) : (l.set i n).sum < l.sum := by
  induction l generalizing i with
  | nil => simp at hi
  | cons a l ih =>
    cases i with
    | zero => simpa using hn
    | succ i => simpa using ih (by simpa using hi) (by simpa using hn)

theorem sum_eraseIdx_lt {l : List Nat} {i : Nat} (hi : i < l.length) (hn : 0 < l[i]) : (l.eraseIdx i).sum < l.sum := by
  induction l generalizing i with
  | nil => simp at hi
  | cons a l ih =>
    cases i with
    | zero => simpa using hn
    | succ i => simpa using ih (by simpa using hi) (by simpa using hn)

theorem map_eraseIdx_left (l : List PixelJob) (i : Nat) :
    ((l.eraseIdx i).map fun j => j.work.left) = (l.map fun j => j.work.left).eraseIdx i := by
  induction l generalizing i with
  | nil => rfl
  | cons a l ih => cases i with
    | zero => rfl
    | succ i => simpa using ih i

theorem left_set_lt {r : Running} {i : Nat} {j j' : PixelJob} {l : List (Nat × Word)} (hr : r.checked = true)
    (hi : r.todo[i]? = some j) (hj : j'.work.left < j.work.left) :
    ({ r with todo := r.todo.set i j', reads := l } : Running).left < r.left := by
  obtain ⟨hlt, rfl⟩ := List.getElem?_eq_some_iff.mp hi
  have := @sum_set_lt (r.todo.map fun j => j.work.left) i j'.work.left (by simpa using hlt) (by simpa using hj)
  simp only [Running.left, hr, if_true, List.map_set]
  omega

theorem left_erase_lt {r : Running} {i : Nat} {j : PixelJob} {d : List (Nat × Nat)} (hr : r.checked = true)
    (hi : r.todo[i]? = some j) : ({ r with todo := r.todo.eraseIdx i, doneSet := d } : Running).left < r.left := by
  obtain ⟨hlt, rfl⟩ := List.getElem?_eq_some_iff.mp hi
  have hpos : 0 < (r.todo[i]).work.left := by
    cases h : (r.todo[i]).work <;> simp [PixelWork.left]
  have := @sum_eraseIdx_lt (r.todo.map fun j => j.work.left) i (by simpa using hlt) (by simpa using hpos)
  simp only [Running.left, hr, if_true, map_eraseIdx_left]
  omega

theorem wrote_word (r : Running) (i : Nat) (j : PixelJob) (outs : List (Nat × Word)) :
    (r.wrote i j outs).word = r.word ∧ (r.wrote i j outs).snap = r.snap ∧ (r.wrote i j outs).checked = r.checked ∧
      (r.wrote i j outs).raced = r.raced ∧
      ((r.wrote i j outs).reads = r.reads ∧ (r.wrote i j outs).rereads = r.rereads) := by
  unfold Running.wrote; split <;> exact ⟨rfl, rfl, rfl, rfl, rfl, rfl⟩

theorem left_wrote_lt {r : Running} {i : Nat} {j : PixelJob} {outs outs' : List (Nat × Word)} (hr : r.checked = true)
    (hi : r.todo[i]? = some j) (hw : j.work = .writing outs) (hlen : outs'.length < outs.length ∨ outs' = []) :
    (r.wrote i j outs').left < r.left := by
  unfold Running.wrote
  split
  · exact left_erase_lt hr hi
  · next h v t =>
    refine left_set_lt hr hi ?_
    rw [hw]
    simp [PixelWork.left] at hlen ⊢
    omega

/-- APPLY's access is one of: a cell gets its word, a write, a bus error, or a pixel without writes left joins
`done_set`. -/
theorem jobStep_cases {r : Running} {i : Nat} {j : PixelJob} {c : Choice} {s : State} (hr : r.checked = true)
    (hi : r.todo[i]? = some j) :
    s.SameOutside (jobStep r i j c s) ∧ s.BlockEnd .apply r (jobStep r i j c s) := by
  unfold jobStep
  split
  · next win hw =>
    split
    · exact fail_bus s _ r
    · next win' r' s' hf =>
      obtain ⟨⟨n, rfl⟩, ha, hwin⟩ :=
        State.fetchNext_cases (i := .apply) (fun k a h => mem_sourceWords.mpr (isSource_of_cellAddr h)) hf
      obtain ⟨h1, h2, h3, h4, h5, h6, h7, h8⟩ := ha.same
      refine ⟨⟨rfl, rfl, rfl, rfl, rfl, rfl, rfl, rfl⟩,
        .going _ rfl h1 h2 h7 h8 ?_ rfl rfl rfl ⟨rfl, rfl, rfl, rfl, rfl⟩ (.inl rfl)⟩
      have hl : (sampledWork r.snap j.x j.y win').left < j.work.left := by
        rw [hw]
        unfold sampledWork
        rcases hwin with ⟨he, rfl⟩ | ⟨k, m, w, hk, rfl⟩
        · simp [he, PixelWork.left, quadrantWrites]
        · have hlt := (List.getElem?_eq_some_iff.mp hk).1
          have hlen := List.length_eraseIdx_of_lt hlt
          split
          · simp [PixelWork.left, quadrantWrites]
          · next hne =>
            have : (win.todo.eraseIdx k).length ≠ 0 := by simpa using hne
            simp only [PixelWork.left]; omega
      have := left_set_lt (l := r'.reads) (j' := ⟨j.x, j.y, sampledWork r.snap j.x j.y win'⟩) hr hi hl
      have he : ({ r' with todo := r.todo.set i ⟨j.x, j.y, sampledWork r.snap j.x j.y win'⟩ } : Running).left =
          ({ r with todo := r.todo.set i ⟨j.x, j.y, sampledWork r.snap j.x j.y win'⟩, reads := r'.reads } : Running).left := by
        simp only [Running.left, h2, h3, h4]
      simp only [State.progress_schedule, State.useFree_schedule]
      rw [he]
      omega
  · next outs hw =>
    split
    · obtain ⟨h1, h2, -, h4, h5⟩ := wrote_word r i j []
      refine ⟨⟨rfl, rfl, rfl, rfl, rfl, rfl, rfl, rfl⟩,
        .going _ rfl h1 h2 h4 (.same _ h5) ?_ rfl rfl rfl ⟨rfl, rfl, rfl, rfl, rfl⟩ (.inl rfl)⟩
      have := left_wrote_lt (outs' := []) hr hi hw (.inr rfl)
      simpa using this
    · next n v ho =>
      obtain ⟨hlt, hget⟩ := List.getElem?_eq_some_iff.mp ho
      have howes : n ∈ outs.map Prod.fst :=
        List.mem_map.mpr ⟨(n, v), by rw [← hget]; exact List.getElem_mem hlt, rfl⟩
      split
      · next s' hm =>
        rcases State.memWrite_cases hm with ⟨-, rfl⟩ | ⟨hp, k, v', rfl⟩
        · exact fail_bus _ _ r
        · exact ⟨⟨rfl, rfl, rfl, rfl, rfl, rfl, rfl, rfl⟩,
            .failed .bus (by decide) rfl rfl rfl rfl ⟨rfl, rfl, rfl, rfl, rfl⟩
              (.inr ⟨rfl, n, v', hp, rfl, j, List.mem_of_getElem? hi, outs, hw, howes⟩)⟩
      · next s' hm =>
        rcases State.memWrite_cases hm with ⟨hf, -⟩ | ⟨hp, k, v', rfl⟩
        · cases hf
        · obtain ⟨h1, h2, -, h4, h5⟩ := wrote_word r i j (outs.eraseIdx (c.item % outs.length))
          refine ⟨⟨rfl, rfl, rfl, rfl, rfl, rfl, rfl, rfl⟩,
            .going _ rfl h1 h2 h4 (.same _ h5) ?_ rfl rfl rfl ⟨rfl, rfl, rfl, rfl, rfl⟩
              (.inr ⟨rfl, n, v', hp, rfl, j, List.mem_of_getElem? hi, outs, hw, howes⟩)⟩
          have := left_wrote_lt (outs' := outs.eraseIdx (c.item % outs.length)) hr hi hw
            (.inl (by rw [List.length_eraseIdx_of_lt hlt]; omega))
          simpa using this

/-- PICK[q] implies EDGE[q] (10_state.md R45). -/
theorem edge_of_pick (m : Matrix) (q : Fin 4) (h : (ruleOut m q).pick = true) : (ruleOut m q).edge = true := by
  revert h
  unfold ruleOut quadrant
  split
  · split <;> simp
  · simp

/-- The same of a racing PIXEL. -/
theorem edge_of_pick_racing (s : State) (r : Running) (q : Fin 4) (h : (s.racingOut r q).pick = true) :
    (s.racingOut r q).edge = true := by
  revert h
  unfold State.racingOut
  split
  · exact fun h => (Bool.and_eq_true_iff.mp h).1
  · exact edge_of_pick _ q

theorem pixel_completed {s u : State} (r : Running) (hu : ∃ n, u = s.useFree n) {o : Fin 4 → QuadrantOut}
    (h : ∀ q, (o q).pick = true → (o q).edge = true) :
    s.SameOutside (u.setPixelResults o).complete ∧ s.BlockEnd .pixel r (u.setPixelResults o).complete := by
  obtain ⟨n, rfl⟩ := hu
  exact ⟨⟨rfl, rfl, rfl, rfl, rfl, rfl, rfl, rfl⟩, .completed rfl rfl rfl rfl rfl
    (.inr ⟨rfl, fun q => (o q).edge, fun q => (o q).pick, rfl, h⟩)⟩

theorem res0_completed {s u : State} (i : Instr) (r : Running) (hu : ∃ n, u = s.useFree n) (v : Word) :
    s.SameOutside (u.setRes0 v).complete ∧ s.BlockEnd i r (u.setRes0 v).complete := by
  obtain ⟨n, rfl⟩ := hu
  exact ⟨⟨rfl, rfl, rfl, rfl, rfl, rfl, rfl, rfl⟩, .completed rfl rfl rfl rfl rfl (.inl rfl)⟩

theorem left_window_lt {r r' : Running} {win win' : Window} {s' : State} {n : Nat} (hr : r.checked = true)
    (hwin : win = r.window) {i : Instr} (ha : Running.AfterRead i r r')
    (hne : win.todo ≠ []) (hs : s'.schedule.length ≤ n)
    (h : (win.todo = [] ∧ win' = win) ∨
      ∃ i k w, win.todo[i]? = some k ∧ win' = ⟨win.todo.eraseIdx i, win.cells.set k w⟩) :
    ({ r' with window := win' } : Running).left + s'.schedule.length < r.left + n := by
  obtain ⟨-, h2, h3, -, h5, -, -, -⟩ := ha.same
  rcases h with ⟨he, -⟩ | ⟨i, k, w, hk, rfl⟩
  · exact absurd he hne
  · subst hwin
    have hlt := (List.getElem?_eq_some_iff.mp hk).1
    have hlen := List.length_eraseIdx_of_lt hlt
    simp only [Running.left, h3, h5, hr, if_true]
    omega

theorem length_window_le (q : Snapshot) (x y : Nat) {ks : List Nat} (h : ks.length ≤ 21) :
    (q.window x y ks).todo.length ≤ 21 := Nat.le_trans (length_inBoundsCells_le q x y ks) h

/-- PIXEL's step. -/
theorem pixelStep_cases (r : Running) (s : State) :
    s.SameOutside (pixelStep r s) ∧ s.BlockEnd .pixel r (pixelStep r s) := by
  unfold pixelStep
  by_cases h : r.checked = true
  · rw [if_pos h]
    split
    · next a ha =>
      obtain ⟨n, hn, ha⟩ := extraWord_eq_some ha
      exact extraRead_cases hn (List.mem_of_getElem? ha)
    · by_cases hc : r.window.todo.isEmpty = true
      · rw [if_pos hc]
        unfold pixelComplete
        split
        · exact pixel_completed r ⟨5, rfl⟩ (edge_of_pick_racing s r)
        · exact pixel_completed r ⟨0, rfl⟩ (edge_of_pick r.window.cells)
      · rw [if_neg hc]
        apply after_useChoice
        unfold pixelFetch
        split
        · exact fail_bus _ _ r
        · next win r' s' hf =>
          obtain ⟨⟨n, rfl⟩, ha, hwin⟩ := State.fetchNext_cases (i := .pixel) (fun k a => cellAddr_mem_cellWords) hf
          obtain ⟨h1, h2, -, -, -, -, h7, h8⟩ := ha.same
          exact ⟨⟨rfl, rfl, rfl, rfl, rfl, rfl, rfl, rfl⟩,
            .going _ rfl h1 h2 h7 h8 (left_window_lt h rfl ha (by simpa using hc) (Nat.le_refl _) hwin) rfl rfl rfl
              ⟨rfl, rfl, rfl, rfl, rfl⟩ (.inl rfl)⟩
  · rw [if_neg h]
    exact begin_cases s _ r _ [] (by simpa using h) (length_window_le _ _ _ (by decide)) (length_cellWords _ _ _ _).le
      (by simp)

/-- SAMPLE's step. -/
theorem sampleStep_cases (r : Running) (s : State) :
    s.SameOutside (sampleStep r s) ∧ s.BlockEnd .sample r (sampleStep r s) := by
  unfold sampleStep
  by_cases h : r.checked = true
  · rw [if_pos h]
    by_cases hc : r.window.todo.isEmpty = true
    · rw [if_pos hc]
      unfold sampleComplete
      split
      · exact res0_completed _ r ⟨1, rfl⟩ _
      · exact res0_completed _ r ⟨0, rfl⟩ _
    · rw [if_neg hc]
      split
      · exact fail_bus _ _ r
      · next w r' s' hf =>
        obtain ⟨⟨n, rfl⟩, ha⟩ := State.fetchCell_cases (i := .sample)
          (fun a hk => List.mem_filterMap.mpr ⟨_, List.mem_singleton_self _, hk⟩) hf
        obtain ⟨h1, h2, h3, -, h5, -, h7, h8⟩ := ha.same
        refine ⟨⟨rfl, rfl, rfl, rfl, rfl, rfl, rfl, rfl⟩,
          .going _ rfl h1 h2 h7 h8 ?_ rfl rfl rfl ⟨rfl, rfl, rfl, rfl, rfl⟩ (.inl rfl)⟩
        have : r.window.todo.length ≠ 0 := by simpa using hc
        simp only [Running.left, h3, h5, h, if_true, State.progress_schedule, State.useFree_schedule, List.length_nil]
        omega
  · rw [if_neg h]
    exact begin_cases s _ r _ [] (by simpa using h) (length_window_le _ _ _ (by simp)) (length_cellWords _ _ _ _).le
      (by simp)

/-- APPLY's step. -/
theorem applyStep_cases (r : Running) (s : State) :
    s.SameOutside (applyStep r s) ∧ s.BlockEnd .apply r (applyStep r s) := by
  unfold applyStep
  split
  · next h =>
    split
    · next a ha =>
      obtain ⟨n, hn, ha⟩ := extraWord_eq_some ha
      exact extraRead_cases hn (mem_sourceWords.mpr (isSource_of_sourceWord ha))
    · split
      · exact ⟨⟨rfl, rfl, rfl, rfl, rfl, rfl, rfl, rfl⟩, .completed rfl rfl rfl rfl rfl (.inl rfl)⟩
      · next j hj => exact after_useChoice (jobStep_cases h hj)
  · next h =>
    exact begin_cases s _ r _ _ (by simpa using h) (by simp [noWindow])
      (by simp [Snapshot.readable, Snapshot.sourceWords, noWindow, Snapshot.jobs, length_pixels]) (sum_left_jobs r.snap)

/-- Everything a step of the block can do. -/
theorem commandStep_cases (i : Instr) (r : Running) (s : State) :
    s.SameOutside (commandStep i r s) ∧ s.BlockEnd i r (commandStep i r s) := by
  have nojobs : (([] : List PixelJob).map fun j => j.work.left).sum ≤ 25 * (r.snap.w * r.snap.h) := by simp
  have begun : ∀ i, r.snap.readable i = [] → ¬ r.checked = true →
      s.SameOutside (s.begin i r noWindow []) ∧ s.BlockEnd i r (s.begin i r noWindow []) :=
    fun i hi h => begin_cases s i r _ [] (by simpa using h) (by simp [noWindow]) (by simp [hi]) nojobs
  cases i with
  | nop =>
    simp only [commandStep, nopStep]
    split
    · exact ⟨⟨rfl, rfl, rfl, rfl, rfl, rfl, rfl, rfl⟩, .completed rfl rfl rfl rfl rfl (.inl rfl)⟩
    · next h => exact begun _ rfl h
  | diff =>
    simp only [commandStep, diffStep]
    split
    · exact res0_completed _ r ⟨0, rfl⟩ _
    · next h => exact begun _ rfl h
  | blend =>
    simp only [commandStep, blendStep]
    split
    · exact res0_completed _ r ⟨0, rfl⟩ _
    · next h => exact begun _ rfl h
  | unpack =>
    simp only [commandStep, unpackStep]
    split
    · exact ⟨⟨rfl, rfl, rfl, rfl, rfl, rfl, rfl, rfl⟩, .completed rfl rfl rfl rfl rfl (.inl rfl)⟩
    · next h => exact begun _ rfl h
  | sample => exact sampleStep_cases r s
  | pixel => exact pixelStep_cases r s
  | apply => exact applyStep_cases r s

end Sys2Proof.Machine
end

