-- ==== Sys2Proof/Laws/PerInstr.lean ====
section
/-! SUPPORT. Statements about every command as syntax, one lemma per constructor of Instr. -/

namespace Sys2Proof.Laws.RoundTrip

/-- The command word of a command decodes to that command (30_encoding.md R111, R112). -/
def Statement (i : Instr) : Prop := decode (encode i) = .ok i

theorem nop : Statement .nop := by unfold Statement; decide
theorem apply : Statement .apply := by unfold Statement; decide
theorem pixel : Statement .pixel := by unfold Statement; decide
theorem sample : Statement .sample := by unfold Statement; decide
theorem diff : Statement .diff := by unfold Statement; decide
theorem blend : Statement .blend := by unfold Statement; decide
theorem unpack : Statement .unpack := by unfold Statement; decide

end Sys2Proof.Laws.RoundTrip
end

