-- ==== Sys2Proof/Laws/Step.lean ====
section
/-! SUPPORT. Everything one step of the machine can do, and the induction that carries a property over it. -/

namespace Sys2Proof.Machine

theorem decode_encode (i : Instr) : decode (encode i) = .ok i := by
  cases i
  · exact Laws.RoundTrip.nop
  · exact Laws.RoundTrip.apply
  · exact Laws.RoundTrip.pixel
  · exact Laws.RoundTrip.sample
  · exact Laws.RoundTrip.diff
  · exact Laws.RoundTrip.blend
  · exact Laws.RoundTrip.unpack

theorem wordStep_encode (i : Instr) : wordStep (encode i) = commandStep i := by
  unfold wordStep; rw [decode_encode]

theorem wordStep_of_decode {w : Word} {i : Instr} (h : decode w = .ok i) : wordStep w = commandStep i := by
  unfold wordStep; rw [h]

/-- A command's meaning issues its own steps with its own word. -/
theorem exec_eq_issue (i : Instr) (s : State) : exec i s = issue (commandStep i) (encode i) s := by cases i <;> rfl

theorem wordOf_fieldsOf (w : Word) : wordOf (fieldsOf w) = w := by
  apply BitVec.eq_of_toNat_eq
  have h : (wordOf (fieldsOf w)).toNat = (w.toNat / 2 ^ 4 % 2 ^ 28) * 2 ^ 4 + w.toNat % 2 ^ 4 := by
    unfold wordOf fieldsOf
    rw [BitVec.toNat_append, BitVec.extractLsb'_toNat, BitVec.extractLsb'_toNat, Nat.shiftRight_eq_div_pow,
      Nat.shiftRight_eq_div_pow, ← Nat.shiftLeft_add_eq_or_of_lt (Nat.mod_lt _ (by decide)), Nat.shiftLeft_eq]
    simp
  have := w.isLt
  omega

theorem opcodeOf_of_lookup : ∀ (op : BitVec 4) (i : Instr), opcodeMap.lookup op = some i → opcodeOf i = op := by
  intro op i
  revert op
  cases i <;> decide

/-- The only word of a command is the one the encoder gives (30_encoding.md R111, R112). -/
theorem eq_encode_of_decode {w : Word} {i : Instr} (h : decode w = .ok i) : w = encode i := by
  unfold decode decodeFields at h
  split at h
  · next hr =>
    split at h
    · next j hj =>
      obtain rfl : j = i := by simpa using h
      have hsv : (fieldsOf w).rsv = 0#28 := by simpa [CmdFields.rsvZero] using hr
      unfold encode
      rw [opcodeOf_of_lookup _ _ hj, ← hsv]
      exact (wordOf_fieldsOf w).symm
    · simp at h
  · simp at h

/-- Every CMD write issues the steps of its word. -/
theorem command_eq_issue (v : Word) (s : State) : command v s = issue (wordStep v) v s := by
  unfold command wordStep
  cases h : decode v with
  | ok i => exact (exec_eq_issue i s).trans (by rw [← eq_encode_of_decode h])
  | error e => rfl

theorem command_encode (i : Instr) (s : State) : command (encode i) s = exec i s := by
  unfold command; rw [decode_encode]

/-! ### The block's steps -/

theorem illegalStep_cases (i : Instr) (r : Running) (s : State) :
    s.SameOutside (illegalStep r s) ∧ s.BlockEnd i r (illegalStep r s) :=
  ⟨⟨rfl, rfl, rfl, rfl, rfl, rfl, rfl, rfl⟩, .failed .illegalCmd (by decide) rfl rfl rfl rfl ⟨rfl, rfl, rfl, rfl, rfl⟩ (.inl rfl)⟩

/-- A step of the block for the running command. -/
theorem wordStep_cases (r : Running) (s : State) :
    s.SameOutside (wordStep r.word r s) ∧
      ∃ i, (decode r.word = .ok i ∨ ∃ e, decode r.word = .error e) ∧ s.BlockEnd i r (wordStep r.word r s) ∧
        (i ≠ .nop → decode r.word = .ok i) := by
  cases h : decode r.word with
  | ok i =>
    rw [wordStep_of_decode h]
    exact ⟨(commandStep_cases i r s).1, i, .inl rfl, (commandStep_cases i r s).2, fun _ => rfl⟩
  | error e =>
    have hw : wordStep r.word = illegalStep := by unfold wordStep; rw [h]
    rw [hw]
    exact ⟨(illegalStep_cases .nop r s).1, .nop, .inr ⟨e, rfl⟩, (illegalStep_cases .nop r s).2, fun h => absurd rfl h⟩

/-- The running command keeps its word while it goes on. -/
theorem wordStep_word {r r' : Running} {s : State} (h : (wordStep r.word r s).engine = .running r') :
    r'.word = r.word := by
  obtain ⟨-, i, -, hb, -⟩ := wordStep_cases r s
  cases hb with
  | completed he => rw [he] at h; cases h
  | failed _ _ he => rw [he] at h; cases h
  | going q he hw => rw [he] at h; cases h; exact hw

/-- Induction over the block's steps: a property that one step of the running command keeps, and time passing keeps,
holds after a run of steps. -/
theorem runSteps_induct (P : State → Prop)
    (hstep : ∀ s r, s.engine = .running r → P s → P (wordStep r.word r s).tick) {w : Word} :
    ∀ (n : Nat) (s : State), (∀ r, s.engine = .running r → r.word = w) → P s → P (s.runSteps (wordStep w) n) := by
  intro n
  induction n with
  | zero => intro s _ h; exact h
  | succ n ih =>
    intro s hw h
    unfold State.runSteps
    cases he : s.engine with
    | idle => simpa using h
    | running r =>
      simp only
      split
      · exact h
      · have hr := hw r he
        subst hr
        refine ih _ (fun r' hr' => ?_) (hstep s r he h)
        exact wordStep_word (by simpa using hr')

/-- What a step of the machine is. -/
theorem step_eq (s : State) :
    step s = match s.landing with
      | some e => perform e { s with inputs := s.inputs.tail }
      | none => .next s.goOn := by
  unfold step State.landing
  cases s.inputs with
  | nil => rfl
  | cons i l =>
    simp only [List.tail_cons]
    split <;> rfl

/-- Without a running command an agent disturbs none. -/
theorem State.disturbed_idle {s : State} (h : s.engine = .idle) (b : Running → Instr → Bool) : s.disturbed b = s := by
  unfold State.disturbed; rw [h]

/-- What an agent disturbs a running command of a legal word by. -/
theorem State.disturbed_running {s : State} {r : Running} {i : Instr} (h : s.engine = .running r)
    (hd : decode r.word = .ok i) (b : Running → Instr → Bool) :
    s.disturbed b = if b r i then s.race r i else s := by
  unfold State.disturbed; rw [h]; simp only; rw [hd]

/-- An agent makes the running command race, or does nothing to it. -/
theorem State.disturbed_cases (s : State) (breaks : Running → Instr → Bool) :
    s.disturbed breaks = s ∨
      ∃ r i, s.engine = .running r ∧ decode r.word = .ok i ∧ breaks r i = true ∧ s.disturbed breaks = s.race r i := by
  cases he : s.engine with
  | idle => exact .inl (State.disturbed_idle he _)
  | running r =>
    cases hd : decode r.word with
    | error e => left; unfold State.disturbed; rw [he]; simp only; rw [hd]
    | ok i =>
      rw [State.disturbed_running he hd]
      by_cases hb : breaks r i = true
      · exact .inr ⟨r, i, rfl, hd, hb, if_pos hb⟩
      · exact .inl (if_neg hb)

theorem startError_of_racesAt {r : Running} {i : Instr} {a : Nat} (h : r.racesAt i a = true) :
    startError i r.snap = none := by
  unfold Running.racesAt at h; simp at h; exact h.1

theorem startError_of_drainRacesAt {r : Running} {i : Instr} {a : Nat} (h : r.drainRacesAt i a = true) :
    startError i r.snap = none := by
  unfold Running.drainRacesAt at h; simp at h; exact h.1.1

/-- The induction package: a property that every shared operation keeps is kept by every step of the machine. -/
theorem step_induct (P : State → Prop)
    (hinputs : ∀ s l, P s → P { s with inputs := l })
    (hread : ∀ s v, P s → P { s with readData := v })
    (hwrite : ∀ s n v, s.rst = false → P s → P (s.setReg v n))
    (hbyte : ∀ s (a : Word) v, P s → P (s.storeByte a.toNat v))
    (hword : ∀ s (n : BitVec 30) v, P s → P (s.storeWord (4 * n.toNat) v))
    (hheld : ∀ s l, P s → P (s.setHeld l))
    (hrace : ∀ s r i, s.engine = .running r → decode r.word = .ok i → startError i r.snap = none → P s → P (s.race r i))
    (hrst : ∀ s b, P s → P (s.setRst b))
    (hbus : ∀ s l, P s → P { s with busErrors := l })
    (haccept : ∀ s w, s.engine = .idle → s.rst = false → P s → P (s.accept w))
    (hoverrun : ∀ s, s.rst = false → P s → P s.overrun)
    (hblock : ∀ s r, s.engine = .running r → P s → P (wordStep r.word r s))
    {s t : State} (hs : P s) (h : step s = .next t) : P t := by
  have htick : ∀ s, P s → P s.tick := fun s h => hinputs s _ h
  have hgo : ∀ s r, s.engine = .running r → P s → P (wordStep r.word r s).tick :=
    fun s r he h => htick _ (hblock s r he h)
  have hrun : ∀ s w, (∀ r, s.engine = .running r → r.word = w) → P s → P (s.runBlock (wordStep w)) :=
    fun s w hw h => runSteps_induct P hgo _ s hw h
  have hdist : ∀ s b, (∀ r i, b r i = true → startError i r.snap = none) → P s → P (s.disturbed b) := by
    intro s b hb h
    rcases s.disturbed_cases b with he | ⟨r, i, h1, h2, h3, he⟩
    · rw [he]; exact h
    · rw [he]; exact hrace s r i h1 h2 (hb r i h3) h
  rw [step_eq] at h
  split at h
  · next e he =>
    have hs' : P { s with inputs := s.inputs.tail } := hinputs s _ hs
    revert h hs'
    generalize { s with inputs := s.inputs.tail } = u
    intro h hs'
    cases e with
    | regRead off =>
      simp only [perform] at h
      split at h
      · cases h; exact hread u _ hs'
      · cases h
    | regWrite off v =>
      simp only [perform] at h
      split at h
      · split at h
        · rw [command_eq_issue] at h
          unfold issue at h
          split at h
          · cases h; exact hs'
          · next hr =>
            split at h
            · cases h; exact hoverrun u (by simpa using hr) hs'
            · next hb =>
              cases h
              have hidle : u.engine = .idle := by
                cases hu : u.engine with
                | idle => rfl
                | running r => simp [State.busy, hu] at hb
              exact hrun _ _ (fun r hr' => by simp at hr'; rw [← hr']) (haccept u v hidle (by simpa using hr) hs')
        · cases h
          unfold State.writeReg
          split
          · exact hs'
          · next hr =>
            split
            · exact hwrite u _ v (by simpa using hr) hs'
            · exact hs'
      · cases h
    | store a v =>
      simp only [perform] at h
      cases h
      exact hdist _ _ (fun _ _ => startError_of_racesAt) (hbyte u a v hs')
    | hold n v =>
      simp only [perform] at h
      cases h
      exact hdist _ _ (fun _ _ => startError_of_racesAt) (hheld u _ hs')
    | drain n =>
      simp only [perform] at h
      cases h
      unfold State.drain
      split
      · exact hs'
      · exact hdist _ _ (fun _ _ => startError_of_drainRacesAt) (hheld _ _ (hword u n _ hs'))
    | rst b => simp only [perform] at h; cases h; exact hrst u b hs'
    | busErrors l => simp only [perform] at h; cases h; exact hbus u l hs'
  · cases h
    unfold State.goOn
    split
    · unfold State.wait
      split
      · exact hs
      · exact hinputs s _ hs
    · next r he => exact hrun s r.word (fun r' hr' => by rw [he] at hr'; cases hr'; rfl) hs

end Sys2Proof.Machine
end

