-- ==== Sys2Proof/Laws/Events.lean ====
section
/-! SUPPORT. What passing the start checks says, and everything a store by another agent can do. -/

namespace Sys2Proof.Machine

theorem checkSrcLen_none (q : Snapshot) : checkSrcLen q = none ↔ q.srcLen.toNat = q.w * q.h := by
  unfold checkSrcLen; split <;> simp_all

theorem checkDstLen_none (q : Snapshot) : checkDstLen q = none ↔ q.dstLen.toNat = (2 * q.w) * (2 * q.h) := by
  unfold checkDstLen; split <;> simp_all

theorem nonEmpty_iff (q : Snapshot) : q.nonEmpty = true ↔ q.w * q.h ≠ 0 := by simp [Snapshot.nonEmpty]

theorem checkSrcAlign_none (q : Snapshot) : checkSrcAlign q = none ↔ (q.w * q.h ≠ 0 → q.srcBase.toNat % 4 = 0) := by
  unfold checkSrcAlign; simp only [nonEmpty_iff]; split <;> simp_all

theorem checkDstAlign_none (q : Snapshot) : checkDstAlign q = none ↔ (q.w * q.h ≠ 0 → q.dstBase.toNat % 4 = 0) := by
  unfold checkDstAlign; simp only [nonEmpty_iff]; split <;> simp_all

theorem checkSrcRange_none (q : Snapshot) : checkSrcRange q = none ↔ (q.w * q.h ≠ 0 → q.srcEnd ≤ 2 ^ 32) := by
  unfold checkSrcRange; simp only [nonEmpty_iff]; split <;> simp_all

theorem checkDstRange_none (q : Snapshot) : checkDstRange q = none ↔ (q.w * q.h ≠ 0 → q.dstEnd ≤ 2 ^ 32) := by
  unfold checkDstRange; simp only [nonEmpty_iff]; split <;> simp_all

theorem checkOverlap_none (q : Snapshot) :
    checkOverlap q = none ↔ (q.w * q.h ≠ 0 → q.dstEnd ≤ q.srcBase.toNat ∨ q.srcEnd ≤ q.dstBase.toNat) := by
  unfold checkOverlap; simp only [nonEmpty_iff]
  split
  · next h => simp only [reduceCtorEq, false_iff, Classical.not_imp, not_or, not_le]; exact h
  · next h => simp only [true_iff]; intro h0; by_contra hc; exact h ⟨h0, by omega, by omega⟩

theorem checkArg_none (q : Snapshot) : checkArg q = none ↔ q.opk.toNat ≤ 20 := by
  unfold checkArg; split <;> simp_all

theorem startError_none_iff (i : Instr) (q : Snapshot) : startError i q = none ↔ ∀ f ∈ startChecks i, f q = none := by
  simp [startError, List.findSome?_eq_none_iff]

/-- Passing the start checks of APPLY (60_exceptions.md R282, R285 to R289). -/
theorem startError_apply_none_iff (q : Snapshot) : startError .apply q = none ↔ q.SrcOk ∧ q.DstOk := by
  simp only [startError_none_iff, startChecks, List.forall_mem_cons, checkSrcLen_none, checkDstLen_none,
    checkSrcAlign_none, checkDstAlign_none, checkSrcRange_none, checkDstRange_none, checkOverlap_none]
  unfold Snapshot.SrcOk Snapshot.DstOk Snapshot.srcEnd Snapshot.dstEnd
  by_cases h0 : q.w * q.h = 0 <;> (simp [h0]; try tauto)

/-- Passing the start checks of PIXEL (60_exceptions.md R282). -/
theorem startError_pixel_none_iff (q : Snapshot) : startError .pixel q = none ↔ q.SrcOk := by
  simp only [startError_none_iff, startChecks, List.forall_mem_cons, checkSrcLen_none, checkSrcAlign_none,
    checkSrcRange_none]
  unfold Snapshot.SrcOk Snapshot.srcEnd
  by_cases h0 : q.w * q.h = 0 <;> simp [h0]

/-- Passing the start checks of SAMPLE (60_exceptions.md R282). -/
theorem startError_sample_none_iff (q : Snapshot) : startError .sample q = none ↔ q.SrcOk ∧ q.opk.toNat ≤ 20 := by
  simp only [startError_none_iff, startChecks, List.forall_mem_cons, checkSrcLen_none, checkSrcAlign_none,
    checkSrcRange_none, checkArg_none]
  unfold Snapshot.SrcOk Snapshot.srcEnd
  by_cases h0 : q.w * q.h = 0 <;> (simp [h0]; try tauto)

/-- What a race does to the state (20_memory.md R94; log 7). -/
theorem State.race_eq (s : State) (r : Running) (i : Instr) :
    s.race r i =
      if i = .apply then
        { s with
          mem := s.mem.freeWords r.snap.dstBase.toNat s.freeCount r.snap.dstLen.toNat
          freeCount := s.freeCount + r.snap.dstLen.toNat
          engine := .running { r with raced := true } }
      else { s with engine := .running { r with raced := true } } := by
  cases i <;> rfl

/-- A store to the byte at a breaks the rule exactly where the running command uses that byte (20_memory.md R94). -/
theorem racesAt_iff {s : State} {r : Running} {i : Instr} {a : Nat} (he : s.engine = .running r)
    (hd : decode r.word = .ok i) : r.racesAt i a = true ↔ s.UsesByte a := by
  have hw := eq_encode_of_decode hd
  have huse : s.UsesByte a ↔
      (r.word = encode .pixel ∧ r.snap.SrcOk ∧ r.snap.inSrc a = true) ∨
        (r.word = encode .sample ∧ r.snap.SrcOk ∧ r.snap.opk.toNat ≤ 20 ∧ r.snap.inSrc a = true) ∨
          (r.word = encode .apply ∧ r.snap.SrcOk ∧ r.snap.DstOk ∧ (r.snap.inSrc a = true ∨ r.snap.inDst a = true)) :=
    ⟨fun ⟨r', hr', h⟩ => by rw [he] at hr'; cases hr'; exact h, fun h => ⟨r, he, h⟩⟩
  rw [huse, hw]
  unfold Running.racesAt
  simp only [Bool.and_eq_true, Option.isNone_iff_eq_none]
  cases i with
  | pixel => rw [startError_pixel_none_iff]; simp [readsSource, writesDestination, encode, opcodeOf, wordOf]
  | sample =>
    rw [startError_sample_none_iff]; simp [readsSource, writesDestination, encode, opcodeOf, wordOf, and_assoc]
  | apply =>
    rw [startError_apply_none_iff]; simp [readsSource, writesDestination, encode, opcodeOf, wordOf, and_assoc]
  | nop => simp [readsSource, writesDestination, encode, opcodeOf, wordOf]
  | diff => simp [readsSource, writesDestination, encode, opcodeOf, wordOf]
  | blend => simp [readsSource, writesDestination, encode, opcodeOf, wordOf]
  | unpack => simp [readsSource, writesDestination, encode, opcodeOf, wordOf]

/-- Performing a store at the byte at a breaks the rule exactly where the running command is an APPLY with that byte in its
destination (20_memory.md R94, 70_reset_and_hazards.md R331). -/
theorem drainRacesAt_iff {s : State} {r : Running} {i : Instr} {a : Nat} (he : s.engine = .running r)
    (hd : decode r.word = .ok i) : r.drainRacesAt i a = true ↔ s.OverwritesByte a := by
  have hw := eq_encode_of_decode hd
  have huse : s.OverwritesByte a ↔
      (r.word = encode .apply ∧ r.snap.SrcOk ∧ r.snap.DstOk ∧ r.snap.inDst a = true) :=
    ⟨fun ⟨r', hr', h⟩ => by rw [he] at hr'; cases hr'; exact h, fun h => ⟨r, he, h⟩⟩
  rw [huse, hw]
  unfold Running.drainRacesAt
  simp only [Bool.and_eq_true, Option.isNone_iff_eq_none]
  cases i with
  | apply => rw [startError_apply_none_iff]; simp [writesDestination, and_assoc]
  | pixel => simp [writesDestination, encode, opcodeOf, wordOf]
  | sample => simp [writesDestination, encode, opcodeOf, wordOf]
  | nop => simp [writesDestination, encode, opcodeOf, wordOf]
  | diff => simp [writesDestination, encode, opcodeOf, wordOf]
  | blend => simp [writesDestination, encode, opcodeOf, wordOf]
  | unpack => simp [writesDestination, encode, opcodeOf, wordOf]

/-- Where what an agent has done breaks no rule it leaves the running command alone. -/
theorem State.disturbed_of_not {s : State} {b : Running → Instr → Bool} {p : Prop}
    (hb : ∀ r i, s.engine = .running r → decode r.word = .ok i → b r i = true → p) (hp : ¬p) : s.disturbed b = s := by
  rcases s.disturbed_cases b with h | ⟨r, i, h1, h2, h3, -⟩
  · exact h
  · exact absurd (hb r i h1 h2 h3) hp

/-- The running command whose bytes an agent may not store to. -/
theorem State.UsesByte.running {s : State} {a : Nat} (h : s.UsesByte a) :
    ∃ r i, s.engine = .running r ∧ decode r.word = .ok i := by
  obtain ⟨r, he, ⟨h, -⟩ | ⟨h, -⟩ | ⟨h, -⟩⟩ := h
  · exact ⟨r, .pixel, he, by rw [h]; exact decode_encode .pixel⟩
  · exact ⟨r, .sample, he, by rw [h]; exact decode_encode .sample⟩
  · exact ⟨r, .apply, he, by rw [h]; exact decode_encode .apply⟩

/-- The address that a word number stands for (20_memory.md R80, R82). -/
theorem heldWord_number (s : State) (n : BitVec 30) : s.heldWord (4 * n.toNat) = s.held.lookup n := by
  unfold State.heldWord
  rw [Nat.mul_div_cancel_left _ (by decide : 0 < 4), BitVec.ofNat_toNat, BitVec.setWidth_eq]

end Sys2Proof.Machine
end

