-- ==== Sys2Proof/Laws/Scan.lean ====
section
/-! SUPPORT. APPLY's scan: every step keeps `Running.ScanLegal`, and the destination cells of a pixel lie in the destination. -/

namespace Sys2Proof.Machine

theorem map_fst_eraseIdx_sublist {α β : Type} (l : List (α × β)) (i : Nat) {s : List α}
    (h : (l.map Prod.fst).Sublist s) : ((l.eraseIdx i).map Prod.fst).Sublist s :=
  ((List.eraseIdx_sublist l i).map _).trans h

theorem map_set_same {α β : Type} (f : α → β) (l : List α) (i : Nat) {a b : α} (h : l[i]? = some a) (hf : f b = f a) :
    (l.set i b).map f = l.map f := by
  induction l generalizing i with
  | nil => rfl
  | cons c l ih => cases i with
    | zero => simp at h; subst h; simp [hf]
    | succ i => simp at h; simp [ih i h]

theorem legal_window (q : Snapshot) (x y : Nat) (ks : List Nat) : (q.window x y ks).Legal q x y ks :=
  ⟨by simp [Snapshot.window], List.Sublist.refl _, fun k hk _ => by simp [Snapshot.window, hk]⟩

/-- Filling a lacking cell keeps the matrix legal. -/
theorem legal_filled {q : Snapshot} {x y : Nat} {ks : List Nat} {win : Window} (h : win.Legal q x y ks) {i k : Nat}
    (hk : win.todo[i]? = some k) (w : Word) :
    Window.Legal q x y ks ⟨win.todo.eraseIdx i, win.cells.set k w⟩ := by
  refine ⟨by simpa using h.1, (List.eraseIdx_sublist _ _).trans h.2.1, fun k' hk' hn => ?_⟩
  have hin := (List.mem_filter.mp (h.2.1.subset (List.mem_of_getElem? hk))).2
  have hne : k ≠ k' := by rintro rfl; rw [hn] at hin; cases hin
  simp only
  rw [List.getElem?_set_ne hne]
  exact h.2.2 k' hk' hn

theorem legal_fetched {q : Snapshot} {x y : Nat} {ks : List Nat} {win win' : Window} (h : win.Legal q x y ks)
    (hf : (win.todo = [] ∧ win' = win) ∨
      ∃ i k w, win.todo[i]? = some k ∧ win' = ⟨win.todo.eraseIdx i, win.cells.set k w⟩) : win'.Legal q x y ks := by
  rcases hf with ⟨-, rfl⟩ | ⟨i, k, w, hk, rfl⟩
  · exact h
  · exact legal_filled h hk w

theorem scanLegal_begun {r : Running} (hn : startError .apply r.snap = none) (win) (n : Nat) (ra : Bool) :
    ({ r with
        checked := true, window := win, reads := [], rereads := n, todo := r.snap.jobs, doneSet := [],
        raced := ra } : Running).ScanLegal := by
  intro _
  refine ⟨hn, ?_, ?_⟩
  · simp [Snapshot.jobs, List.map_map]
    have : ((fun j : PixelJob => (j.x, j.y)) ∘
        fun p : Nat × Nat => (⟨p.1, p.2, .sampling (r.snap.window p.1 p.2 allCells)⟩ : PixelJob)) = id := by
      funext p; rfl
    rw [this]; simp
  · intro j hj
    obtain ⟨p, -, rfl⟩ := List.mem_map.mp hj
    exact legal_window _ _ _ _

theorem mem_of_mem_set {α : Type} {l : List α} {i : Nat} {a b : α} (h : b ∈ l.set i a) : b = a ∨ b ∈ l := by
  rcases List.mem_or_eq_of_mem_set h with h | h
  · exact .inr h
  · exact .inl h

theorem perm_eraseIdx_snoc {α : Type} {l : List α} {i : Nat} {a : α} (h : l[i]? = some a) (d : List α) :
    ((d ++ [a]) ++ l.eraseIdx i).Perm (d ++ l) := by
  have : (a :: l.eraseIdx i).Perm l := by
    obtain ⟨hi, rfl⟩ := List.getElem?_eq_some_iff.mp h
    exact List.getElem_cons_eraseIdx_perm hi
  simpa using this.append_left d

/-- The work on a pixel is legal whatever its matrix holds. -/
theorem legal_sampledWork {q : Snapshot} {x y : Nat} {win : Window} (h : win.Legal q x y allCells) :
    (PixelJob.mk x y (sampledWork q x y win)).Legal q := by
  unfold PixelJob.Legal sampledWork
  by_cases he : win.todo.isEmpty = true
  · simp only [he, if_true]
    exact ⟨by simp [quadrantWrites], by simp [quadrantWrites]⟩
  · simp only [he]
    exact h

theorem jobStep_scanLegal {r r' : Running} {i : Nat} {j : PixelJob} {c : Choice} {s : State} (hr : r.checked = true)
    (hi : r.todo[i]? = some j) (h : r.ScanLegal) (h' : (jobStep r i j c s).engine = .running r') : r'.ScanLegal := by
  obtain ⟨hn, hp, hj⟩ := h hr
  have hjm := List.mem_of_getElem? hi
  have hl := hj j hjm
  unfold PixelJob.Legal at hl
  unfold jobStep at h'
  cases hw : j.work with
  | sampling win =>
    rw [hw] at h' hl
    simp only at h' hl
    split at h'
    · cases h'
    · next win' r1 s' hf =>
      simp at h'
      subst h'
      obtain ⟨-, ha, hwin⟩ :=
        State.fetchNext_cases (i := .apply) (fun k a h => mem_sourceWords.mpr (isSource_of_cellAddr h)) hf
      obtain ⟨-, h2, -, -, -, h6, -, -⟩ := ha.same
      intro _
      simp only [h2, h6]
      refine ⟨hn, ?_, ?_⟩
      · simpa [map_set_same _ _ _ hi] using hp
      · intro k hk
        rcases mem_of_mem_set hk with rfl | hk
        · exact legal_sampledWork (legal_fetched hl hwin)
        · exact hj k hk
  | writing outs =>
    have key : ∀ outs' : List (Nat × Word), (outs'.map Prod.fst).Sublist [r.snap.dstCell j.x j.y 0, r.snap.dstCell j.x j.y 1, r.snap.dstCell j.x j.y 2, r.snap.dstCell j.x j.y 3] → (r.wrote i j outs').ScanLegal := by
      intro outs' hs _
      unfold Running.wrote
      cases outs' with
      | nil =>
        refine ⟨hn, ?_, ?_⟩
        · refine List.Perm.trans ?_ hp
          rw [← List.eraseIdx_map]
          exact perm_eraseIdx_snoc (by simp [hi]) r.doneSet
        · intro k hk
          exact hj k (List.mem_of_mem_eraseIdx hk)
      | cons a t =>
        refine ⟨hn, ?_, ?_⟩
        · simpa [map_set_same _ _ _ hi] using hp
        · intro k hk
          rcases mem_of_mem_set hk with rfl | hk
          · exact ⟨by simp, hs⟩
          · exact hj k hk
    rw [hw] at h' hl
    simp only at h' hl
    split at h'
    · simp at h'; subst h'; exact key [] (by simp)
    · split at h'
      · cases h'
      · simp at h'; subst h'; exact key _ (map_fst_eraseIdx_sublist _ _ hl.2)

/-- An extra read changes nothing of the command but its reads. -/
theorem extraRead_engine {i : Instr} {r r' : Running} {s : State} {a : Nat} (hread : a ∈ r.snap.readable i)
    (h : (s.extraRead r a).engine = .running r') : r' = { r with reads := r'.reads, rereads := r'.rereads } := by
  unfold State.extraRead at h
  split at h
  · cases h
  · next hw =>
    obtain ⟨-, ha, -⟩ := State.fetchWord_cases hread hw
    simp at h; subst h; exact ha

/-- A step of APPLY keeps its scan legal. -/
theorem applyStep_scanLegal {r r' : Running} {s : State} (h : r.ScanLegal)
    (h' : (applyStep r s).engine = .running r') : r'.ScanLegal := by
  unfold applyStep at h'
  by_cases hr : r.checked = true
  · rw [if_pos hr] at h'
    split at h'
    · next a ha =>
      obtain ⟨n, -, ha⟩ := extraWord_eq_some ha
      rw [extraRead_engine (i := .apply) (mem_sourceWords.mpr (isSource_of_sourceWord ha)) h']
      exact h
    · split at h'
      · cases h'
      · next j hj => exact jobStep_scanLegal hr hj h h'
  · rw [if_neg hr, begin_eq] at h'
    split at h'
    · cases h'
    · next hn =>
      simp at h'
      subst h'
      exact scanLegal_begun hn _ _ _

/-- A read takes a word that has not been read off those that have not. -/
theorem unread_read {r r' : Running} {a : Nat} {w : Word} (l : List Nat) (hl : r'.reads = (a, w) :: r.reads) :
    (r'.unread l).length ≤ (r.unread l).length ∧
      ((∀ p ∈ r.reads, p.1 ≠ a) → a ∈ l → (r'.unread l).length < (r.unread l).length) := by
  have hf : r'.unread l = (r.unread l).filter fun b => !(a == b) := by
    unfold Running.unread
    rw [hl, List.filter_filter]
    simp only [List.any_cons, Bool.not_or]
  rw [hf]
  refine ⟨List.length_filter_le _ _, fun hno ha => ?_⟩
  refine List.length_filter_lt_length_iff_exists.mpr ⟨a, List.mem_filter.mpr ⟨ha, ?_⟩, by simp⟩
  simpa using hno

/-- A step of command i keeps its reads legal (20_memory.md R88, 70_reset_and_hazards.md R341). -/
theorem readsLegal_next {i : Instr} {r r' : Running} (h : r.ReadsLegal) (hw : r'.word = r.word) (hs : r'.snap = r.snap)
    (hi : r.readable = r.snap.readable i) (hn : Running.ReadsNext i r r') : r'.ReadsLegal := by
  have hi' : r'.readable = r.snap.readable i := by
    rw [← hi]; unfold Running.readable; rw [hw, hs]
  unfold Running.ReadsLegal at *
  rw [hi] at h
  rw [hi', hs]
  obtain ⟨h1, h2⟩ := h
  rcases hn with ⟨hn, hr⟩ | ⟨hn, hr⟩ | ⟨a, w, ha, hn, hr⟩
  · have : (r'.unread (r.snap.readable i)).length ≤ (r.snap.readable i).length := List.length_filter_le _ _
    have hm : r.snap.maxReads = 21 * (r.snap.width.toNat * r.snap.height.toNat) := rfl
    rw [hn]
    refine ⟨fun p hp => by (cases hp), ?_⟩
    simp only [List.length_nil]
    omega
  · have : r'.unread (r.snap.readable i) = r.unread (r.snap.readable i) := by unfold Running.unread; rw [hn]
    rw [this, hn, hr]
    exact ⟨h1, h2⟩
  · obtain ⟨g1, g2⟩ := unread_read (r.snap.readable i) hn
    rw [hn]
    refine ⟨fun p hp => ?_, ?_⟩
    · rcases List.mem_cons.mp hp with rfl | hp
      · exact ha
      · exact h1 p hp
    · rw [List.length_cons]
      rcases hr with ⟨hr, hno⟩ | hr
      · have := g2 hno ha
        omega
      · omega

theorem mem_pixels {q : Snapshot} {x y : Nat} : (x, y) ∈ q.pixels ↔ x < q.w ∧ y < q.h := by
  unfold Snapshot.pixels
  simp only [List.mem_map, List.mem_range, Prod.mk.injEq]
  constructor
  · rintro ⟨n, hn, rfl, rfl⟩
    have hw : 0 < q.w := by
      rcases Nat.eq_zero_or_pos q.w with h | h
      · simp [h] at hn
      · exact h
    exact ⟨Nat.mod_lt _ hw, Nat.div_lt_of_lt_mul hn⟩
  · rintro ⟨hx, hy⟩
    refine ⟨q.w * y + x, ?_, ?_, ?_⟩
    · have := Nat.mul_le_mul_left q.w (show y + 1 ≤ q.h from hy)
      rw [Nat.mul_add] at this
      omega
    · rw [Nat.mul_add_mod, Nat.mod_eq_of_lt hx]
    · rw [Nat.mul_add_div (by omega), Nat.div_eq_of_lt hx, Nat.add_zero]

/-- A destination cell of a source pixel lies in the destination (45_scan_driver.md R252). -/
theorem dstCell_lt {q : Snapshot} {x y : Nat} (hx : x < q.w) (hy : y < q.h) (k : Fin 4) :
    q.dstCell x y k < 4 * (q.w * q.h) := by
  unfold Snapshot.dstCell
  have h1 : 2 * y + k.val / 2 + 1 ≤ 2 * q.h := by omega
  have h2 : 2 * x + k.val % 2 < 2 * q.w := by omega
  have h3 := Nat.mul_le_mul_right (2 * q.w) h1
  have h4 : 2 * q.h * (2 * q.w) = 4 * (q.w * q.h) := by ring
  rw [Nat.add_mul, Nat.one_mul] at h3
  omega

/-- The writes left of an unfinished pixel go to cells of the destination. -/
theorem lt_of_mem_outs {r : Running} (h : r.ScanLegal) (hc : r.checked = true) {j : PixelJob} (hj : j ∈ r.todo)
    {outs : List (Nat × Word)} (hw : j.work = .writing outs) {n : Nat} (hn : n ∈ outs.map Prod.fst) :
    n < 4 * (r.snap.w * r.snap.h) := by
  obtain ⟨-, hp, hl⟩ := h hc
  have hl := hl j hj
  unfold PixelJob.Legal at hl
  rw [hw] at hl
  have hxy : (j.x, j.y) ∈ r.snap.pixels :=
    hp.subset (List.mem_append_right _ (List.mem_map.mpr ⟨j, hj, rfl⟩))
  obtain ⟨hx, hy⟩ := mem_pixels.mp hxy
  have := hl.2.subset hn
  simp only [List.mem_cons, List.not_mem_nil, or_false] at this
  rcases this with rfl | rfl | rfl | rfl <;> exact dstCell_lt hx hy _

end Sys2Proof.Machine
end

