-- ==== Sys2Proof/Laws/Access.lean ====
section
/-! SUPPORT. The addresses the block issues lie in its buffers, and what its reads and writes do while no other agent disturbs it (20_memory.md R84 to R88, 41_neighborhood_sampler.md R162). -/

namespace Sys2Proof.Machine

/-- A source word lies in the source buffer, at a multiple of 4, below 2^32. -/
theorem isSource_bounds {q : Snapshot} {a : Nat} (hs : q.SrcOk) (ha : q.IsSource a) :
    a % 4 = 0 ∧ q.srcBase.toNat ≤ a ∧ a + 4 ≤ q.srcEnd ∧ q.srcEnd ≤ 2 ^ 32 := by
  obtain ⟨n, hn, rfl⟩ := ha
  obtain ⟨hl, hb⟩ := hs
  obtain ⟨hal, hr⟩ := hb (by omega)
  unfold Snapshot.srcEnd
  refine ⟨by omega, by omega, by omega, hr⟩

theorem inSrc_of_isSource {q : Snapshot} {a : Nat} (hs : q.SrcOk) (ha : q.IsSource a) : q.inSrc a = true := by
  obtain ⟨-, h2, h3, -⟩ := isSource_bounds hs ha
  simp only [Snapshot.inSrc, Bool.and_eq_true, decide_eq_true_eq]
  omega

/-- The word of a destination cell lies in the destination buffer, at a multiple of 4, below 2^32. -/
theorem dstAddr_bounds {q : Snapshot} {n : Nat} (hd : q.DstOk) (hn : n < 4 * (q.w * q.h)) :
    q.dstAddr n % 4 = 0 ∧ q.dstBase.toNat ≤ q.dstAddr n ∧ q.dstAddr n + 4 ≤ q.dstEnd ∧ q.dstEnd ≤ 2 ^ 32 := by
  obtain ⟨hl, hb⟩ := hd
  obtain ⟨hal, hr, -⟩ := hb (by omega)
  have : 2 * q.w * (2 * q.h) = 4 * (q.w * q.h) := by ring
  unfold Snapshot.dstAddr Snapshot.dstEnd
  refine ⟨by omega, by omega, by omega, hr⟩

theorem wordAddr_iff {a : Nat} : wordAddr a = true ↔ a % 4 = 0 ∧ a < 2 ^ 32 := by
  simp only [wordAddr, Bool.and_eq_true, beq_iff_eq, decide_eq_true_eq]

theorem portOk_iff {s : State} {k : Access} {a : Nat} (ha : wordAddr a = true) :
    s.portOk k a = true ↔ (k, a) ∉ s.busErrors := by
  simp [State.portOk, ha]

/-- A word of the source keeps its value when a destination cell is written (20_memory.md R95). -/
theorem source_of_dstWrite {q : Snapshot} {m : Memory} {n a : Nat} {v : Word} (hm : m.wf) (hs : q.SrcOk)
    (hd : q.DstOk) (hn : n < 4 * (q.w * q.h)) (ha : q.IsSource a) :
    (m.writeWord (q.dstAddr n) v).readWord a = m.readWord a := by
  obtain ⟨-, h2, h3, -⟩ := isSource_bounds hs ha
  obtain ⟨-, g2, g3, -⟩ := dstAddr_bounds hd hn
  obtain ⟨hl, hb⟩ := hd
  obtain ⟨-, -, hov⟩ := hb (by omega)
  unfold Snapshot.srcEnd Snapshot.dstEnd at *
  exact Memory.readWord_writeWord_of_ne hm.1 v (by omega)

/-- Every read of the command returned the word of memory m and was not one of the accesses l. -/
def Running.ReadsRight (m : Memory) (l : List (Access × Nat)) (r : Running) : Prop :=
  ∀ p ∈ r.reads, p.2 = m.readWord p.1 ∧ (Access.read, p.1) ∉ l

/-- The matrix holds the words of memory m, for those of the cells ks that are not lacking, whose reads were not among l. -/
def Window.Right (m : Memory) (l : List (Access × Nat)) (q : Snapshot) (x y : Nat) (ks : List Nat) (win : Window) : Prop :=
  win.Legal q x y ks ∧
    ∀ k ∈ ks, k < nCells → k ∉ win.todo →
      win.cells[k]? = some (sampleCell m q x y k) ∧ ∀ a, q.cellAddr x y k = some a → (Access.read, a) ∉ l

/-- What holds while no other agent disturbs the reads of command i. -/
structure Undisturbed (i : Instr) (m : Memory) (q : Snapshot) (r : Running) (u : State) : Prop where
  snap : r.snap = q
  raced : r.raced = false
  source : ∀ a, q.IsSource a → u.mem.readWord a = m.readWord a
  held : ∀ a ∈ q.readable i, u.heldWord a = none
  reads : r.ReadsRight m u.busErrors

/-- A read is answered with its word in memory, or with `bus_error` if the platform says so. -/
theorem readWord_right {i : Instr} {m : Memory} {q : Snapshot} {r : Running} {u : State} {a : Nat} (hs : q.SrcOk)
    (h : Undisturbed i m q r u) (ha : a ∈ q.readable i) :
    (u.readWord r a = none ∧ (Access.read, a) ∈ u.busErrors) ∨
      (u.readWord r a = some (m.readWord a, { r with reads := (a, m.readWord a) :: r.reads }, u) ∧
        Running.ReadsRight m u.busErrors { r with reads := (a, m.readWord a) :: r.reads } ∧
        (Access.read, a) ∉ u.busErrors) := by
  have hsrc := isSource_of_readable ha
  obtain ⟨h1, -, h3, h4⟩ := isSource_bounds hs hsrc
  have hp := portOk_iff (s := u) (k := .read) (wordAddr_iff.mpr ⟨h1, by omega⟩)
  unfold State.readWord State.memRead State.answer
  by_cases hb : (Access.read, a) ∈ u.busErrors
  · have : u.portOk .read a = false := by simpa [hb] using hp
    rw [this]
    exact .inl ⟨rfl, hb⟩
  · rw [if_pos (hp.mpr hb), h.raced, h.held a ha, ← h.source a hsrc]
    refine .inr ⟨rfl, ?_, hb⟩
    intro p hp'
    rcases List.mem_cons.mp hp' with rfl | hp'
    · exact ⟨h.source a hsrc, hb⟩
    · exact h.reads p hp'

theorem fetchWord_right {i : Instr} {m : Memory} {q : Snapshot} {r : Running} {u : State} {a : Nat} (reuse : Option Nat)
    (hs : q.SrcOk) (h : Undisturbed i m q r u) (ha : a ∈ q.readable i) :
    (u.fetchWord r reuse a = none ∧ (Access.read, a) ∈ u.busErrors) ∨
      ∃ r', u.fetchWord r reuse a = some (m.readWord a, r', u) ∧ r'.ReadsRight m u.busErrors ∧
        (Access.read, a) ∉ u.busErrors := by
  have hread : ∀ n, (u.readWord { r with rereads := n } a = none ∧ (Access.read, a) ∈ u.busErrors) ∨
      ∃ r', u.readWord { r with rereads := n } a = some (m.readWord a, r', u) ∧ r'.ReadsRight m u.busErrors ∧
        (Access.read, a) ∉ u.busErrors := by
    intro n
    rcases readWord_right (r := { r with rereads := n }) hs ⟨h.snap, h.raced, h.source, h.held, h.reads⟩ ha with
      h1 | ⟨h1, h2, h3⟩
    · exact .inl h1
    · exact .inr ⟨_, h1, h2, h3⟩
  unfold State.fetchWord
  split
  · exact hread r.rereads
  · next w hl =>
    split
    · obtain ⟨hw, hb⟩ := h.reads _ (Running.wordRead_some hl)
      simp only at hw hb
      exact .inr ⟨r, by rw [hw], h.reads, hb⟩
    · exact hread _

theorem fetchCell_right {i : Instr} {m : Memory} {q : Snapshot} {r : Running} {u : State} (reuse : Option Nat)
    (x y k : Nat) (hread : ∀ a, q.cellAddr x y k = some a → a ∈ q.readable i) (hs : q.SrcOk)
    (h : Undisturbed i m q r u) :
    (u.fetchCell r reuse x y k = none ∧ ∃ a, q.cellAddr x y k = some a ∧ (Access.read, a) ∈ u.busErrors) ∨
      ∃ r', u.fetchCell r reuse x y k = some (sampleCell m q x y k, r', u) ∧ r'.ReadsRight m u.busErrors ∧
        ∀ a, q.cellAddr x y k = some a → (Access.read, a) ∉ u.busErrors := by
  obtain rfl := h.snap
  unfold State.fetchCell sampleCell
  cases ha : r.snap.cellAddr x y k with
  | none => exact .inr ⟨r, rfl, h.reads, by simp⟩
  | some a =>
    rcases fetchWord_right reuse hs h (hread a ha) with ⟨h1, h2⟩ | ⟨r', h1, h2, h3⟩
    · exact .inl ⟨h1, a, rfl, h2⟩
    · exact .inr ⟨r', h1, h2, fun b hb => by cases hb; exact h3⟩

theorem right_window (m : Memory) (l : List (Access × Nat)) (q : Snapshot) (x y : Nat) (ks : List Nat) :
    (q.window x y ks).Right m l q x y ks := by
  refine ⟨legal_window q x y ks, fun k hk hlt hno => ?_⟩
  have : q.cellAddr x y k = none := by
    by_contra hc
    exact hno (List.mem_filter.mpr ⟨hk, by simpa [Option.isSome_iff_ne_none] using hc⟩)
  unfold sampleCell
  rw [this]
  exact ⟨by simp [Snapshot.window, hlt], by simp⟩

theorem mem_eraseIdx_or {α : Type} {l : List α} {i : Nat} {a c : α} (hi : l[i]? = some a) (hc : c ∈ l) :
    c = a ∨ c ∈ l.eraseIdx i := by
  obtain ⟨n, hn⟩ := List.mem_iff_getElem?.mp hc
  by_cases h : n = i
  · subst h; rw [hi] at hn; exact .inl (Option.some.inj hn).symm
  · refine .inr (List.mem_eraseIdx_iff_getElem?.mpr ⟨n, h, hn⟩)

/-- Filling a cell, undisturbed: it gets its word of memory, or memory answers its read with `bus_error`. -/
theorem fetchNext_right {i : Instr} {m : Memory} {q : Snapshot} {r : Running} {u : State} {win : Window} {x y : Nat}
    {ks : List Nat} (c : Choice) (hread : ∀ k a, q.cellAddr x y k = some a → a ∈ q.readable i) (hs : q.SrcOk)
    (h : Undisturbed i m q r u) (hw : win.Right m u.busErrors q x y ks) :
    (u.fetchNext r win x y c = none ∧
      ∃ k a, k ∈ win.todo ∧ q.cellAddr x y k = some a ∧ (Access.read, a) ∈ u.busErrors) ∨
    ∃ win' r', u.fetchNext r win x y c = some (win', r', u) ∧ Running.AfterRead i r r' ∧ r'.ReadsRight m u.busErrors ∧
      win'.Right m u.busErrors q x y ks ∧
      (win.todo = [] ∧ win' = win ∨ win'.todo.length + 1 = win.todo.length) := by
  cases hf : u.fetchNext r win x y c with
  | some p =>
    obtain ⟨win', r', u'⟩ := p
    obtain ⟨-, hafter, hcase⟩ := State.fetchNext_cases (h.snap.symm ▸ hread) hf
    unfold State.fetchNext at hf
    split at hf
    · obtain ⟨rfl, rfl, rfl⟩ := by simpa using hf
      refine .inr ⟨win, r, rfl, hafter, h.reads, hw, ?_⟩
      next hn =>
      left
      refine ⟨?_, rfl⟩
      by_contra hne
      have := Nat.mod_lt c.item (List.length_pos_iff.mpr hne)
      rw [List.getElem?_eq_none_iff] at hn
      omega
    · next k hk =>
      rcases fetchCell_right c.read.reuses x y k (hread k) hs h with ⟨h1, -⟩ | ⟨r1, h1, h2, h3⟩
      · rw [h1] at hf; cases hf
      · rw [h1] at hf
        obtain ⟨rfl, rfl, rfl⟩ := by simpa using hf
        have hlt := (List.getElem?_eq_some_iff.mp hk).1
        refine .inr ⟨_, _, rfl, hafter, h2, ⟨legal_filled hw.1 hk _, ?_⟩, .inr ?_⟩
        · intro k' hk' hlt' hno
          simp only at hno ⊢
          by_cases he : k' = k
          · subst he
            have : k' < win.cells.length := by rw [hw.1.1]; exact hlt'
            exact ⟨by rw [List.getElem?_set_self this], h3⟩
          · rw [List.getElem?_set_ne (Ne.symm he)]
            refine hw.2 k' hk' hlt' fun hin => ?_
            rcases mem_eraseIdx_or hk hin with h | h
            · exact he h
            · exact hno h
        · simp only
          rw [List.length_eraseIdx_of_lt hlt]; omega
  | none =>
    left
    refine ⟨rfl, ?_⟩
    unfold State.fetchNext at hf
    split at hf
    · cases hf
    · next k hk =>
      rcases fetchCell_right c.read.reuses x y k (hread k) hs h with ⟨-, a, ha, hb⟩ | ⟨r1, h1, -⟩
      · exact ⟨k, a, List.mem_of_getElem? hk, ha, hb⟩
      · rw [h1] at hf; cases hf

/-- A matrix none of whose cells lacks its word is the matrix of memory. -/
theorem cells_of_right {m : Memory} {l : List (Access × Nat)} {q : Snapshot} {x y : Nat} {win : Window}
    (h : win.Right m l q x y allCells) (ht : win.todo = []) : win.cells = sampleMatrix m q x y := by
  apply List.ext_getElem?
  intro k
  by_cases hk : k < nCells
  · rw [(h.2 k (List.mem_range.mpr hk) hk (by rw [ht]; simp)).1]
    simp [sampleMatrix, hk]
  · rw [List.getElem?_eq_none (by rw [h.1.1]; omega), List.getElem?_eq_none (by simp [sampleMatrix]; omega)]

/-- An extra read, undisturbed. -/
theorem extraRead_right {i : Instr} {m : Memory} {q : Snapshot} {r : Running} {u : State} {a : Nat} (hs : q.SrcOk)
    (h : Undisturbed i m q r u) (ha : a ∈ q.readable i) :
    (u.extraRead r a = u.raise .bus ∧ (Access.read, a) ∈ u.busErrors) ∨
      ∃ r', u.extraRead r a = u.progress r' ∧ r' = { r with reads := r'.reads, rereads := r'.rereads } ∧
        r'.ReadsRight m u.busErrors := by
  unfold State.extraRead
  rcases fetchWord_right none hs h ha with ⟨h1, h2⟩ | ⟨r', h1, h2, -⟩
  · rw [h1]; exact .inl ⟨rfl, h2⟩
  · obtain ⟨-, hr, -⟩ := State.fetchWord_cases (h.snap.symm ▸ ha) h1
    rw [h1]
    exact .inr ⟨r', rfl, hr, h2⟩

end Sys2Proof.Machine
end

