-- ==== Sys2Proof/Laws/Run.lean ====
section
/-! SUPPORT. Runs of block steps while no event lands: one step, the end, and time. -/

namespace Sys2Proof.Machine

theorem elapse_zero (l : List Input) : elapse 0 l = l := by cases l <;> rfl

theorem elapse_elapse (m n : Nat) (l : List Input) : elapse m (elapse n l) = elapse (n + m) l := by
  cases l with
  | nil => rfl
  | cons i l => simp [elapse, Nat.sub_sub]

theorem elapse_tail (n : Nat) (l : List Input) : (elapse n l).tail = l.tail := by cases l <;> rfl

theorem due_eq_false {s : State} {n : Nat} (h : s.Quiet (n + 1)) : s.due = false := by
  unfold State.due
  unfold State.Quiet at h
  revert h
  cases s.inputs with
  | nil => exact fun _ => rfl
  | cons i l =>
    intro h
    have := h i (by simp)
    simp only [beq_eq_false_iff_ne]
    omega

theorem State.Quiet.mono {s : State} {m n : Nat} (h : s.Quiet n) (hm : m ≤ n) : s.Quiet m :=
  fun i hi => Nat.le_trans hm (h i hi)

theorem State.Quiet.of_inputs {s t : State} {n : Nat} (h : s.Quiet n) (ht : t.inputs = s.inputs) : t.Quiet n := by
  unfold State.Quiet at *; rw [ht]; exact h

theorem State.Quiet.elapse {s t : State} {n k : Nat} (h : s.Quiet (n + k)) (ht : t.inputs = elapse k s.inputs) :
    t.Quiet n := by
  unfold State.Quiet at *
  rw [ht]
  revert h
  cases s.inputs with
  | nil => exact fun _ => by simp [Machine.elapse]
  | cons i l =>
    intro h j hj
    have := h i (by simp)
    simp only [Machine.elapse, List.head?_cons, Option.mem_def, Option.some.injEq] at hj
    subst hj
    simp only
    omega

theorem quiet_of_nil {s : State} (h : s.inputs = []) (n : Nat) : s.Quiet n := by
  unfold State.Quiet; rw [h]; simp

/-- A block without a command makes no step. -/
theorem runSteps_idle {s : State} (step : BlockStep) (n : Nat) (h : s.engine = .idle) : s.runSteps step n = s := by
  cases n with
  | zero => rfl
  | succ n => unfold State.runSteps; rw [h]

/-- A block with a command makes its next step when no event lands now. -/
theorem runSteps_succ {s : State} {r : Running} (step : BlockStep) (n : Nat) (h : s.engine = .running r)
    (hd : s.due = false) : s.runSteps step (n + 1) = (step r s).tick.runSteps step n := by
  rw [State.runSteps, h]; simp [hd]

/-- An event that lands now stops the block. -/
theorem runSteps_due {s : State} (step : BlockStep) (n : Nat) (hd : s.due = true) : s.runSteps step n = s := by
  cases n with
  | zero => rfl
  | succ n =>
    unfold State.runSteps
    cases s.engine with
    | idle => rfl
    | running r => simp [hd]

/-- What a command write does to a ready block. -/
theorem issue_ready {s : State} (step : BlockStep) (word : Word) (h : s.Ready) :
    issue step word s = .next ((s.accept word).runBlock step) := by
  obtain ⟨he, hr⟩ := h
  have hb : s.busy = false := by simp [State.busy, he]
  unfold issue
  rw [hr, hb]
  rfl

/-- The bound of an accepted command's steps. -/
theorem accept_left (s : State) (word : Word) :
    (s.accept word).left = 25 * (s.width.toNat * s.height.toNat) + 23 + s.schedule.length + 1 := by
  show 25 * (s.width.toNat * s.height.toNat) + 24 + s.schedule.length = _
  omega

/-- The unfinished source pixels of a command after its start checks. -/
def startJobs (i : Instr) (q : Snapshot) : List PixelJob := if i = .apply then q.jobs else []

/-- The matrix that a command reads after its start checks. -/
def startWindow (i : Instr) (q : Snapshot) : Window :=
  match i with
  | .pixel => q.window q.opx.toNat q.opy.toNat allCells
  | .sample => q.window q.opx.toNat q.opy.toNat [q.opk.toNat]
  | .nop | .apply | .diff | .blend | .unpack => noWindow

/-- The first step of every command is its start checks (60_exceptions.md R282). -/
theorem commandStep_unchecked (i : Instr) {r : Running} (s : State) (h : r.checked = false) :
    commandStep i r s = s.begin i r (startWindow i r.snap) (startJobs i r.snap) := by
  cases i <;>
    simp only [commandStep, nopStep, applyStep, pixelStep, sampleStep, diffStep, blendStep, unpackStep, h,
      Bool.false_eq_true, if_false] <;> rfl

/-- The engine of a command that has passed its start checks. -/
def startedRunning (i : Instr) (s : State) : Running where
  word := encode i
  snap := s.latch
  checked := true
  window := startWindow i s.latch
  reads := []
  rereads := s.latch.maxReads - ((startWindow i s.latch).todo.length + (startJobs i s.latch).length)
  todo := startJobs i s.latch
  doneSet := []
  raced := false

/-- The state of a command that has passed its start checks. -/
def State.started (i : Instr) (s : State) : State :=
  { s with
    done := false
    err := false
    errCode := .none
    engine := .running (startedRunning i s)
    inputs := elapse 1 s.inputs }

/-- A command whose start checks fail completes with that error in one step (60_exceptions.md R282). -/
theorem exec_failed {s : State} {i : Instr} {c : ErrCode} (h : s.Ready) (hq : s.Quiet 1)
    (hc : startError i s.latch = some c) :
    exec i s = .next { s with done := true, err := true, errCode := c, inputs := elapse 1 s.inputs } := by
  rw [exec_eq_issue, issue_ready _ _ h]
  unfold State.runBlock
  rw [accept_left, runSteps_succ (s := s.accept (encode i)) (r := { word := encode i, snap := s.latch, checked := false, window := ⟨[], []⟩, reads := [], rereads := 0, todo := [], doneSet := [], raced := false }) _ _ rfl (due_eq_false (s := s.accept (encode i)) (n := 0) (hq.of_inputs rfl)),
    commandStep_unchecked i _ rfl, begin_eq]
  simp only
  rw [hc]
  simp only
  rw [runSteps_idle _ _ rfl]
  obtain ⟨he, -⟩ := h
  cases s
  simp only at he
  subst he
  rfl

/-- A command whose start checks pass goes on from `State.started` (60_exceptions.md R282). -/
theorem exec_started {s : State} {i : Instr} (h : s.Ready) (hq : s.Quiet 1) (hc : startError i s.latch = none) :
    exec i s =
      .next ((s.started i).runSteps (commandStep i) (25 * (s.width.toNat * s.height.toNat) + 23 + s.schedule.length)) := by
  rw [exec_eq_issue, issue_ready _ _ h]
  unfold State.runBlock
  rw [accept_left, runSteps_succ (s := s.accept (encode i)) (r := { word := encode i, snap := s.latch, checked := false, window := ⟨[], []⟩, reads := [], rereads := 0, todo := [], doneSet := [], raced := false }) _ _ rfl (due_eq_false (s := s.accept (encode i)) (n := 0) (hq.of_inputs rfl)),
    commandStep_unchecked i _ rfl, begin_eq]
  simp only
  rw [hc]
  rfl

end Sys2Proof.Machine
end

