-- ==== Sys2Proof/Laws/Commands.lean ====
section
/-! SUPPORT. The runs of the commands that do not write memory: the unit commands' one step, PIXEL's fetches. -/

namespace Sys2Proof.Machine

/-- A unit command after its start checks completes by its next step. -/
theorem exec_unit {s : State} {i : Instr} {t : State} (h : s.Ready) (hq : s.Quiet 2) (hc : startError i s.latch = none)
    (ht : commandStep i (startedRunning i s) (s.started i) = t) (hi : t.engine = .idle) : exec i s = .next t.tick := by
  rw [exec_started h (hq.mono (by omega)) hc,
    show 25 * (s.width.toNat * s.height.toNat) + 23 + s.schedule.length =
      (25 * (s.width.toNat * s.height.toNat) + 22 + s.schedule.length) + 1 by omega]
  have : (s.started i).due = false := due_eq_false (n := 0) (State.Quiet.elapse (n := 1) (k := 1) hq rfl)
  rw [runSteps_succ (s := s.started i) (r := startedRunning i s) _ _ rfl this, ht, runSteps_idle (s := t.tick) _ _ hi]

theorem decisionWord_bits (e p : Fin 4 → Bool) :
    (decisionWord e p).toNat < 2^8 ∧ ∀ q : Fin 4, (decisionWord e p).getLsbD q.val = e q ∧ (decisionWord e p).getLsbD (4 + q.val) = p q := by
  have h0 : ∃ f : Fin 4 → Bool, f = e := ⟨e, rfl⟩
  have key : ∀ e0 e1 e2 e3 p0 p1 p2 p3 : Bool, ∀ d : Word, d = 0#24 ++ BitVec.ofBool p3 ++ BitVec.ofBool p2 ++ BitVec.ofBool p1 ++ BitVec.ofBool p0 ++
    BitVec.ofBool e3 ++ BitVec.ofBool e2 ++ BitVec.ofBool e1 ++ BitVec.ofBool e0 → d.toNat < 2^8 ∧ d.getLsbD 0 = e0 ∧ d.getLsbD 1 = e1 ∧ d.getLsbD 2 = e2 ∧ d.getLsbD 3 = e3 ∧ d.getLsbD 4 = p0 ∧ d.getLsbD 5 = p1 ∧ d.getLsbD 6 = p2 ∧ d.getLsbD 7 = p3 := by
    intro e0 e1 e2 e3 p0 p1 p2 p3 d hd
    subst hd
    revert e0 e1 e2 e3 p0 p1 p2 p3
    decide +kernel
  obtain ⟨h, a, b, c, d, e', f, g, i⟩ := key (e 0) (e 1) (e 2) (e 3) (p 0) (p 1) (p 2) (p 3) _ rfl
  refine ⟨h, fun q => ?_⟩
  match q with
  | 0 => exact ⟨a, e'⟩
  | 1 => exact ⟨b, f⟩
  | 2 => exact ⟨c, g⟩
  | 3 => exact ⟨d, i⟩

/-- A step of PIXEL past its start checks keeps its matrix legal. -/
theorem pixelStep_window {r r' : Running} {s : State}
    (h : r.checked = true → r.window.Legal r.snap r.snap.opx.toNat r.snap.opy.toNat allCells)
    (h' : (pixelStep r s).engine = .running r') :
    r'.window.Legal r'.snap r'.snap.opx.toNat r'.snap.opy.toNat allCells := by
  unfold pixelStep at h'
  split at h'
  · next hc =>
    split at h'
    · next a ha =>
      obtain ⟨n, -, ha⟩ := extraWord_eq_some ha
      rw [extraRead_engine (i := .pixel) (List.mem_of_getElem? ha) h']
      exact h hc
    · split at h'
      · unfold pixelComplete at h'
        split at h' <;> cases h'
      · unfold pixelFetch at h'
        split at h'
        · cases h'
        · next hf =>
          obtain ⟨-, ha, hwin⟩ := State.fetchNext_cases (i := .pixel) (fun k a => cellAddr_mem_cellWords) hf
          simp at h'
          subst h'
          rw [ha.same.2.1]
          exact legal_fetched (h hc) hwin
  · rw [begin_eq] at h'
    split at h'
    · cases h'
    · simp at h'
      subst h'
      exact legal_window _ _ _ _

/-- The word that SAMPLE gets fills its cell, and no other (41_neighborhood_sampler.md R166). -/
theorem legal_sampled {q : Snapshot} {x y k : Nat} {win : Window} (h : win.Legal q x y [k]) (hne : win.todo ≠ [])
    (w : Word) : Window.Legal q x y [k] ⟨[], win.cells.set k w⟩ := by
  obtain ⟨k', l, hl⟩ := List.exists_cons_of_ne_nil hne
  have hin := List.mem_filter.mp (h.2.1.subset (show k' ∈ win.todo by rw [hl]; exact List.mem_cons_self))
  obtain rfl : k' = k := by simpa using hin.1
  refine ⟨by simpa using h.1, List.nil_sublist _, fun j hj hn => ?_⟩
  have hk : k' ≠ j := by rintro rfl; rw [hn] at hin; cases hin.2
  simp only
  rw [List.getElem?_set_ne hk]
  exact h.2.2 j hj hn

/-- A step of SAMPLE past its start checks keeps its matrix legal and makes at most one read. -/
theorem sampleStep_window {r r' : Running} {s : State}
    (h : r.checked = true → r.window.Legal r.snap r.snap.opx.toNat r.snap.opy.toNat [r.snap.opk.toNat] ∧
      r.reads.length + r.window.todo.length ≤ 1)
    (h' : (sampleStep r s).engine = .running r') :
    r'.window.Legal r'.snap r'.snap.opx.toNat r'.snap.opy.toNat [r'.snap.opk.toNat] ∧
      r'.reads.length + r'.window.todo.length ≤ 1 := by
  unfold sampleStep at h'
  split at h'
  · next hc =>
    split at h'
    · unfold sampleComplete at h'
      split at h' <;> cases h'
    · split at h'
      · cases h'
      · next hne _ w r1 s' hf =>
        obtain ⟨-, ha⟩ := State.fetchCell_cases (i := .sample)
          (fun a hk => List.mem_filterMap.mpr ⟨_, List.mem_singleton_self _, hk⟩) hf
        simp at h'
        subst h'
        obtain ⟨-, h2, -, -, -, -, -, -⟩ := ha.same
        obtain ⟨hl, hn⟩ := h hc
        have hne : r.window.todo ≠ [] := by simpa using hne
        have : r.window.todo.length ≠ 0 := by simpa using hne
        refine ⟨by simp only [h2]; exact legal_sampled hl hne w, ?_⟩
        simp only [List.length_nil]
        rcases ha.2 with ⟨h3, -⟩ | ⟨_, _, -, h3, -⟩ <;> rw [h3]
        · omega
        · rw [List.length_cons]; omega
  · rw [begin_eq] at h'
    split at h'
    · cases h'
    · simp at h'
      subst h'
      refine ⟨legal_window _ _ _ _, ?_⟩
      simpa [Snapshot.window] using length_inBoundsCells_le r.snap r.snap.opx.toNat r.snap.opy.toNat [r.snap.opk.toNat]

/-- What holds at every moment of a PIXEL, after its start checks, that no other agent disturbs. -/
structure PixelRight (m : Memory) (q : Snapshot) (r : Running) (u : State) : Prop where
  checked : r.checked = true
  undisturbed : Undisturbed .pixel m q r u
  window : r.window.Right m u.busErrors q q.opx.toNat q.opy.toNat allCells

theorem pixelRight_started {s : State} (hh : ∀ a ∈ s.latch.readable .pixel, s.heldWord a = none) :
    PixelRight s.mem s.latch (startedRunning .pixel s) (s.started .pixel) where
  checked := rfl
  undisturbed := ⟨rfl, rfl, fun _ _ => rfl, hh, fun p hp => by cases hp⟩
  window := right_window _ _ _ _ _ _

theorem racingResults_of_not_raced {r : Running} (h : r.raced = false) (ks : List Nat) : r.racingResults ks = false := by
  unfold Running.racingResults; rw [h]; rfl

theorem todo_startWindow_sample {s : State} {a : Nat}
    (ha : s.latch.cellAddr s.opx.toNat s.opy.toNat s.opk.toNat = some a) :
    (startedRunning .sample s).window.todo = [s.opk.toNat] := by
  show ([s.opk.toNat].filter fun k => (s.latch.cellAddr s.opx.toNat s.opy.toNat k).isSome) = _
  rw [List.filter_cons, ha]
  rfl

/-- SAMPLE's one read is the one of its cell (41_neighborhood_sampler.md R166). -/
theorem sampleStep_read {s : State} {a : Nat}
    (ha : s.latch.cellAddr s.opx.toNat s.opy.toNat s.opk.toNat = some a) :
    sampleStep (startedRunning .sample s) (s.started .sample) =
      match (s.started .sample).readWord (startedRunning .sample s) a with
      | none => (s.started .sample).raise .bus
      | some (w, r', s') =>
        s'.progress { r' with window := ⟨[], (startedRunning .sample s).window.cells.set s.opk.toNat w⟩ } := by
  have hf : (s.started .sample).fetchCell (startedRunning .sample s) none s.opx.toNat s.opy.toNat s.opk.toNat =
      (s.started .sample).readWord (startedRunning .sample s) a := by
    unfold State.fetchCell
    rw [show (startedRunning .sample s).snap = s.latch from rfl, ha]
    rfl
  unfold sampleStep
  rw [if_pos (show (startedRunning .sample s).checked = true from rfl), if_neg (by rw [todo_startWindow_sample ha]; simp),
    show (startedRunning .sample s).snap = s.latch from rfl, show s.latch.opx = s.opx from rfl,
    show s.latch.opy = s.opy from rfl, show s.latch.opk = s.opk from rfl, hf]
  all_goals rfl

/-- SAMPLE's last step, undisturbed (41_neighborhood_sampler.md R166). -/
theorem sampleStep_last {r : Running} (u : State) (hc : r.checked = true) (ht : r.window.todo = []) (hr : r.raced = false) :
    sampleStep r u = (u.setRes0 (cell r.window.cells r.snap.opk.toNat)).complete := by
  unfold sampleStep sampleComplete
  rw [if_pos hc, ht, racingResults_of_not_raced hr]
  rfl

/-- A SAMPLE whose cell lies in the image, and whose read of it returns w, completes with w (41_neighborhood_sampler.md
R166). -/
theorem exec_sample_read {s : State} {a n : Nat} {w : Word} {r' : Running} (h : s.Ready) (hq : s.Quiet 3)
    (hc : startError .sample s.latch = none) (ha : s.latch.cellAddr s.opx.toNat s.opy.toNat s.opk.toNat = some a)
    (hr : (s.started .sample).readWord (startedRunning .sample s) a = some (w, r', (s.started .sample).useFree n)) :
    exec .sample s =
      .next { s with
        done := true, err := false, errCode := .none, inputs := elapse 3 s.inputs, freeCount := s.freeCount + n,
        res0 := w } := by
  have hk := ((startError_sample_none_iff s.latch).mp hc).2
  obtain ⟨-, hr'⟩ := State.readWord_cases hr
  have hstep : commandStep .sample (startedRunning .sample s) (s.started .sample) = _ := sampleStep_read ha
  rw [hr] at hstep
  simp only at hstep
  generalize hgo : ({ r' with window := ⟨[], (startedRunning .sample s).window.cells.set s.opk.toNat w⟩ } : Running) = r
    at hstep
  have hend : ∀ u : State, commandStep .sample r u = (u.setRes0 w).complete := by
    intro u
    have hcell : cell ((startedRunning .sample s).window.cells.set s.opk.toNat w) s.opk.toNat = w := by
      show ((List.replicate nCells 0#32).set s.opk.toNat w).getD s.opk.toNat 0#32 = w
      rw [List.getD_eq_getElem?_getD, List.getElem?_set_self (by
        have : s.opk.toNat ≤ 20 := hk
        simp [nCells]; omega)]
      rfl
    have h1 : r.snap = s.latch ∧ r.checked = true ∧ r.raced = false := by rw [← hgo, hr']; exact ⟨rfl, rfl, rfl⟩
    have h2 : r.window = ⟨[], (startedRunning .sample s).window.cells.set s.opk.toNat w⟩ := by rw [← hgo]
    show sampleStep r u = _
    rw [sampleStep_last u h1.2.1 (by rw [h2]) h1.2.2, h1.1, h2]
    show (u.setRes0 (cell ((startedRunning .sample s).window.cells.set s.opk.toNat w) s.opk.toNat)).complete = _
    rw [hcell]
  have hd1 : (s.started .sample).due = false := due_eq_false (n := 1) (State.Quiet.elapse (n := 2) (k := 1) hq rfl)
  have hd2 : (((s.started .sample).useFree n).progress r).tick.due = false :=
    due_eq_false (n := 0) (State.Quiet.elapse (n := 1) (k := 2) hq (by simp [State.started, elapse_elapse]))
  rw [exec_started h (hq.mono (by omega)) hc,
    show 25 * (s.width.toNat * s.height.toNat) + 23 + s.schedule.length =
      (25 * (s.width.toNat * s.height.toNat) + 21 + s.schedule.length) + 1 + 1 by omega,
    runSteps_succ (s := s.started .sample) (r := startedRunning .sample s) _ _ rfl hd1, hstep,
    runSteps_succ (r := r) _ _ rfl hd2, hend, runSteps_idle _ _ rfl]
  obtain ⟨he, -⟩ := h
  cases s; simp only at he; subst he
  simp [State.tick, State.complete, State.started, elapse_elapse, State.setRes0, State.progress, State.useFree]

/-- A rule reads no cells but its own (44_edge_rule_engine.md R222, R231). -/
theorem ruleOut_congr {m m' : Matrix} {q : Fin 4} (h : ∀ k ∈ (ruleOf q).cells, cell m k = cell m' k) :
    ruleOut m q = ruleOut m' q := by
  unfold QuadrantRule.cells at h
  generalize hr : ruleOf q = r at h
  simp only [List.flatMap_cons, List.flatMap_nil, List.cons_append, List.nil_append, List.forall_mem_cons,
    List.append_nil] at h
  unfold ruleOut quadrant sumA sumB weightedSum firstCandidate cellDiff
  rw [hr]
  simp only [h]

/-- A rule whose cells are all the zero pixel finds no edge and gives 0 (44_edge_rule_engine.md R231, R232). -/
theorem ruleOut_zero {m : Matrix} {q : Fin 4} (h : ∀ k ∈ (ruleOf q).cells, cell m k = 0#32) :
    ruleOut m q = ⟨0#32, false, false⟩ := by
  have hz : ∀ q, ruleOut (List.replicate nCells 0#32) q = ⟨0#32, false, false⟩ := by decide +kernel
  rw [← hz q]
  refine ruleOut_congr fun k hk => ?_
  rw [h k hk]
  unfold cell
  rw [List.getD_eq_getElem?_getD, List.getElem?_replicate]
  split <;> rfl

/-- Everything a step of an undisturbed PIXEL can do after its start checks: complete with the results of its matrix, stop
on a read that memory answers with `bus_error`, or get a word and go on. -/
theorem pixelStep_right {m : Memory} {q : Snapshot} {r : Running} {u : State} (hs : q.SrcOk) (h : PixelRight m q r u) :
    pixelStep r u = (u.setPixelResults (ruleOut (sampleMatrix m q q.opx.toNat q.opy.toNat))).complete ∧
        (∀ k a, k ≤ 20 → q.cellAddr q.opx.toNat q.opy.toNat k = some a → (Access.read, a) ∉ u.busErrors) ∨
      pixelStep r u = u.useChoice.raise .bus ∧
        (∃ k a, k ≤ 20 ∧ q.cellAddr q.opx.toNat q.opy.toNat k = some a ∧ (Access.read, a) ∈ u.busErrors) ∨
      ∃ r', pixelStep r u = u.useChoice.progress r' ∧ PixelRight m q r' (u.useChoice.progress r').tick ∧
        r'.window.todo.length + u.useChoice.schedule.length < r.window.todo.length + u.schedule.length := by
  obtain ⟨hc, hu, hw⟩ := h
  obtain rfl := hu.snap
  have huse : Undisturbed .pixel m r.snap r u.useChoice := ⟨rfl, hu.raced, hu.source, hu.held, hu.reads⟩
  unfold pixelStep
  rw [if_pos hc]
  cases he : u.choice.read.extraWord (r.snap.windowWord r.snap.opx.toNat r.snap.opy.toNat) with
  | some a =>
    right
    obtain ⟨n, hn, ha⟩ := extraWord_eq_some he
    obtain ⟨k, hk, hka⟩ := cell_of_windowWord ha
    have hsch := schedule_of_extra hn
    rcases extraRead_right (i := .pixel) hs huse (List.mem_of_getElem? ha) with ⟨h1, h2⟩ | ⟨r', h1, h2, h3⟩
    · exact .inl ⟨h1, k, a, hk, hka, h2⟩
    · refine .inr ⟨r', h1, ⟨?_, ⟨?_, ?_, hu.source, hu.held, h3⟩, ?_⟩, ?_⟩
      · rw [h2]; exact hc
      · rw [h2]
      · rw [h2]; exact hu.raced
      · rw [h2]; exact hw
      · rw [h2]; simp only; omega
  | none =>
    by_cases ht : r.window.todo.isEmpty = true
    · left
      have ht' : r.window.todo = [] := by simpa using ht
      rw [if_pos ht]
      unfold pixelComplete
      rw [racingResults_of_not_raced hu.raced, cells_of_right hw ht']
      refine ⟨rfl, fun k a hk ha => (hw.2 k (List.mem_range.mpr ?_) ?_ (by rw [ht']; simp)).2 a ha⟩ <;>
        unfold nCells <;> omega
    · right
      rw [if_neg ht]
      have hne : r.window.todo ≠ [] := by simpa using ht
      unfold pixelFetch
      rcases fetchNext_right (i := .pixel) u.choice (fun k a => cellAddr_mem_cellWords) hs huse hw with ⟨h1, k, a, hk, ha, hb⟩ | ⟨win', r', h1, hafter, h3, h4, h5⟩
      · rw [h1]
        refine .inl ⟨rfl, k, a, ?_, ha, hb⟩
        have := List.mem_range.mp (List.mem_filter.mp (hw.1.2.1.subset hk)).1
        unfold nCells at this
        omega
      · rw [h1]
        obtain ⟨-, g2, g3, -, -, -, g7, -⟩ := hafter.same
        refine .inr ⟨_, rfl, ⟨g3.trans hc, ⟨g2, g7.trans hu.raced, hu.source, hu.held, h3⟩, h4⟩, ?_⟩
        have := useChoice_schedule_le u
        rcases h5 with ⟨h5, -⟩ | h5
        · exact absurd h5 hne
        · simp only; omega

end Sys2Proof.Machine
end

