-- ==== Sys2Proof/Laws/Apply.lean ====
section
/-! SUPPORT. What holds of memory and of the scan at every moment of an APPLY that no other agent disturbs, and everything one of its steps can do. -/

namespace Sys2Proof.Machine

/-- The word that APPLY writes for quadrant k of source pixel (x, y) (45_scan_driver.md R253). -/
def finalWord (m : Memory) (q : Snapshot) (x y : Nat) (k : Fin 4) : Word := (ruleOut (sampleMatrix m q x y) k).out

/-- Destination cell n is still to be written by job j. -/
def PixelJob.Owes (q : Snapshot) (j : PixelJob) (x y : Nat) (k : Fin 4) : Prop :=
  j.x = x ∧ j.y = y ∧
    match j.work with
    | .sampling _ => True
    | .writing outs => q.dstCell x y k ∈ outs.map Prod.fst

/-- What the work on a pixel has gathered is right. -/
def PixelJob.Right (m0 : Memory) (l : List (Access × Nat)) (q : Snapshot) (j : PixelJob) : Prop :=
  match j.work with
  | .sampling win => win.Right m0 l q j.x j.y allCells
  | .writing outs => ∀ p ∈ outs, ∃ k, p = (q.dstCell j.x j.y k, finalWord m0 q j.x j.y k)

/-- Each destination cell holds its final word, or its old word while some job still owes it; all other bytes are the
old ones (45_scan_driver.md R253, 20_memory.md R89, R93). -/
structure ScanMemory (m0 : Memory) (q : Snapshot) (todo : List PixelJob) (m : Memory) : Prop where
  wf : m.wf
  cells : ∀ x y k, x < q.w → y < q.h →
    m.readWord (q.dstAddr (q.dstCell x y k)) = finalWord m0 q x y k ∨
      (m.readWord (q.dstAddr (q.dstCell x y k)) = m0.readWord (q.dstAddr (q.dstCell x y k)) ∧
        ∃ j ∈ todo, j.Owes q x y k)
  outside : ∀ a, a < q.dstBase.toNat ∨ q.dstEnd ≤ a → m.readByte a = m0.readByte a

/-- The access of each source pixel and destination cell that memory answers with `bus_error` is still to come: the matrix of
the pixel is being read, some job owes the cell (60_exceptions.md R293). -/
structure ScanOwed (l : List (Access × Nat)) (q : Snapshot) (todo : List PixelJob) : Prop where
  reads : ∀ x y, x < q.w → y < q.h → (Access.read, q.srcAddr x y) ∈ l →
    ∃ j ∈ todo, j.x = x ∧ j.y = y ∧ ∃ win, j.work = .sampling win
  writes : ∀ x y k, x < q.w → y < q.h → (Access.write, q.dstAddr (q.dstCell x y k)) ∈ l → ∃ j ∈ todo, j.Owes q x y k

/-- Memory answers some access that APPLY must make with `bus_error` (60_exceptions.md R293). -/
def Snapshot.Refused (q : Snapshot) (l : List (Access × Nat)) : Prop :=
  (∃ n, n < q.w * q.h ∧ (Access.read, q.srcBase.toNat + 4 * n) ∈ l) ∨
    ∃ n, n < 4 * (q.w * q.h) ∧ (Access.write, q.dstAddr n) ∈ l

/-- Memory answers each write into the destination with `bus_error`. -/
def Snapshot.WritesRefused (q : Snapshot) (l : List (Access × Nat)) : Prop :=
  ∀ n, n < 4 * (q.w * q.h) → (Access.write, q.dstAddr n) ∈ l

/-- m' is m but for one destination cell at most. -/
def Snapshot.OneCell (q : Snapshot) (m m' : Memory) : Prop :=
  ∃ n, ∀ b, b < q.dstAddr n ∨ q.dstAddr n + 4 ≤ b → m'.readByte b = m.readByte b

theorem oneCell_refl (q : Snapshot) (m : Memory) : q.OneCell m m := ⟨0, fun _ _ => rfl⟩

theorem refused_of_isSource {q : Snapshot} {l : List (Access × Nat)} {a : Nat} (ha : q.IsSource a)
    (h : (Access.read, a) ∈ l) : q.Refused l := by
  obtain ⟨n, hn, rfl⟩ := ha
  exact .inl ⟨n, hn, h⟩

/-- The whole invariant of an undisturbed APPLY. -/
structure ScanRight (m0 : Memory) (l : List (Access × Nat)) (q : Snapshot) (r : Running) (m : Memory) : Prop where
  snap : r.snap = q
  checked : r.checked = true
  raced : r.raced = false
  legal : r.ScanLegal
  jobs : ∀ j ∈ r.todo, j.Right m0 l q
  source : ∀ a, q.IsSource a → m.readWord a = m0.readWord a
  reads : r.ReadsRight m0 l
  memory : ScanMemory m0 q r.todo m
  owed : ScanOwed l q r.todo

/-- The steps that the unfinished pixels still need. -/
def sumLeft (todo : List PixelJob) : Nat := (todo.map fun j => j.work.left).sum

/-- The destination cells of different quadrants differ (45_scan_driver.md R252). -/
theorem dstCell_inj {q : Snapshot} {x y x' y' : Nat} {k k' : Fin 4} (hx : x < q.w) (hx' : x' < q.w)
    (h : q.dstCell x y k = q.dstCell x' y' k') : x = x' ∧ y = y' ∧ k = k' := by
  unfold Snapshot.dstCell at h
  have hk := k.isLt
  have hk' := k'.isLt
  have hrow : (2 * y + k.val / 2) = (2 * y' + k'.val / 2) := by
    have e : ∀ a c : Nat, c < 2 * q.w → (a * (2 * q.w) + c) / (2 * q.w) = a := by
      intro a c hc
      rw [Nat.mul_comm, Nat.mul_add_div (by omega), Nat.div_eq_of_lt hc, Nat.add_zero]
    have e1 := e (2 * y + k.val / 2) (2 * x + k.val % 2) (by omega)
    have e2 := e (2 * y' + k'.val / 2) (2 * x' + k'.val % 2) (by omega)
    rw [← e1, ← e2, h]
  rw [hrow] at h
  refine ⟨by omega, by omega, Fin.ext (by omega)⟩

/-- The center of a pixel's matrix is the pixel (41_neighborhood_sampler.md R161). -/
theorem cellAddr_center {q : Snapshot} {x y : Nat} (hx : x < q.w) (hy : y < q.h) :
    q.cellAddr x y 10 = some (q.srcAddr x y) := by
  have hc : cellCoord x y 10 = ((x : Int), (y : Int)) := by simp [cellCoord, cellOffsets]
  unfold Snapshot.cellAddr
  rw [hc]
  simp only
  rw [if_pos (inBounds_iff.mpr ⟨by omega, by simpa using hx, by omega, by simpa using hy⟩)]
  rfl

/-- Every destination cell is one of some pixel and quadrant (45_scan_driver.md R252). -/
theorem exists_dstCell {q : Snapshot} {n : Nat} (hn : n < 4 * (q.w * q.h)) :
    ∃ x y k, x < q.w ∧ y < q.h ∧ q.dstCell x y k = n := by
  have hw : 0 < q.w := Nat.pos_of_ne_zero fun h => by simp [h] at hn
  have hx : n % (2 * q.w) < 2 * q.w := Nat.mod_lt _ (by omega)
  have hy : n / (2 * q.w) < 2 * q.h := Nat.div_lt_of_lt_mul (by rw [show 2 * q.w * (2 * q.h) = 4 * (q.w * q.h) by ring]; exact hn)
  refine ⟨n % (2 * q.w) / 2, n / (2 * q.w) / 2, ⟨n / (2 * q.w) % 2 * 2 + n % (2 * q.w) % 2, by omega⟩, by omega, by omega, ?_⟩
  unfold Snapshot.dstCell
  simp only
  rw [show 2 * (n / (2 * q.w) / 2) + (n / (2 * q.w) % 2 * 2 + n % (2 * q.w) % 2) / 2 = n / (2 * q.w) by omega,
    show 2 * (n % (2 * q.w) / 2) + (n / (2 * q.w) % 2 * 2 + n % (2 * q.w) % 2) % 2 = n % (2 * q.w) by omega]
  exact Nat.div_add_mod' n (2 * q.w)

/-- With no pixel unfinished memory has answered every access (60_exceptions.md R293). -/
theorem not_refused_of_owed {l : List (Access × Nat)} {q : Snapshot} (h : ScanOwed l q []) : ¬q.Refused l := by
  rintro (⟨n, hn, hb⟩ | ⟨n, hn, hb⟩)
  · have hw : 0 < q.w := Nat.pos_of_ne_zero fun h => by simp [h] at hn
    obtain ⟨j, hj, -⟩ := h.reads (n % q.w) (n / q.w) (Nat.mod_lt _ hw) (Nat.div_lt_of_lt_mul hn)
      (by unfold Snapshot.srcAddr; rwa [Nat.div_add_mod'])
    cases hj
  · obtain ⟨x, y, k, hx, hy, rfl⟩ := exists_dstCell hn
    obtain ⟨j, hj, -⟩ := h.writes x y k hx hy hb
    cases hj

theorem sumLeft_set {l : List PixelJob} {i : Nat} {j j' : PixelJob} (hi : l[i]? = some j)
    (hl : j'.work.left + 1 = j.work.left) : sumLeft (l.set i j') + 1 = sumLeft l := by
  unfold sumLeft
  induction l generalizing i with
  | nil => simp at hi
  | cons a l ih =>
    cases i with
    | zero => simp at hi; subst hi; simp; omega
    | succ i =>
      simp only [List.getElem?_cons_succ] at hi
      have := ih hi
      simp only [List.set_cons_succ, List.map_cons, List.sum_cons]
      omega

theorem sumLeft_eraseIdx {l : List PixelJob} {i : Nat} {j : PixelJob} (hi : l[i]? = some j)
    (hl : j.work.left = 1) : sumLeft (l.eraseIdx i) + 1 = sumLeft l := by
  unfold sumLeft
  induction l generalizing i with
  | nil => simp at hi
  | cons a l ih =>
    cases i with
    | zero => simp at hi; subst hi; simp; omega
    | succ i =>
      simp only [List.getElem?_cons_succ] at hi
      have := ih hi
      simp only [List.eraseIdx_cons_succ, List.map_cons, List.sum_cons]
      omega

theorem mem_set_or {α : Type} {l : List α} {i : Nat} {a b c : α} (hi : l[i]? = some a) (hc : c ∈ l) :
    c = a ∨ c ∈ l.set i b := by
  obtain ⟨n, hn⟩ := List.mem_iff_getElem?.mp hc
  by_cases h : n = i
  · subst h; rw [hi] at hn; exact .inl (Option.some.inj hn).symm
  · refine .inr (List.mem_iff_getElem?.mpr ⟨n, ?_⟩)
    rw [List.getElem?_set_ne (Ne.symm h)]; exact hn

/-- Each source pixel is unfinished when the scan starts. -/
theorem mem_jobs {q : Snapshot} {x y : Nat} (hx : x < q.w) (hy : y < q.h) :
    (⟨x, y, .sampling (q.window x y allCells)⟩ : PixelJob) ∈ q.jobs :=
  List.mem_map.mpr ⟨(x, y), mem_pixels.mpr ⟨hx, hy⟩, rfl⟩

/-- The invariant holds when the scan starts. -/
theorem scanRight_started {s : State} (hm : s.mem.wf) (hs : s.latch.SrcOk) (hd : s.latch.DstOk) :
    ScanRight s.mem s.busErrors s.latch (startedRunning .apply s) s.mem where
  snap := rfl
  checked := rfl
  raced := rfl
  legal := scanLegal_begun (r := startedRunning .apply s) ((startError_apply_none_iff _).mpr ⟨hs, hd⟩) noWindow _ false
  jobs := by
    intro j hj
    obtain ⟨p, -, rfl⟩ := List.mem_map.mp hj
    exact right_window _ _ _ _ _ _
  source := fun _ _ => rfl
  reads := fun p hp => by cases hp
  memory :=
    { wf := hm
      cells := fun x y k hx hy => .inr ⟨rfl, _, mem_jobs hx hy, rfl, rfl, trivial⟩
      outside := fun _ _ => rfl }
  owed :=
    { reads := fun x y hx hy _ => ⟨_, mem_jobs hx hy, rfl, rfl, _, rfl⟩
      writes := fun x y k hx hy _ => ⟨_, mem_jobs hx hy, rfl, rfl, trivial⟩ }

theorem mem_quadrantWrites {q : Snapshot} {x y : Nat} {m : Matrix} {p : Nat × Word} :
    p ∈ quadrantWrites q x y m ↔ ∃ k, p = (q.dstCell x y k, (ruleOut m k).out) := by
  unfold quadrantWrites
  generalize ruleOut m = R
  simp only [List.mem_cons, List.not_mem_nil, or_false]
  constructor
  · rintro (h | h | h | h)
    · exact ⟨0, h⟩
    · exact ⟨1, h⟩
    · exact ⟨2, h⟩
    · exact ⟨3, h⟩
  · rintro ⟨k, h⟩
    match k, h with
    | 0, h => exact .inl h
    | 1, h => exact .inr (.inl h)
    | 2, h => exact .inr (.inr (.inl h))
    | 3, h => exact .inr (.inr (.inr h))

/-- The work on a pixel with a right matrix is right, and owes its four cells. -/
theorem sampledWork_right {m0 : Memory} {l : List (Access × Nat)} {q : Snapshot} {x y : Nat} {win : Window}
    (h : win.Right m0 l q x y allCells) :
    (PixelJob.mk x y (sampledWork q x y win)).Right m0 l q ∧
      ∀ k, (PixelJob.mk x y (sampledWork q x y win)).Owes q x y k := by
  unfold sampledWork
  by_cases he : win.todo.isEmpty = true
  · simp only [he, if_true]
    rw [cells_of_right h (by simpa using he)]
    refine ⟨?_, fun k => ⟨rfl, rfl, ?_⟩⟩
    · intro p hp
      exact mem_quadrantWrites.mp hp
    · exact List.mem_map.mpr ⟨_, mem_quadrantWrites.mpr ⟨k, rfl⟩, rfl⟩
  · simp only [he]
    exact ⟨h, fun k => ⟨rfl, rfl, trivial⟩⟩

/-- A word that job i gets keeps the invariant. -/
theorem scanRight_fetch {m0 : Memory} {l : List (Access × Nat)} {q : Snapshot} {r r' : Running} {m : Memory} {i : Nat}
    {j : PixelJob} {win win' : Window} (h : ScanRight m0 l q r m) (hi : r.todo[i]? = some j)
    (hw : j.work = .sampling win) (ha : Running.AfterRead .apply r r') (hreads : r'.ReadsRight m0 l)
    (hwin : win'.Right m0 l q j.x j.y allCells) {work : PixelWork} (hwork : work = sampledWork q j.x j.y win')
    (hl : ({ r' with todo := r.todo.set i { j with work := work } } : Running).ScanLegal) :
    ScanRight m0 l q { r' with todo := r.todo.set i { j with work := work } } m := by
  obtain ⟨hr, ho⟩ := sampledWork_right hwin
  rw [← hwork] at hr ho
  obtain ⟨-, g2, g3, -, -, -, g7, -⟩ := ha.same
  have hset : ({ j with work := work } : PixelJob) ∈ r.todo.set i { j with work := work } :=
    List.mem_set (List.getElem?_eq_some_iff.mp hi).1 _
  have howes : ∀ x y k, (∃ j ∈ r.todo, j.Owes q x y k) → ∃ j' ∈ r.todo.set i { j with work := work }, j'.Owes q x y k := by
    rintro x y k ⟨j', hj', ho'⟩
    rcases mem_set_or (b := { j with work := work }) hi hj' with rfl | hj'
    · refine ⟨_, hset, ?_⟩
      obtain ⟨rfl, rfl, -⟩ := ho'
      exact ho k
    · exact ⟨j', hj', ho'⟩
  refine ⟨g2.trans h.snap, g3.trans h.checked, g7.trans h.raced, hl, ?_, h.source, hreads,
    ⟨h.memory.wf, ?_, h.memory.outside⟩, ?_, fun x y k hx hy hb => howes x y k (h.owed.writes x y k hx hy hb)⟩
  · intro j' hj'
    rcases mem_of_mem_set hj' with rfl | hj'
    · exact hr
    · exact h.jobs j' hj'
  · intro x y k hx hy
    rcases h.memory.cells x y k hx hy with hc | ⟨hc, ho'⟩
    · exact .inl hc
    · exact .inr ⟨hc, howes x y k ho'⟩
  · intro x y hx hy hb
    obtain ⟨j', hj', rfl, rfl, win'', hw''⟩ := h.owed.reads x y hx hy hb
    rcases mem_set_or (b := { j with work := work }) hi hj' with rfl | hj'
    · refine ⟨_, hset, rfl, rfl, win', ?_⟩
      rw [hwork]
      unfold sampledWork
      rw [if_neg]
      intro he
      refine (hwin.2 10 (by decide) (by decide) ?_).2 _ (cellAddr_center hx hy) hb
      rw [List.isEmpty_iff.mp he]
      exact List.not_mem_nil
    · exact ⟨j', hj', rfl, rfl, win'', hw''⟩

/-- A write of job i leaves each cell old or final, and where memory answers it, keeps the invariant. -/
theorem scanRight_write {m0 : Memory} {l : List (Access × Nat)} {q : Snapshot} {r : Running} {m : Memory} {i c n : Nat} {v : Word} {j : PixelJob}
    {outs : List (Nat × Word)} (hs : q.SrcOk) (hd : q.DstOk)
    (h : ScanRight m0 l q r m) (hi : r.todo[i]? = some j) (hw : j.work = .writing outs) (ho : outs[c]? = some (n, v))
    (hl : (r.wrote i j (outs.eraseIdx c)).ScanLegal) :
    ScanMemory m0 q (r.wrote i j (outs.eraseIdx c)).todo (m.writeWord (q.dstAddr n) v) ∧
      ((Access.write, q.dstAddr n) ∉ l →
        ScanRight m0 l q (r.wrote i j (outs.eraseIdx c)) (m.writeWord (q.dstAddr n) v)) := by
  have hjm := List.mem_of_getElem? hi
  have hj := h.jobs j hjm
  unfold PixelJob.Right at hj
  rw [hw] at hj
  simp only at hj
  obtain ⟨k, hk⟩ := hj (n, v) (List.mem_of_getElem? ho)
  obtain ⟨hn, hv⟩ := Prod.mk.inj hk
  have hxy : j.x < q.w ∧ j.y < q.h := by
    obtain ⟨-, hp, -⟩ := h.legal h.checked
    rw [h.snap] at hp
    exact mem_pixels.mp (hp.subset (List.mem_append_right _ (List.mem_map.mpr ⟨j, hjm, rfl⟩)))
  have hlt : n < 4 * (q.w * q.h) := by rw [hn]; exact dstCell_lt hxy.1 hxy.2 k
  have hb := dstAddr_bounds hd hlt
  have hwf : (m.writeWord (q.dstAddr n) v).wf := Memory.wf_writeWord h.memory.wf (by omega) v
  have hother : ∀ x y k', x < q.w → y < q.h → q.dstCell x y k' ≠ n →
      (m.writeWord (q.dstAddr n) v).readWord (q.dstAddr (q.dstCell x y k')) = m.readWord (q.dstAddr (q.dstCell x y k')) := by
    intro x y k' hx hy hne
    refine Memory.readWord_writeWord_of_ne h.memory.wf.1 v ?_
    unfold Snapshot.dstAddr
    omega
  have hsame : (m.writeWord (q.dstAddr n) v).readWord (q.dstAddr n) = v := Memory.readWord_writeWord h.memory.wf.1 _ v
  have hsrc : ∀ a, q.IsSource a → (m.writeWord (q.dstAddr n) v).readWord a = m0.readWord a := fun a ha =>
    (source_of_dstWrite h.memory.wf hs hd hlt ha).trans (h.source a ha)
  have hout : ∀ a, a < q.dstBase.toNat ∨ q.dstEnd ≤ a → (m.writeWord (q.dstAddr n) v).readByte a = m0.readByte a := by
    intro a ha
    rw [Memory.readByte_writeWord_of_ne h.memory.wf.1 v (by omega)]
    exact h.memory.outside a ha
  have hcells : ∀ todo' : List PixelJob,
      (∀ j' ∈ r.todo, j' = j ∨ j' ∈ todo') →
      (∀ x y k', x < q.w → y < q.h → j.Owes q x y k' → q.dstCell x y k' ≠ n → ∃ j' ∈ todo', j'.Owes q x y k') →
      ScanMemory m0 q todo' (m.writeWord (q.dstAddr n) v) ∧ ((Access.write, q.dstAddr n) ∉ l → ScanOwed l q todo') := by
    intro todo' h1 h2
    refine ⟨⟨hwf, ?_, hout⟩, fun hok => ⟨?_, ?_⟩⟩
    case refine_2 =>
      intro x y hx hy hbad
      obtain ⟨j', hj', e1, e2, win, e3⟩ := h.owed.reads x y hx hy hbad
      rcases h1 j' hj' with rfl | hj'
      · rw [hw] at e3; cases e3
      · exact ⟨j', hj', e1, e2, win, e3⟩
    case refine_3 =>
      intro x y k' hx hy hbad
      obtain ⟨j', hj', ho'⟩ := h.owed.writes x y k' hx hy hbad
      rcases h1 j' hj' with rfl | hj'
      · exact h2 x y k' hx hy ho' (by rintro rfl; exact hok hbad)
      · exact ⟨j', hj', ho'⟩
    intro x y k' hx hy
    by_cases he : q.dstCell x y k' = n
    · left
      rw [he, hsame, hv]
      rw [hn] at he
      obtain ⟨rfl, rfl, rfl⟩ := dstCell_inj hx hxy.1 he
      rfl
    · rw [hother x y k' hx hy he]
      rcases h.memory.cells x y k' hx hy with hc | ⟨hc, j', hj', ho'⟩
      · exact .inl hc
      · refine .inr ⟨hc, ?_⟩
        rcases h1 j' hj' with rfl | hj'
        · exact h2 x y k' hx hy ho' he
        · exact ⟨j', hj', ho'⟩
  have howes : ∀ x y k', j.Owes q x y k' → q.dstCell x y k' ≠ n → q.dstCell x y k' ∈ (outs.eraseIdx c).map Prod.fst := by
    intro x y k' ho' hne
    obtain ⟨-, -, hmem⟩ := ho'
    rw [hw] at hmem
    obtain ⟨p, hp, hpe⟩ := List.mem_map.mp hmem
    refine List.mem_map.mpr ⟨p, ?_, hpe⟩
    rcases mem_eraseIdx_or ho hp with rfl | hp
    · exact absurd hpe.symm hne
    · exact hp
  have hright : ∀ p ∈ outs.eraseIdx c, ∃ k, p = (q.dstCell j.x j.y k, finalWord m0 q j.x j.y k) :=
    fun p hp => hj p (List.mem_of_mem_eraseIdx hp)
  unfold Running.wrote at hl ⊢
  revert hl howes hright
  generalize outs.eraseIdx c = outs'
  intro hl howes hright
  cases outs' with
  | nil =>
    obtain ⟨k1, k2⟩ := hcells _ (fun j' hj' => mem_eraseIdx_or hi hj') fun x y k' _ _ ho' hne => by
      have := howes x y k' ho' hne
      simp at this
    exact ⟨k1, fun hok => ⟨h.snap, h.checked, h.raced, hl, fun j' hj' => h.jobs j' (List.mem_of_mem_eraseIdx hj'), hsrc,
      h.reads, k1, k2 hok⟩⟩
  | cons p t =>
    obtain ⟨k1, k2⟩ := hcells (r.todo.set i { j with work := .writing (p :: t) })
      (fun j' hj' => mem_set_or hi hj') fun x y k' _ _ ho' hne =>
      ⟨_, List.mem_set (List.getElem?_eq_some_iff.mp hi).1 _, ho'.1, ho'.2.1, howes x y k' ho' hne⟩
    refine ⟨k1, fun hok => ⟨h.snap, h.checked, h.raced, hl, ?_, hsrc, h.reads, k1, k2 hok⟩⟩
    intro j' hj'
    rcases mem_of_mem_set hj' with rfl | hj'
    · exact hright
    · exact h.jobs j' hj'

/-- A pixel's writes left get fewer. -/
theorem sumLeft_wrote {r : Running} {i c : Nat} {j : PixelJob} {outs : List (Nat × Word)} (hi : r.todo[i]? = some j)
    (hw : j.work = .writing outs) (hc : c < outs.length) :
    sumLeft (r.wrote i j (outs.eraseIdx c)).todo + 1 = sumLeft r.todo := by
  have hel : (outs.eraseIdx c).length + 1 = outs.length := by
    rw [List.length_eraseIdx_of_lt hc]; omega
  unfold Running.wrote
  revert hel
  generalize outs.eraseIdx c = outs'
  intro hel
  cases outs' with
  | nil =>
    refine sumLeft_eraseIdx hi ?_
    rw [hw]
    simp [PixelWork.left] at hel ⊢
    omega
  | cons p t =>
    refine sumLeft_set hi ?_
    rw [hw]
    simp [PixelWork.left] at hel ⊢
    omega

/-- Everything the access of a job of an undisturbed APPLY can do: stop on `bus_error`, its cell then old or final and all
other bytes as before, or go on with the invariant kept, and with memory as before where memory refuses every write. -/
theorem jobStep_right {m0 : Memory} {q : Snapshot} {r : Running} {u : State} {i : Nat} {j : PixelJob} (c : Choice)
    (hs : q.SrcOk) (hd : q.DstOk) (hh : ∀ a ∈ q.readable .apply, u.heldWord a = none)
    (h : ScanRight m0 u.busErrors q r u.mem) (hi : r.todo[i]? = some j) :
    (∃ m' todo', jobStep r i j c u = State.raise .bus { u with mem := m' } ∧ ScanMemory m0 q todo' m' ∧
      q.Refused u.busErrors ∧ q.OneCell u.mem m') ∨
    ∃ r' m', jobStep r i j c u = { u with engine := .running r', mem := m' } ∧
      ScanRight m0 u.busErrors q r' m' ∧ sumLeft r'.todo + 1 = sumLeft r.todo ∧
      (q.WritesRefused u.busErrors → m' = u.mem) := by
  obtain rfl := h.snap
  have hkeep : ∀ r', (jobStep r i j c u).engine = .running r' → r'.ScanLegal :=
    fun r' hr' => jobStep_scanLegal h.checked hi h.legal hr'
  have hjm := List.mem_of_getElem? hi
  have hjob := h.jobs j hjm
  have hlegal := (h.legal h.checked).2.2 j hjm
  unfold PixelJob.Right at hjob
  unfold PixelJob.Legal at hlegal
  unfold jobStep at *
  cases hw : j.work with
  | sampling win =>
    rw [hw] at hkeep hjob
    simp only at hkeep hjob ⊢
    rcases fetchNext_right (i := .apply) c (fun k a h => mem_sourceWords.mpr (isSource_of_cellAddr h)) hs
        ⟨rfl, h.raced, h.source, hh, h.reads⟩ hjob with
      ⟨h1, k, a, -, ha, hb⟩ | ⟨win', r', h1, h2, h3, h4, h5⟩
    · rw [h1]
      exact .inl ⟨u.mem, r.todo, rfl, h.memory, refused_of_isSource (isSource_of_cellAddr ha) hb, oneCell_refl _ _⟩
    · rw [h1] at hkeep ⊢
      simp only at hkeep ⊢
      revert hkeep
      generalize hwork : sampledWork r.snap j.x j.y win' = work
      intro hkeep
      refine .inr ⟨_, u.mem, rfl, scanRight_fetch h hi hw h2 h3 h4 hwork.symm (hkeep _ rfl), ?_, fun _ => rfl⟩
      refine sumLeft_set hi ?_
      rw [hw, ← hwork]
      unfold sampledWork
      rcases h5 with ⟨he, rfl⟩ | h5
      · simp [he, PixelWork.left, quadrantWrites]
      · split
        · next he =>
          have : win'.todo = [] := by simpa using he
          rw [this] at h5
          simp [PixelWork.left, quadrantWrites] at h5 ⊢
          omega
        · next he =>
          have : win'.todo.length ≠ 0 := by simpa using he
          simp only [PixelWork.left]
          omega
  | writing outs =>
    rw [hw] at hkeep hlegal
    simp only at hkeep hlegal ⊢
    have hlt : c.item % outs.length < outs.length := Nat.mod_lt _ (List.length_pos_iff.mpr hlegal.1)
    generalize c.item % outs.length = k at *
    have ho : outs[k]? = some outs[k] := List.getElem?_eq_getElem hlt
    revert ho hkeep
    generalize outs[k] = p
    obtain ⟨n, v⟩ := p
    intro hkeep ho
    rw [ho] at hkeep ⊢
    simp only at hkeep ⊢
    have hn4 : n < 4 * (r.snap.w * r.snap.h) :=
      lt_of_mem_outs h.legal h.checked hjm hw (List.mem_map.mpr ⟨(n, v), List.mem_of_getElem? ho, rfl⟩)
    obtain ⟨b1, b2, b3, b4⟩ := dstAddr_bounds hd hn4
    have hword : wordAddr (r.snap.dstAddr n) = true := wordAddr_iff.mpr ⟨b1, by omega⟩
    have hleg : (r.wrote i j (outs.eraseIdx k)).ScanLegal := by
      have h' := jobStep_scanLegal (r := r) (i := i) (j := j) (c := ⟨0, k, .fetch, false⟩)
        (s := { u with busErrors := [] }) (r' := r.wrote i j (outs.eraseIdx k)) h.checked hi h.legal
      apply h'
      unfold jobStep
      rw [hw]
      simp only [Nat.mod_eq_of_lt hlt, ho]
      unfold State.memWrite
      rw [if_pos ((portOk_iff hword).mpr (by simp))]
      rfl
    obtain ⟨hmem, hright⟩ := scanRight_write hs hd h hi hw ho hleg
    unfold State.memWrite State.putWord
    rw [h.raced]
    by_cases hb : (Access.write, r.snap.dstAddr n) ∈ u.busErrors
    · have hp : ¬ u.portOk .write (r.snap.dstAddr n) = true := fun hp => (portOk_iff hword).mp hp hb
      rw [if_neg hp]
      left
      cases hland : c.landed with
      | false => exact ⟨u.mem, r.todo, rfl, h.memory, .inr ⟨n, hn4, hb⟩, oneCell_refl _ _⟩
      | true =>
        rw [hword]
        exact ⟨u.mem.writeWord (r.snap.dstAddr n) v, _, rfl, hmem, .inr ⟨n, hn4, hb⟩,
          n, fun b => Memory.readByte_writeWord_of_ne h.memory.wf.1 v⟩
    · rw [if_pos ((portOk_iff hword).mpr hb)]
      exact .inr ⟨_, u.mem.writeWord (r.snap.dstAddr n) v, rfl, hright hb, sumLeft_wrote hi hw hlt,
        fun hall => absurd (hall n hn4) hb⟩

/-- Everything a step of an undisturbed APPLY can do after its start checks: complete with no pixel unfinished, stop on
an access that memory answers with `bus_error`, its cell then old or final and all other bytes as before, or make one access
and go on with the invariant kept, and with memory as before where memory refuses every write. -/
theorem applyStep_right {m0 : Memory} {q : Snapshot} {r : Running} {u : State} (hs : q.SrcOk) (hd : q.DstOk)
    (hh : ∀ a ∈ q.readable .apply, u.heldWord a = none) (h : ScanRight m0 u.busErrors q r u.mem) :
    (r.todo = [] ∧ applyStep r u = u.complete) ∨
    (∃ m' todo', applyStep r u = State.raise .bus { u with mem := m', schedule := u.schedule.tail } ∧
      ScanMemory m0 q todo' m' ∧ q.Refused u.busErrors ∧ q.OneCell u.mem m') ∨
    ∃ r' m', applyStep r u = { u with engine := .running r', mem := m', schedule := u.schedule.tail } ∧
      ScanRight m0 u.busErrors q r' m' ∧
      sumLeft r'.todo + u.schedule.tail.length < sumLeft r.todo + u.schedule.length ∧
      (q.WritesRefused u.busErrors → m' = u.mem) := by
  have hle := useChoice_schedule_le u
  have hu : ScanRight m0 u.useChoice.busErrors q r u.useChoice.mem := h
  unfold applyStep
  rw [if_pos h.checked]
  cases he : u.choice.read.extraWord r.snap.sourceWord with
  | some a =>
    right
    obtain ⟨n, hn, ha⟩ := extraWord_eq_some he
    rw [h.snap] at ha
    have hsrc := isSource_of_sourceWord ha
    have hsch := schedule_of_extra hn
    rcases extraRead_right (i := .apply) (u := u.useChoice) hs
        ⟨h.snap, h.raced, h.source, hh, h.reads⟩ (mem_sourceWords.mpr hsrc) with ⟨h1, h2⟩ | ⟨r', h1, h2, h3⟩
    · exact .inl ⟨u.mem, r.todo, h1, h.memory, refused_of_isSource hsrc h2, oneCell_refl _ _⟩
    · refine .inr ⟨r', u.mem, h1, ?_, ?_, fun _ => rfl⟩
      · rw [h2]
        exact ⟨h.snap, h.checked, h.raced, h.legal, h.jobs, h.source, h2 ▸ h3, h.memory, h.owed⟩
      · rw [h2]
        unfold State.useChoice at hsch
        simp only at hsch ⊢
        omega
  | none =>
    simp only
    cases hj : r.todo[u.choice.job % r.todo.length]? with
    | none =>
      left
      refine ⟨?_, rfl⟩
      by_contra hne
      have : u.choice.job % r.todo.length < r.todo.length := Nat.mod_lt _ (List.length_pos_iff.mpr hne)
      rw [List.getElem?_eq_none_iff] at hj
      omega
    | some j =>
      right
      rcases jobStep_right (u := u.useChoice) u.choice hs hd hh hu hj with ⟨m', todo', h1, h2, h3⟩ | ⟨r', m', h1, h2, h3, h4⟩
      · exact .inl ⟨m', todo', h1, h2, h3⟩
      · refine .inr ⟨r', m', h1, h2, ?_, h4⟩
        unfold State.useChoice at hle
        simp only at hle
        omega

end Sys2Proof.Machine
end

