-- ==== Sys2Proof/Laws/Float.lean ====
section
/-! SUPPORT. Evaluating an argument first does not change a value; the rounding of `froundMag` is to the nearest binary32, ties to even (00_scope.md R10). -/

namespace Sys2Proof.Machine

@[simp] theorem evalNat_eq {α : Type} (n : Nat) (f : Nat → α) : evalNat n f = f n := by cases n <;> rfl

@[simp] theorem fforce_eq {α : Type} (a : F32) (f : F32 → α) : fforce a f = f a := by
  unfold fforce; rw [evalNat_eq, BitVec.ofNat_toNat, BitVec.setWidth_eq]

/-- The magnitude, in units of 2^-149, of a pattern without its sign bit. -/
def magOf (p : Nat) : Nat := if p / 2 ^ 23 = 0 then p else (2 ^ 23 + p % 2 ^ 23) * 2 ^ (p / 2 ^ 23 - 1)

theorem fmag_eq_magOf (a : F32) : fmag a = magOf (a.toNat % 2 ^ 31) := by
  have h1 : fexp a = a.toNat % 2 ^ 31 / 2 ^ 23 := by unfold fexp; omega
  have h2 : ffrac a = a.toNat % 2 ^ 31 % 2 ^ 23 := by unfold ffrac; omega
  unfold fmag magOf
  rw [h1, h2]
  split
  · omega
  · rfl

theorem magOf_pattern {e q : Nat} (hq : q ≤ 2 ^ 24) (h : e = 0 ∨ 2 ^ 23 ≤ q) : magOf (e * 2 ^ 23 + q) = q * 2 ^ e := by
  unfold magOf
  rcases Nat.lt_or_ge q (2 ^ 23) with h1 | h1
  · have he : e = 0 := by omega
    subst he
    have hd : (0 * 2 ^ 23 + q) / 2 ^ 23 = 0 := by omega
    rw [hd, if_pos rfl, Nat.zero_mul, Nat.zero_add, Nat.pow_zero, Nat.mul_one]
  · rcases Nat.lt_or_ge q (2 ^ 24) with h2 | h2
    · have hd : (e * 2 ^ 23 + q) / 2 ^ 23 = e + 1 := by omega
      have hm : (e * 2 ^ 23 + q) % 2 ^ 23 = q - 2 ^ 23 := by omega
      rw [hd, hm, if_neg (by omega), Nat.add_sub_cancel, Nat.add_sub_cancel' h1]
    · have hq' : q = 2 ^ 24 := by omega
      subst hq'
      have hd : (e * 2 ^ 23 + 2 ^ 24) / 2 ^ 23 = e + 2 := by omega
      have hm : (e * 2 ^ 23 + 2 ^ 24) % 2 ^ 23 = 0 := by omega
      rw [hd, hm, if_neg (by omega), show e + 2 - 1 = e + 1 by omega, pow_succ]
      ring

/-- A value of at least 2^(23+e) units is a multiple of 2^e units. -/
theorem dvd_magOf {p e : Nat} (h : 2 ^ (23 + e) ≤ magOf p) : 2 ^ e ∣ magOf p := by
  unfold magOf at *
  split at h
  · next h0 =>
    rw [if_pos h0]
    have : p < 2 ^ 23 := by omega
    have h2 : 2 ^ 23 ≤ 2 ^ (23 + e) := Nat.pow_le_pow_right (by omega) (by omega)
    omega
  · next h0 =>
    rw [if_neg h0]
    have hf : 2 ^ 23 + p % 2 ^ 23 < 2 ^ 24 := by omega
    have h1 : (2 ^ 23 + p % 2 ^ 23) * 2 ^ (p / 2 ^ 23 - 1) < 2 ^ 24 * 2 ^ (p / 2 ^ 23 - 1) :=
      Nat.mul_lt_mul_of_pos_right hf (Nat.two_pow_pos _)
    rw [← pow_add] at h1
    have h2 := lt_of_le_of_lt h h1
    have h3 : 23 + e < 24 + (p / 2 ^ 23 - 1) := (Nat.pow_lt_pow_iff_right (by omega)).mp h2
    exact Dvd.dvd.mul_left (pow_dvd_pow 2 (by omega)) _

/-- Rounding m to the nearest multiple of S, ties to an even count. -/
theorem nearest_multiple {S m q r : Nat} (hS : 0 < S) (hm : m = q * S + r) (hr : r < S) {q' : Nat}
    (hq' : q' = if decide (S < 2 * r) || (2 * r == S && q % 2 == 1) then q + 1 else q) (t : Nat) :
    ((q' * S : Nat) - (m : Int)).natAbs ≤ ((t * S : Nat) - (m : Int)).natAbs ∧
      (((q' * S : Nat) - (m : Int)).natAbs = ((t * S : Nat) - (m : Int)).natAbs → t ≠ q' → q' % 2 = 0) := by
  have hcase : (∃ d, q = t + d) ∨ ∃ d, t = q + 1 + d := by
    rcases Nat.lt_or_ge q t with h | h
    · exact .inr ⟨t - (q + 1), by omega⟩
    · exact .inl ⟨q - t, by omega⟩
  have hs : (q + 1) * S = q * S + S := by ring
  by_cases hup : (decide (S < 2 * r) || (2 * r == S && q % 2 == 1)) = true
  · rw [if_pos hup] at hq'
    subst hq'
    have hup' : S < 2 * r ∨ (2 * r = S ∧ q % 2 = 1) := by simpa using hup
    rw [hs]
    rcases hcase with ⟨d, rfl⟩ | ⟨d, rfl⟩
    · have e : (t + d) * S = t * S + d * S := by ring
      rw [e] at hm ⊢
      rcases Nat.eq_zero_or_pos d with rfl | hd
      · constructor
        · omega
        · intro h _; omega
      · have : S ≤ d * S := Nat.le_mul_of_pos_left S hd
        constructor
        · omega
        · intro h _; omega
    · have e : (q + 1 + d) * S = q * S + S + d * S := by ring
      rw [e]
      rcases Nat.eq_zero_or_pos d with rfl | hd
      · constructor
        · omega
        · intro h h'; omega
      · have : S ≤ d * S := Nat.le_mul_of_pos_left S hd
        constructor
        · omega
        · intro h _; omega
  · rw [if_neg hup] at hq'
    subst hq'
    have hup' : ¬ (S < 2 * r ∨ (2 * r = S ∧ q' % 2 = 1)) := by simpa using hup
    rcases hcase with ⟨d, rfl⟩ | ⟨d, rfl⟩
    · have e : (t + d) * S = t * S + d * S := by ring
      rw [e] at hm ⊢
      rcases Nat.eq_zero_or_pos d with rfl | hd
      · constructor
        · omega
        · intro h h'; omega
      · have : S ≤ d * S := Nat.le_mul_of_pos_left S hd
        constructor
        · omega
        · intro h _; omega
    · have e : (q' + 1 + d) * S = q' * S + S + d * S := by ring
      rw [e]
      constructor
      · omega
      · intro h _; omega

/-- `froundMag k m`, in its parts: the exponent of the last place, the rounded significand, and what makes it nearest. -/
theorem froundMag_spec (k m : Nat) :
    ∃ e q, froundMag k m = min (e * 2 ^ 23 + q) 0x7F800000 ∧ q ≤ 2 ^ 24 ∧ (e = 0 ∨ 2 ^ 23 ≤ q) ∧
      (e ≠ 0 → 2 ^ (e + k + 23) ≤ m) ∧
      ∀ M, (2 ^ (23 + e) ≤ M → 2 ^ e ∣ M) →
        ((q * 2 ^ e * 2 ^ k : Nat) - (m : Int)).natAbs ≤ ((M * 2 ^ k : Nat) - (m : Int)).natAbs ∧
          (((q * 2 ^ e * 2 ^ k : Nat) - (m : Int)).natAbs = ((M * 2 ^ k : Nat) - (m : Int)).natAbs → M ≠ q * 2 ^ e →
            q % 2 = 0) := by
  obtain ⟨sh, hsh⟩ : ∃ sh, sh = max (m.log2 - 23) k := ⟨_, rfl⟩
  have hk : k ≤ sh := by omega
  have hS : 0 < 2 ^ sh := Nat.two_pow_pos sh
  have hm : m = m / 2 ^ sh * 2 ^ sh + m % 2 ^ sh := by rw [Nat.mul_comm]; exact (Nat.div_add_mod m (2 ^ sh)).symm
  have hr := Nat.mod_lt m hS
  have hlog : m < 2 ^ (m.log2 + 1) := Nat.lt_log2_self
  have hqlt : m / 2 ^ sh < 2 ^ 24 := by
    rw [Nat.div_lt_iff_lt_mul hS, ← pow_add]
    exact lt_of_lt_of_le hlog (Nat.pow_le_pow_right (by omega) (by omega))
  have hbig : sh ≠ k → 2 ^ (sh + 23) ≤ m := by
    intro hne
    have hl : m.log2 = sh + 23 := by omega
    have hm0 : m ≠ 0 := by
      rintro rfl
      simp at hl
    rw [← hl]
    exact Nat.log2_self_le hm0
  refine ⟨sh - k, if decide (2 ^ sh < 2 * (m % 2 ^ sh)) || (2 * (m % 2 ^ sh) == 2 ^ sh && m / 2 ^ sh % 2 == 1) then m / 2 ^ sh + 1 else m / 2 ^ sh, ?_, ?_, ?_, ?_, ?_⟩
  · unfold froundMag; rw [← hsh]
  · split <;> omega
  · by_cases h : sh = k
    · exact .inl (by omega)
    · right
      have : 2 ^ 23 ≤ m / 2 ^ sh := by
        rw [Nat.le_div_iff_mul_le hS, ← pow_add, Nat.add_comm]
        exact hbig h
      split <;> omega
  · intro h
    rw [show sh - k + k + 23 = sh + 23 by omega]
    exact hbig (by omega)
  · intro M hM
    have hpow : ∀ x, x * 2 ^ (sh - k) * 2 ^ k = x * 2 ^ sh := by
      intro x
      rw [Nat.mul_assoc, ← pow_add, Nat.sub_add_cancel hk]
    rw [hpow]
    have key := fun t => nearest_multiple hS hm hr (q' := if decide (2 ^ sh < 2 * (m % 2 ^ sh)) || (2 * (m % 2 ^ sh) == 2 ^ sh && m / 2 ^ sh % 2 == 1) then m / 2 ^ sh + 1 else m / 2 ^ sh) rfl t
    revert key
    generalize (if decide (2 ^ sh < 2 * (m % 2 ^ sh)) || (2 * (m % 2 ^ sh) == 2 ^ sh && m / 2 ^ sh % 2 == 1) then m / 2 ^ sh + 1 else m / 2 ^ sh) = q
    intro key
    by_cases hd : 2 ^ (sh - k) ∣ M
    · obtain ⟨t, rfl⟩ := hd
      rw [Nat.mul_comm (2 ^ (sh - k)) t, hpow]
      refine ⟨(key t).1, fun h hne => (key t).2 h ?_⟩
      rintro rfl
      exact hne rfl
    · have hlt : M < 2 ^ (23 + (sh - k)) := by
        by_contra h
        exact hd (hM (by omega))
      have hne : sh ≠ k := by
        rintro rfl
        exact hd (by simp)
      have h1 : M * 2 ^ k < 2 ^ 23 * 2 ^ sh := by
        have := Nat.mul_lt_mul_of_pos_right hlt (Nat.two_pow_pos k)
        rw [← pow_add, show 23 + (sh - k) + k = 23 + sh by omega, pow_add] at this
        exact this
      have h2 := (key (2 ^ 23)).1
      have h3 := hbig hne
      rw [pow_add, Nat.mul_comm] at h3
      constructor
      · omega
      · intro h _; omega

theorem fpack_mod {s : Bool} {p : Nat} (hp : p < 2 ^ 31) : (fpack s p).toNat % 2 ^ 31 = p ∧ fsign (fpack s p) = s := by
  have h : (fpack s p).toNat = if s then 2 ^ 31 + p else p := by
    unfold fpack; rw [BitVec.toNat_ofNat]; split <;> omega
  constructor
  · rw [h]; split <;> omega
  · unfold fsign; rw [BitVec.msb_eq_decide, h]; cases s <;> (simp; try omega)

theorem fexp_of_mod (a : F32) : fexp a = a.toNat % 2 ^ 31 / 2 ^ 23 := by unfold fexp; omega

theorem lsb_of_mod (a : F32) : a.getLsbD 0 = decide (a.toNat % 2 ^ 31 % 2 = 1) := by
  rw [BitVec.getLsbD, Nat.testBit_zero]
  congr 1
  simp

/-- Rounding x = ±m · 2^-k units: finite whenever |x| is at most the largest finite value, and then the nearest binary32,
at equal distance the even one (00_scope.md R10). -/
theorem fpack_round {s : Bool} {k m : Nat} (x : Int) (hx : x = if s then -(m : Int) else m) :
    (m ≤ fmag 0x7F7FFFFF#32 * 2 ^ k → fexp (fpack s (froundMag k m)) ≠ 255) ∧
    (fexp (fpack s (froundMag k m)) ≠ 255 → ∀ c : F32, fexp c ≠ 255 →
        (fval (fpack s (froundMag k m)) * 2 ^ k - x).natAbs ≤ (fval c * 2 ^ k - x).natAbs ∧
          ((fval (fpack s (froundMag k m)) * 2 ^ k - x).natAbs = (fval c * 2 ^ k - x).natAbs → fval c ≠ fval (fpack s (froundMag k m)) → (fpack s (froundMag k m)).getLsbD 0 = false)) := by
  obtain ⟨e, q, hp, hq, he, hbig, hnear⟩ := froundMag_spec k m
  have hp31 : froundMag k m < 2 ^ 31 := by rw [hp]; omega
  obtain ⟨hmod, hsign⟩ := fpack_mod (s := s) hp31
  have hexp := fexp_of_mod (fpack s (froundMag k m))
  rw [hmod] at hexp
  have hmax : fmag 0x7F7FFFFF#32 = (2 ^ 24 - 1) * 2 ^ 253 := by decide +kernel
  constructor
  · intro hle hinf
    rw [hexp, hp] at hinf
    have hge : 255 * 2 ^ 23 ≤ e * 2 ^ 23 + q := by omega
    have he253 : 253 ≤ e := by omega
    rw [hmax] at hle
    rcases Nat.lt_or_ge e 254 with h | h
    · have : e = 253 := by omega
      subst this
      have hq' : q = 2 ^ 24 := by omega
      subst hq'
      have := (hnear ((2 ^ 24 - 1) * 2 ^ 253) (fun _ => Dvd.intro_left _ rfl)).1
      have h5 : (2 ^ 24 - 1) * 2 ^ 253 * 2 ^ k < 2 ^ 24 * 2 ^ 253 * 2 ^ k := by
        apply Nat.mul_lt_mul_of_pos_right
        · decide +kernel
        · exact Nat.two_pow_pos k
      generalize (2 ^ 24 - 1) * 2 ^ 253 * 2 ^ k = A at *
      generalize 2 ^ 24 * 2 ^ 253 * 2 ^ k = B at *
      omega
    · have h6 := hbig (by omega)
      have h7 : (2 ^ 24 - 1) * 2 ^ 253 * 2 ^ k < 2 ^ (e + k + 23) := by
        calc (2 ^ 24 - 1) * 2 ^ 253 * 2 ^ k < 2 ^ 277 * 2 ^ k := by
              apply Nat.mul_lt_mul_of_pos_right
              · decide +kernel
              · exact Nat.two_pow_pos k
          _ = 2 ^ (277 + k) := by rw [pow_add]
          _ ≤ 2 ^ (e + k + 23) := Nat.pow_le_pow_right (by omega) (by omega)
      omega
  · intro hfin c hc
    rw [hexp, hp] at hfin
    have hpe : froundMag k m = e * 2 ^ 23 + q := by omega
    have hval : fval (fpack s (froundMag k m)) = if s then -((q * 2 ^ e : Nat) : Int) else ((q * 2 ^ e : Nat) : Int) := by
      unfold fval; rw [hsign, fmag_eq_magOf, hmod, hpe, magOf_pattern hq he]
    have hlsb : (fpack s (froundMag k m)).getLsbD 0 = decide (q % 2 = 1) := by
      rw [lsb_of_mod, hmod, hpe]; congr 1; simp; omega
    have hdv : ∀ c : F32, 2 ^ (23 + e) ≤ fmag c → 2 ^ e ∣ fmag c := by
      intro c; rw [fmag_eq_magOf]; exact dvd_magOf
    have h1 := hnear (fmag c) (hdv c)
    have h0 := hnear 0 (fun _ => Nat.dvd_zero _)
    rw [hval, hlsb, hx]
    have hcv : fval c = if fsign c then -(fmag c : Int) else fmag c := rfl
    rw [hcv]
    simp only [Nat.zero_mul] at h0
    have c1 : ((q * 2 ^ e : Nat) : Int) * 2 ^ k = ((q * 2 ^ e * 2 ^ k : Nat) : Int) := by push_cast; ring
    have c2 : (fmag c : Int) * 2 ^ k = ((fmag c * 2 ^ k : Nat) : Int) := by push_cast; ring
    have n1 : -((q * 2 ^ e : Nat) : Int) * 2 ^ k = -((q * 2 ^ e * 2 ^ k : Nat) : Int) := by rw [neg_mul, c1]
    have n2 : -(fmag c : Int) * 2 ^ k = -((fmag c * 2 ^ k : Nat) : Int) := by rw [neg_mul, c2]
    have hz : fmag c * 2 ^ k = 0 → fmag c = 0 := by
      intro h; rcases Nat.mul_eq_zero.mp h with h | h
      · exact h
      · exact absurd h (Nat.two_pow_pos k).ne'
    revert h1 h0 c1 c2 n1 n2 hz
    generalize q * 2 ^ e * 2 ^ k = A
    generalize fmag c * 2 ^ k = B
    generalize q * 2 ^ e = A'
    generalize fmag c = B'
    intro h1 h0 c1 c2 n1 n2 hz
    have hodd : q % 2 = 0 → decide (q % 2 = 1) = false := by intro h; simp [h]
    clear hnear hdv hbig hmax hp he hpe hval hlsb hexp hmod hfin hc hcv
    cases s <;> cases fsign c <;> simp only [if_true, if_false, Bool.false_eq_true, c1, c2, n1, n2]
    · exact ⟨h1.1, fun h hne => hodd (h1.2 h (by omega))⟩
    · refine ⟨by omega, fun h hne => hodd ?_⟩
      have : B = 0 := by omega
      have := hz this
      exact h0.2 (by omega) (by omega)
    · refine ⟨by omega, fun h hne => hodd ?_⟩
      have : B = 0 := by omega
      have := hz this
      exact h0.2 (by omega) (by omega)
    · have e0 := h1.1
      clear h0 hz c1 c2 n1 n2
      refine ⟨by omega, fun h hne => hodd (h1.2 (by omega) (fun hh => hne (by rw [hh])))⟩

end Sys2Proof.Machine
end

