-- ==== Sys2Proof/Tests/Slice0.lean ====
section
/-! SUPPORT. Tests with values of 95_test_vectors.md and of the rules, and a witness of the hypotheses of each statement. -/

namespace Sys2Proof.Tests

open Sys2Proof Sys2Proof.Machine

set_option Elab.async false

/-! ### Small states -/

/-- The image RGBW of 95_test_vectors.md section 3 with the legal set-up of V60.1. -/
def img : State :=
  { State.reset with
    width := 2, height := 2, srcBase := 0x1000, srcLen := 4, dstBase := 0x2000, dstLen := 16
    mem := [(0x1002, 0xFF), (0x1005, 0xFF), (0x1008, 0xFF), (0x100C, 0xFF), (0x100D, 0xFF), (0x100E, 0xFF)] }

/-- The 1x1 source [0x00123456] (V45.2). -/
def one : State :=
  { State.reset with
    width := 1, height := 1, srcBase := 0x1000, srcLen := 1, dstBase := 0x2000, dstLen := 4
    mem := [(0x1000, 0x56), (0x1001, 0x34), (0x1002, 0x12)] }

/-- The next state of an outcome. -/
def after (o : Host.Outcome State Fault Refusal) : Option State :=
  match o with
  | .next t => some t
  | .fault _ => none
  | .refused _ => none

/-- The state after a CMD write of v to s. -/
def run (v : Nat) (s : State) : Option State := after (step (s.withFetchWord 32 v))

/-- The STATUS word after a CMD write. -/
def status (v : Nat) (s : State) : Option Word := (run v s).map State.statusWord

/-! ### Well-formedness (30_encoding.md R110, R112, 10_state.md R30) -/

theorem test_wf_reserved_bits_refused : CmdFields.rsvZero ⟨0x1#4, 1#28⟩ = false := by decide
theorem test_wf_reserved_opcode_refused : CmdFields.opAssigned ⟨0x7#4, 0#28⟩ = false := by decide
theorem test_wf_refuses_both : CmdFields.wf ⟨0x1#4, 1#28⟩ = false ∧ CmdFields.wf ⟨0xF#4, 0#28⟩ = false := by decide
theorem test_wf_accepts : CmdFields.wf ⟨0x6#4, 0#28⟩ = true := by decide
theorem test_wordOffset_refuses : wordOffset 0x0D#8 = false ∧ wordOffset 0x0E#8 = false ∧ wordOffset 0x0F#8 = false := by
  decide

/-! ### Decoding: words written out from 30_encoding.md R110, R112 -/

theorem test_decode_nop : decode 0b00000000000000000000000000000000#32 = .ok .nop := by decide
theorem test_decode_apply : decode 0b00000000000000000000000000000001#32 = .ok .apply := by decide
theorem test_decode_pixel : decode 0b00000000000000000000000000000010#32 = .ok .pixel := by decide
theorem test_decode_sample : decode 0b00000000000000000000000000000011#32 = .ok .sample := by decide
theorem test_decode_diff : decode 0b00000000000000000000000000000100#32 = .ok .diff := by decide
theorem test_decode_blend : decode 0b00000000000000000000000000000101#32 = .ok .blend := by decide
theorem test_decode_unpack : decode 0b00000000000000000000000000000110#32 = .ok .unpack := by decide
theorem test_decode_illegal : decode 0b00000000000000000000000000000111#32 = .error .reservedOpcode ∧
    decode 0b00000000000000000000000000010001#32 = .error .reservedBits := by decide

/-! ### Commands -/

/-- 45_scan_driver.md R258: STATUS 0 becomes 0x00000002. -/
theorem test_nop_status : status 0 State.reset = some 0x00000002#32 := by decide +kernel

/-- V40.4. -/
theorem test_unpack_results :
    (run 6 { State.reset with opa := 0xAB123456#32 }).map (fun t => [t.res0, t.res1, t.res2, t.res3, t.statusWord]) =
      some [0x12, 0x34, 0x56, 0x00123456, 0x00000002] := by decide +kernel

/-- V42.1. -/
theorem test_diff_trace :
    (run 4 { State.reset with opa := 0x00123456#32, opb := 0x00654321#32 }).map (fun t => t.res0) =
      some 0x4505E03C#32 := by decide +kernel

/-- V42.4: the order of the operations. -/
theorem test_diff_order :
    (run 4 { State.reset with opa := 0x000A141E#32 }).map (fun t => t.res0) = some 0x445CC87F#32 := by decide +kernel

/-- V43.1: high bytes are ignored, and the result's is 0. -/
theorem test_blend_high_bytes :
    (run 5 { State.reset with opa := 0xAB000001#32, opb := 0xCD000002#32 }).map (fun t => t.res0) =
      some 0x00000001#32 := by decide +kernel

/-- V43.3: the wrap of a factor outside [0, 1]. -/
theorem test_blend_wraps : blend 0x00102030#32 0x00F0E0D0#32 0xBF800000#32 = 0x00306090#32 := by decide +kernel

/-- V41.2: a center outside the image, a cell inside. -/
theorem test_sample_center_outside :
    (run 3 { img with opx := 2, opy := 0, opk := 9 }).map (fun t => (t.res0, t.statusWord)) =
      some (0x0000FF00#32, 0x00000002#32) := by decide +kernel

/-- V41.2, 41_neighborhood_sampler.md R165: no wrap of x + 1 = 2^32. -/
theorem test_sample_no_wrap :
    (run 3 { img with opx := 0xFFFFFFFF#32, opy := 0, opk := 11, res0 := 7 }).map (fun t => t.res0) =
      some 0#32 := by decide +kernel

/-- V44.1 at (1, 0): two second candidates. -/
theorem test_pixel_picks :
    (run 2 { img with opx := 1 }).map (fun t => [t.res0, t.res1, t.res2, t.res3, t.decision]) =
      some [0x00007F00, 0x00007F00, 0x007FFF7F, 0x0000FF00, 0x00000057] := by decide +kernel

/-- V44.4: edges are reported for a center outside the image. -/
theorem test_pixel_outside :
    (run 2 { img with opx := 2, res3 := 9 }).map (fun t => [t.res0, t.res1, t.res2, t.res3, t.decision]) =
      some [0, 0, 0, 0, 0x00000046] := by decide +kernel

/-- V45.2: a 1x1 source. -/
theorem test_apply_one :
    (run 1 one).map (fun t => ((List.range 4).map fun n => t.mem.readWord (0x2000 + 4 * n), t.statusWord)) =
      some ([0x00091A2B, 0x00091A2B, 0x00091A2B, 0x00091A2B], 0x00000002) := by decide +kernel

/-- V45.2 with the pass-through of a high byte, in another processing order (44_edge_rule_engine.md R224). -/
theorem test_apply_high_byte :
    (run 1 { one with mem := [(0x1003, 0xFF)], schedule := List.replicate 25 ⟨0, 3, .reuse 0, false⟩ }).map
        (fun t => (List.range 4).map fun n => t.mem.readWord (0x2000 + 4 * n)) =
      some [0xFF000000, 0xFF000000, 0xFF000000, 0xFF000000] := by decide +kernel

/-! ### The accesses that the spec leaves free (20_memory.md R88, 41_neighborhood_sampler.md R162, 60_exceptions.md R293) -/

/-- A running PIXEL of img that has read `reads` and may make n further reads of words that it has read. -/
def reading (reads : List (Nat × Word)) (n : Nat) : Running :=
  { startedRunning .pixel img with reads := reads, rereads := n }

/-- A word read before is reused where the choice says so, the read that it says, or where no further read is left; else it
is read again, be it for the 23rd time (20_memory.md R88, 70_reset_and_hazards.md R341). The first read of a word needs
nothing left. -/
theorem test_reuse :
    [img.fetchWord (reading [(0x1004, 7), (0x1004, 8)] 5) (some 0) 0x1004,
        img.fetchWord (reading [(0x1004, 7), (0x1004, 8)] 5) (some 1) 0x1004,
        img.fetchWord (reading (List.replicate 22 (0x1004, 7)) 1) none 0x1004,
        img.fetchWord (reading [(0x1004, 7)] 0) none 0x1004,
        img.fetchWord (reading [(0x1004, 7)] 0) none 0x1008].map (fun o => o.map fun p => (p.1, p.2.1.rereads)) =
      [some (7, 5), some (8, 5), some (0x0000FF00, 0), some (7, 0), some (0x000000FF, 0)] := by decide +kernel

/-- The reads of a PIXEL of img around (0, 0): four words for the first time, 80 further reads (70_reset_and_hazards.md
R341: 84 in all). -/
theorem test_rereads : (startedRunning .pixel img).rereads + (startedRunning .pixel img).window.todo.length = 84 ∧
    (startedRunning .pixel img).window.todo.length = 4 := by decide

/-- The order of the reads is free: with the word of cell 10 refused, cell 11 can be read first, or the read of cell 10
fails. -/
theorem test_read_order :
    let s : State := { img with busErrors := [(.read, 0x1000)] }
    let win := img.latch.window 0 0 allCells
    win.todo = [10, 11, 15, 16] ∧
      (s.fetchNext (reading [] 0) win 0 0 ⟨0, 1, .fetch, false⟩).map (fun p => (p.1.todo, cell p.1.cells 11)) =
        some ([10, 15, 16], 0x0000FF00) ∧
      s.fetchNext (reading [] 0) win 0 0 ⟨0, 0, .fetch, false⟩ = none := by decide +kernel

/-- A write that memory answers with `bus_error` has changed its word or not. -/
theorem test_landed :
    let s : State := { img with busErrors := [(.write, 0x2000)] }
    [false, true].map (fun landed => (s.memWrite false landed 0x2000 5).map id fun t => t.mem.readWord 0x2000) =
      [(false, 0), (false, 5)] := by decide +kernel

/-- img with a store of 0x00ABCDEF to its first source word that the host holds (70_reset_and_hazards.md R331). -/
def holding : State := img.hold 0x400#30 0x00ABCDEF#32

/-- K1.14: a store that is not performed changes no memory; the other words read as memory holds them; and the word itself,
read when the free bit is 0 or 1, as the old or the new word. -/
theorem test_hold :
    holding.mem = img.mem ∧ (holding.memRead false 0x1004).map Prod.fst = some 0x0000FF00#32 ∧
      holding.heldWord 0x1000 = some 0x00ABCDEF#32 ∧ holding.heldWord 0x1004 = none ∧
      (holding.answer false 0x1000).1 =
        (if (Config.freeWord 0).getLsbD 0 then 0x00ABCDEF#32 else 0x00FF0000#32) ∧
      (holding.hold 0x400#30 5#32).held = [(0x400#30, 5#32)] := by
  refine ⟨rfl, by decide +kernel, by decide, by decide, ?_, by decide⟩
  show (if (Config.freeWord 0).getLsbD 0 then 0x00ABCDEF#32 else img.mem.readWord 0x1000) = _
  rw [show img.mem.readWord 0x1000 = 0x00FF0000#32 by decide]

/-- K1.14: performing it during a PIXEL changes the word and disturbs no one. -/
theorem test_drain :
    let s := { holding.started .pixel with held := holding.held }
    (s.drain 0x400#30).mem.readWord 0x1000 = 0x00ABCDEF#32 ∧ (s.drain 0x400#30).held = [] ∧
      (s.drain 0x400#30).engine = s.engine ∧ (s.drain 0x401#30) = s := by decide +kernel

/-- K1.11: a racing SAMPLE of a cell outside the image makes no read, and its result is the rule's 0
(41_neighborhood_sampler.md R166). -/
theorem test_racing_outside :
    (sampleComplete { startedRunning .sample { img with opk := 0 } with raced := true } { img with res0 := 9 }).res0 = 0 := by
  decide +kernel

/-- K1.11 quadrant by quadrant: around (W, H + 1) only cell 0 lies in the image, and only the top-left rule reads it, so
that the other outputs and their bits are the rules' 0 (44_edge_rule_engine.md R222, R225 to R228, R232). -/
theorem test_racing_quadrant :
    let r := { startedRunning .pixel { img with opx := 2, opy := 3 } with
      raced := true, window := ⟨[], 0x00FFFFFF#32 :: List.replicate 20 0#32⟩ }
    (pixelComplete r img).res0 = Config.freeWord 0 ∧
      [(pixelComplete r img).res1, (pixelComplete r img).res2, (pixelComplete r img).res3] = [0, 0, 0] ∧
      ∀ q ∈ [1, 2, 3], img.racingOut r q = ⟨0, false, false⟩ := by
  refine ⟨rfl, ?_⟩
  decide +kernel

/-- The cells of each rule (44_edge_rule_engine.md R222): 12 each, together all 21. -/
theorem test_rule_cells :
    (∀ q, (ruleOf q).cells.dedup.length = 12) ∧ ∀ k ∈ allCells, ∃ q, k ∈ (ruleOf q).cells := by decide

/-! ### Errors -/

/-- V60.1: the start checks and their priority. -/
theorem test_start_errors :
    [status 9 img, status 1 { img with srcLen := 3 }, status 1 { img with dstLen := 15 },
      status 1 { img with srcBase := 0x1002 }, status 1 { img with dstBase := 0x2001 },
      status 1 { img with srcBase := 0xFFFFFFF8#32 }, status 1 { img with dstBase := 0x100C },
      status 1 { img with srcLen := 3, srcBase := 0x1002 }, status 3 { img with srcLen := 3, opk := 25 },
      status 3 { img with opk := 21 }] =
    [0x106, 0x206, 0x306, 0x406, 0x406, 0x506, 0x606, 0x206, 0x206, 0x706].map some := by decide +kernel

/-- V60.1: bus errors, of reads and of a write (60_exceptions.md R293). -/
theorem test_bus_errors :
    [status 1 { img with busErrors := [(.read, 0x1004)] }, status 1 { img with busErrors := [(.write, 0x203C)] },
      status 2 { img with busErrors := [(.read, 0x1004)] },
      status 3 { img with opk := 15, busErrors := [(.read, 0x1004)] }] = [0x806, 0x806, 0x806, 0x002].map some := by
  decide +kernel

/-- V60.1: buffers that end exactly at 2^32 or are adjacent pass. -/
theorem test_range_and_overlap_pass :
    startError .apply { img.latch with srcBase := 0xFFFFFFF0#32 } = none ∧
      startError .apply { img.latch with dstBase := 0x1010 } = none := by decide +kernel

/-- 60_exceptions.md R294, R296: a CMD write during a command is dropped with OVR = 1. -/
theorem test_overrun :
    (after (step { img.accept 0#32 with inputs := [⟨0, .regWrite 0x0C#8 1#32⟩] })).map State.statusWord =
      some 0x00000009#32 := by decide +kernel

/-! ### Registers -/

/-- V10.1. -/
theorem test_status_w1c :
    let s : State := { State.reset with done := true, err := true, ovr := true, errCode := .range }
    s.statusWord = 0x50E#32 ∧ (s.writeStatus 2).statusWord = 0x50C#32 ∧
      ((s.writeStatus 2).writeStatus 4).statusWord = 0x008#32 ∧
      (((s.writeStatus 2).writeStatus 4).writeStatus 8).statusWord = 0 ∧ (State.reset.writeStatus 1).statusWord = 0 := by
  decide

/-- V10.2. -/
theorem test_reserved_locations :
    (State.reset.writeReg 0x48#8 0xFFFFFFFF#32).readReg 0x48#8 = 0 ∧
      (State.reset.writeReg 0x04#8 0xFFFFFFFF#32).readReg 0x04#8 = 1 ∧ State.reset.readReg 0x0C#8 = 0 ∧
      (State.reset.writeReg 0x00#8 0).readReg 0x00#8 = 0x58425232#32 := by decide

/-- V10.3. -/
theorem test_out_registers :
    let s := (State.reset.writeReg 0x10#8 3).writeReg 0x14#8 5
    let t := (State.reset.writeReg 0x10#8 0x80000000#32).writeReg 0x14#8 1
    [s.readReg 0x28#8, s.readReg 0x2C#8, s.readReg 0x30#8] = [6, 10, 60] ∧
      [t.readReg 0x28#8, t.readReg 0x2C#8, t.readReg 0x30#8] = [0, 2, 0] := by decide

/-- 20_memory.md R81: blue at a, green at a + 1, red at a + 2, the unused byte at a + 3. -/
theorem test_little_endian :
    Memory.writeWord [] 0x10 0xAB123456#32 = [(0x10, 0x56), (0x11, 0x34), (0x12, 0x12), (0x13, 0xAB)] ∧
      Memory.readWord [(0x10, 0x56), (0x12, 0x12)] 0x10 = 0x00120056#32 := by decide

/-! ### Floating point (00_scope.md R10) -/

/-- 1 + 2^-24 is a tie to the even 1; 1 + 3·2^-24 rounds up; the largest finite value doubled is an infinity;
(1 + 2^-23)·(1 - 2^-23) rounds to 1. -/
theorem test_rounding :
    fadd 0x3F800000#32 0x33800000#32 = 0x3F800000#32 ∧ fadd 0x3F800001#32 0x33800000#32 = 0x3F800002#32 ∧
      fadd 0x7F7FFFFF#32 0x7F7FFFFF#32 = 0x7F800000#32 ∧ fmul 0x3F800001#32 0x3F7FFFFE#32 = 0x3F800000#32 := by
  decide +kernel

/-- Gradual underflow, the zero of x - x, and comparisons with a NaN. -/
theorem test_small_and_nan :
    fmul 0x00800000#32 0x3F000000#32 = 0x00400000#32 ∧ fsub 0x3F800000#32 0x3F800000#32 = 0 ∧
      flt 0x7FC00000#32 0 = false ∧ fle 0 0x7FC00000#32 = false ∧ fle 0x80000000#32 0 = true := by decide +kernel

/-! ### Witnesses: states and operands that meet the hypotheses of the statements -/

/-- img with APPLY accepted and its start checks still to come. -/
def busyImg : State := img.accept (encode .apply)

theorem quiet_img (n : Nat) : img.Quiet n := quiet_of_nil rfl n
theorem srcOk_img : img.latch.SrcOk := by unfold Snapshot.SrcOk; decide
theorem dstOk_img : img.latch.DstOk := by unfold Snapshot.DstOk; decide
theorem wf_img : img.mem.wf := by decide

/-- Two source words that end exactly at 2^32: the boundary of RANGE; and the destination adjacent to the source: the
boundary of OVERLAP (60_exceptions.md R288, R289). -/
theorem witness_boundary_buffers :
    (Snapshot.SrcOk { img.latch with srcBase := 0xFFFFFFF0#32 }) ∧ Snapshot.DstOk { img.latch with dstBase := 0x1010 } ∧
      Snapshot.DstOk { img.latch with dstBase := 0x0FC0 } := by
  unfold Snapshot.SrcOk Snapshot.DstOk; decide

/-- NopCompletes, UnpackCompletes, DiffCompletes, BlendCompletes, EveryCommandCompletes (accepted). -/
theorem witness_ready_quiet : img.Ready ∧ img.Quiet 2 ∧ img.inputs = [] := ⟨⟨rfl, rfl⟩, quiet_img 2, rfl⟩

/-- EveryCommandCompletes (running). -/
theorem witness_running : (∃ r, busyImg.engine = .running r) ∧ busyImg.inputs = [] := ⟨⟨_, rfl⟩, rfl⟩

/-- IllegalWordsCompleteWithIllegalCmd: each clause at its boundary words. -/
theorem witness_illegal :
    (0x00000010#32).extractLsb' 4 28 ≠ 0#28 ∧
      ((0x00000006#32).extractLsb' 4 28 = 0#28 ∧ ((0x00000006#32).extractLsb' 0 4).toNat ≤ 6) ∧
      ((0x00000007#32).extractLsb' 4 28 = 0#28 ∧ 7 ≤ ((0x00000007#32).extractLsb' 0 4).toNat) ∧
      img.Ready ∧ img.Quiet 1 ∧ busyImg.rst = false ∧ busyImg.busy = true :=
  ⟨by decide, by decide, by decide, ⟨rfl, rfl⟩, quiet_img 1, rfl, rfl⟩

/-- DecodeEncodeAgree. -/
theorem witness_decode : decode 0x00000006#32 = .ok .unpack ∧ (0x00000006#32) = encode .unpack := by decide

/-- StepRunsTheDecodedCommand. -/
theorem witness_step_runs :
    ({ img with inputs := [⟨0, .regWrite 0x0C#8 2#32⟩] } : State).inputs = ⟨0, .regWrite 0x0C#8 2#32⟩ :: [] ∧
      decode 2#32 = .ok .pixel ∧ decodeTableWord 32 2 = some .pixel := ⟨rfl, by decide, by decide⟩

/-- StepGoesOnWithTheRunningCommand: an event that lands later, while a command runs and while none does; and none. -/
theorem witness_goes_on :
    ({ busyImg with inputs := [⟨1, .rst true⟩] } : State).landing = none ∧ (∃ r, busyImg.engine = .running r) ∧
      ({ img with inputs := [⟨1, .rst true⟩] } : State).landing = none ∧ img.landing = none ∧ img.engine = .idle :=
  ⟨rfl, ⟨_, rfl⟩, rfl, rfl, rfl⟩

/-- AcceptanceLatchesTheOperands. -/
theorem witness_acceptance :
    ({ img with inputs := [⟨0, .regRead 0x08#8⟩] } : State).Ready ∧
      ({ img with inputs := [⟨0, .regRead 0x08#8⟩] } : State).due = true ∧
      ∃ r, busyImg.engine = .running r ∧ r.checked = false ∧
        RegName.opb ∈ [RegName.width, .height, .srcBase, .srcLen, .dstBase, .dstLen, .opx, .opy, .opk, .opa, .opb] :=
  ⟨⟨rfl, rfl⟩, rfl, _, rfl, rfl, by decide⟩

/-- OverrunIsDroppedAndSticky: a write of 8 to STATUS clears OVR. -/
theorem witness_overrun :
    (busyImg.rst = false ∧ busyImg.busy = true) ∧
      ∃ t, step { img with ovr := true, inputs := [⟨0, .regWrite 0x08#8 8#32⟩] } = .next t ∧ t.ovr = false :=
  ⟨⟨rfl, rfl⟩, _, rfl, by decide⟩

/-- ResultsChangeOnlyAtSuccessfulCompletion. -/
theorem witness_results :
    State.StatusLegal { img with opa := 1, inputs := [⟨0, .regWrite 0x0C#8 6#32⟩] } ∧
      ∃ t, step { img with opa := 1, inputs := [⟨0, .regWrite 0x0C#8 6#32⟩] } = .next t ∧ t.res2 ≠ img.res2 :=
  ⟨by unfold State.StatusLegal; decide, _, rfl, by decide +kernel⟩

/-- OnlyPixelWritesDecision. -/
theorem witness_decision : ((run 2 img).map fun t => decide (t.decision ≠ img.decision)) = some true := by
  decide +kernel

/-- DiffIsSymmetricAndIgnoresHighBytes. -/
theorem witness_equal_colours : 0xAB123456#32 &&& 0x00FFFFFF#32 = 0x00123456#32 &&& 0x00FFFFFF#32 := by decide

/-- ToByteTruncatesAndWraps. -/
theorem witness_nan :
    fisNaN 0xFFC00001#32 = true ∧ fisNaN 0xFF7FFFFF#32 = false ∧ fisInf 0xFF7FFFFF#32 = false := by decide

/-- FloatResultsAreNearestEven: the largest finite operands, and a sum and a product that are finite. -/
theorem witness_float :
    fexp 0x7F7FFFFF#32 ≠ 255 ∧ fexp 0xFF7FFFFF#32 ≠ 255 ∧
      (fval 0x7F7FFFFF#32 + fval 0xFF7FFFFF#32).natAbs ≤ fmag 0x7F7FFFFF#32 ∧
      fexp (fadd 0x7F7FFFFF#32 0xFF7FFFFF#32) ≠ 255 ∧ fmag 0x7F7FFFFF#32 * fmag 0x3F800000#32 ≤ fmag 0x7F7FFFFF#32 * 2 ^ 149 ∧
      fexp (fmul 0x7F7FFFFF#32 0x3F800000#32) ≠ 255 := by decide +kernel

/-- FloatResultsAreNearestEven, the comparisons: each holds somewhere, with an infinity and with the two zeros. -/
theorem witness_compare :
    flt 0x7F7FFFFF#32 0x7F800000#32 = true ∧ flt 0x80000000#32 0x00000000#32 = false ∧
      fle 0x00000000#32 0x80000000#32 = true ∧ fle 0x7FC00000#32 0x7FC00000#32 = false := by decide +kernel

/-- FloatResultsAreNearestEven, the tie: 1 + 2^-24 lies as far from 1 as from the next value. -/
theorem witness_float_tie :
    (fval (fadd 0x3F800000#32 0x33800000#32) - (fval 0x3F800000#32 + fval 0x33800000#32)).natAbs =
        (fval 0x3F800001#32 - (fval 0x3F800000#32 + fval 0x33800000#32)).natAbs ∧
      fval 0x3F800001#32 ≠ fval (fadd 0x3F800000#32 0x33800000#32) := by decide +kernel

/-- SamplerCellsAndBounds: a cell at each border, inside and outside. -/
theorem witness_sampler :
    cellOffsets[11]? = some (1, 0) ∧ ((0 : Nat) : Int) + 1 = ((1 : Nat) : Int) ∧ 1 < img.latch.width.toNat ∧
      ((img.latch.width.toNat : Int) ≤ ((1 : Nat) : Int) + 1) ∧ cellOffsets[9]? = some (-1, 0) ∧
      ((0 : Nat) : Int) + -1 < 0 ∧ cellOffsets[19]? = some (0, 2) ∧ (img.latch.height.toNat : Int) ≤ ((0 : Nat) : Int) + 2 := by
  decide

/-- EqualColoursGiveNoEdge: cells that differ in the high byte only. -/
theorem witness_equal_matrix :
    ∀ i ∈ List.range 21, ∀ j ∈ List.range 21,
      cell (0xAB000001#32 :: List.replicate 20 0x00000001#32) i &&& 0x00FFFFFF#32 =
        cell (0xAB000001#32 :: List.replicate 20 0x00000001#32) j &&& 0x00FFFFFF#32 := by decide +kernel

/-- SampleCompletes, at the boundary OPK = 20, with other accesses refused by the platform. -/
theorem witness_sample :
    ({ img with opk := 20, busErrors := [(.read, 0x3000)] } : State).Ready ∧
      ({ img with opk := 20, busErrors := [(.read, 0x3000)] } : State).Quiet 3 ∧ img.latch.SrcOk ∧
      (20#32).toNat ≤ 20 ∧
      (∀ a, img.latch.cellAddr 0 0 20 = some a → (Access.read, a) ∉ [(Access.read, 0x3000)] ∧ img.heldWord a = none) ∧
      img.latch.cellAddr 0 0 20 = none ∧ img.latch.cellAddr 0 0 16 = some 0x100C :=
  ⟨⟨rfl, rfl⟩, quiet_of_nil rfl 3, srcOk_img, by decide, by decide, by decide, by decide⟩

/-- PixelCompletes, with a schedule of an extra read, and a store held for a word outside the source. -/
theorem witness_pixel :
    let s : State := { img with schedule := [⟨0, 0, .extra 2, false⟩], held := [(0x404#30, 1#32)] }
    s.Ready ∧ s.Quiet (23 + s.schedule.length) ∧ s.latch.SrcOk ∧
      ∀ k a, k ≤ 20 → s.latch.cellAddr 0 0 k = some a → (Access.read, a) ∉ s.busErrors ∧ s.heldWord a = none := by
  refine ⟨⟨rfl, rfl⟩, quiet_of_nil rfl _, srcOk_img, ?_⟩
  have h : ∀ k, k < 21 → ∀ a ∈ img.latch.cellAddr 0 0 k,
      State.heldWord { img with held := [(0x404#30, 1#32)] } a = none := by decide
  exact fun k a hk ha => ⟨by simp [img, State.reset], h k (by omega) a ha⟩

/-- StartChecksInOrder, each code at a boundary value. -/
theorem witness_start_checks :
    img.Ready ∧ img.Quiet 1 ∧ startError .apply { img.latch with srcLen := 5 } = some .srcLen ∧
      startError .apply { img.latch with dstLen := 17 } = some .dstLen ∧
      startError .apply { img.latch with dstBase := 0x2001 } = some .align ∧
      startError .apply { img.latch with srcBase := 0xFFFFFFF4#32 } = some .range ∧
      startError .apply { img.latch with dstBase := 0xFFFFFFC4#32 } = some .range ∧
      startError .apply { img.latch with dstBase := 0x100C } = some .overlap ∧
      startError .sample { img.latch with opk := 21 } = some .arg :=
  ⟨⟨rfl, rfl⟩, quiet_img 1, by decide, by decide, by decide, by decide, by decide, by decide, by decide⟩

/-- BusErrorStopsSampleAndPixel: the read of cell 11 of (0, 0). -/
theorem witness_bus :
    ({ img with opk := 11, busErrors := [(.read, 0x1004)] } : State).Ready ∧
      ({ img with opk := 11, busErrors := [(.read, 0x1004)] } : State).Quiet (22 + img.schedule.length) ∧ img.latch.SrcOk ∧
      img.latch.cellAddr 0 0 11 = some 0x1004 ∧ (Access.read, 0x1004) ∈ [(Access.read, 0x1004)] :=
  ⟨⟨rfl, rfl⟩, quiet_of_nil rfl _, srcOk_img, by decide, by decide⟩

/-- ApplyUpscalesTheImage, ApplyLeavesCellsOldOrFinal, ApplyCellsAreOldOrFinalThroughout, and with img twice
ApplyIsIndependentOfOrderAndAddresses. -/
theorem witness_apply :
    img.Ready ∧ (∀ n, img.Quiet n) ∧ img.mem.wf ∧ img.latch.SrcOk ∧ img.latch.DstOk ∧
      (∀ a, img.latch.inSrc a = true → (Access.read, a) ∉ img.busErrors ∧ img.heldWord a = none) ∧
      ∀ a, img.latch.inDst a = true → (Access.write, a) ∉ img.busErrors :=
  ⟨⟨rfl, rfl⟩, quiet_img, wf_img, srcOk_img, dstOk_img, fun _ _ => ⟨by simp [img, State.reset], rfl⟩,
    fun _ _ => by simp [img, State.reset]⟩

/-- ApplyLeavesCellsOldOrFinal: the last source word refused, the last destination cell refused; and every one of either. -/
theorem witness_apply_refused :
    (3 < img.latch.width.toNat * img.latch.height.toNat ∧ img.latch.srcBase.toNat + 4 * 3 = 0x100C ∧
      15 < 4 * (img.latch.width.toNat * img.latch.height.toNat) ∧ img.latch.dstBase.toNat + 4 * 15 = 0x203C) ∧
      (0 < img.latch.width.toNat * img.latch.height.toNat ∧
        ∀ n, n < 4 → (Access.read, 0x1000 + 4 * n) ∈ (List.range 4).map fun n => (Access.read, 0x1000 + 4 * n)) ∧
      ∀ n, n < 16 → (Access.write, 0x2000 + 4 * n) ∈ (List.range 16).map fun n => (Access.write, 0x2000 + 4 * n) := by
  decide

/-- ApplyIsIndependentOfOrderAndAddresses with another destination and another order. -/
theorem witness_apply_elsewhere :
    Snapshot.DstOk { img.latch with dstBase := 0x4000 } ∧
      ({ img with dstBase := 0x4000, schedule := [⟨3, 2, .fetch, false⟩, ⟨1, 0, .extra 3, true⟩] } : State).mem = img.mem := by
  unfold Snapshot.DstOk; decide

/-- DestinationCellsAreABijection. -/
theorem witness_cells :
    1 < img.latch.width.toNat ∧ 1 < img.latch.height.toNat ∧ img.latch.dstCell 1 1 3 = img.latch.dstCell 1 1 3 ∧
      15 < 4 * (img.latch.width.toNat * img.latch.height.toNat) := by decide

/-- EmptyImageApplies, each clause. -/
theorem witness_empty :
    State.reset.Ready ∧ State.reset.Quiet 2 ∧ State.reset.width = 0#32 ∧ State.reset.srcLen = 0#32 ∧
      State.reset.dstLen = 0#32 ∧ ({ State.reset with srcLen := 1 } : State).srcLen ≠ 0#32 ∧
      ({ State.reset with dstLen := 1 } : State).dstLen ≠ 0#32 :=
  ⟨⟨rfl, rfl⟩, quiet_of_nil rfl 2, rfl, rfl, rfl, by decide, by decide⟩

/-- OnlyApplyWritesAndOnlyItsDestination: an APPLY that changes a byte. -/
theorem witness_only_apply_writes :
    ((run 1 { one with mem := [(0x1003, 0xFF)] }).map fun t => decide (t.mem.readByte 0x2003 ≠ 0)) = some true ∧
      Memory.wf [(0x1003, 0xFF)] := by decide +kernel

/-- OnlyApplyWritesAndOnlyItsDestination: no APPLY runs. -/
theorem witness_scan_idle : ({ one with inputs := [⟨0, .regWrite 0x0C#8 1#32⟩] } : State).ScanLegal := by
  intro r hr; cases hr

/-- ScanInvariantKept: a running APPLY with four unfinished pixels. -/
theorem witness_scan : (img.started .apply).ScanLegal ∧ (∃ t, step (img.started .apply) = .next t) ∧
    (startedRunning .apply img).checked = true ∧ (startedRunning .apply img).todo.length = 4 :=
  ⟨fun r hr _ => by
      have h := (scanRight_started wf_img srcOk_img dstOk_img).legal
      unfold State.started at hr
      simp only [Engine.running.injEq] at hr
      exact hr ▸ h, ⟨_, rfl⟩, rfl, by decide⟩

/-- StoresLandInMemory, with no command running or one that does not use the byte: the first and the last byte of the
buffers and the ones beside them; each command's checks passed, and failed. -/
theorem witness_stores :
    img.mem.wf ∧ img.engine = .idle ∧ img.latch.SrcOk ∧ img.latch.DstOk ∧ img.latch.inSrc 0x1000 = true ∧
      img.latch.inSrc 0x100F = true ∧ img.latch.inSrc 0x0FFF = false ∧ img.latch.inSrc 0x1010 = false ∧
      img.latch.inDst 0x2000 = true ∧ img.latch.inDst 0x203F = true ∧ (∃ n, n < img.latch.dstLen.toNat) ∧
      img.latch.inDst 0x1FFF = false ∧ img.latch.inDst 0x2040 = false ∧ ¬Snapshot.SrcOk { img.latch with srcLen := 3 } ∧
      ¬Snapshot.DstOk { img.latch with dstLen := 15 } ∧ img.latch.opk.toNat ≤ 20 ∧ 20 < (21#32).toNat :=
  ⟨wf_img, rfl, srcOk_img, dstOk_img, by decide, by decide, by decide, by decide, by decide, by decide,
    ⟨15, by decide⟩, by decide, by decide, by unfold Snapshot.SrcOk; decide, by unfold Snapshot.DstOk; decide,
    by decide, by decide⟩

/-- StoresLandInMemory: the running commands of its clauses. -/
theorem witness_stores_running :
    (img.started .pixel).commandWord = some 0x00000002#32 ∧ (img.started .sample).commandWord = some 0x00000003#32 ∧
      (img.started .apply).commandWord = some 0x00000001#32 ∧ (img.started .apply).commandSnap = img.latch := by decide

/-- StoresLandInMemory, the bytes of a word: the last word of the address space. -/
theorem witness_word_bytes : img.mem.wf ∧ 0xFFFFFFFC + 3 < 2 ^ 32 := ⟨wf_img, by decide⟩

/-- UnperformedStoresAreOldOrNew, the reads: a word held and one that is not, each readable, and a SAMPLE of the first. -/
theorem witness_held_reads :
    holding.held.lookup 0x400#30 = some 0x00ABCDEF#32 ∧ holding.held.lookup 0x401#30 = none ∧
      (Access.read, 4 * (0x400#30).toNat) ∉ holding.busErrors ∧ State.Ready { holding with opk := 10 } ∧
      State.Quiet { holding with opk := 10 } 3 ∧ holding.latch.SrcOk ∧
      holding.latch.cellAddr 0 0 10 = some (4 * (0x400#30).toNat) :=
  ⟨by decide, by decide, by decide, ⟨rfl, rfl⟩, quiet_of_nil rfl 3, srcOk_img, by decide⟩

/-- UnperformedStoresAreOldOrNew, the events: a store made outside and in the buffers of a command, be it a PIXEL or an APPLY,
and one performed outside and in the destination of an APPLY, at its last word. -/
theorem witness_held_events :
    holding.mem.wf ∧ (¬holding.UsesByte (4 * (0x400#30).toNat)) ∧ (img.started .apply).UsesByte (4 * (0x80F#30).toNat) ∧
      ((img.started .pixel).UsesByte (4 * (0x403#30).toNat) ∧
        ∃ r, (img.started .pixel).engine = .running r ∧ r.word ≠ 0x00000001#32) ∧
      (¬(img.started .apply).OverwritesByte (4 * (0x400#30).toNat)) ∧
      (img.started .apply).OverwritesByte (4 * (0x80F#30).toNat) := by
  refine ⟨wf_img, ?_, ?_, ⟨?_, _, rfl, by decide⟩, ?_, ?_⟩
  · rintro ⟨r, hr, -⟩; cases hr
  · exact ⟨_, rfl, .inr (.inr ⟨rfl, srcOk_img, dstOk_img, .inr (by decide)⟩)⟩
  · exact ⟨_, rfl, .inl ⟨rfl, srcOk_img, by decide⟩⟩
  · rintro ⟨r, hr, -, -, -, h⟩; cases hr; revert h; decide
  · exact ⟨_, rfl, rfl, srcOk_img, dstOk_img, by decide⟩

/-- RacingAccessesUseFreeWords, at the last word of the address space. -/
theorem witness_racing_accesses :
    0xFFFFFFFC % 4 = 0 ∧ 0xFFFFFFFC < 2 ^ 32 ∧ (Access.read, 0xFFFFFFFC) ∉ img.busErrors ∧
      (Access.write, 0xFFFFFFFC) ∉ img.busErrors := by decide

/-- s after the start checks of command i, racing, with `win` read. -/
def racing (i : Instr) (win : Window) (s : State) : State :=
  { s.started i with engine := .running { startedRunning i s with window := win, raced := true } }

/-- A matrix around (x, y) that lacks no word. -/
def readWindow : Window := ⟨[], List.replicate nCells 0#32⟩

/-- `readWindow` is legal around every coordinate. -/
theorem legal_readWindow (q : Snapshot) (x y : Nat) (ks : List Nat) : readWindow.Legal q x y ks :=
  ⟨by decide, List.nil_sublist _, fun k hk _ => by simp [readWindow, hk]⟩

theorem windowLegal_racing (i : Instr) (s : State) : (racing i readWindow s).WindowLegal := by
  intro r hr _
  simp only [racing, Engine.running.injEq] at hr
  subst hr
  exact ⟨fun _ => legal_readWindow _ _ _ _, fun _ => ⟨legal_readWindow _ _ _ _, Nat.zero_le 1⟩⟩

/-- The step of s completes without an error. -/
def completes (s : State) : Bool :=
  match step s with
  | .next t => t.engine == .idle && !t.err
  | .fault _ => false
  | .refused _ => false

/-- RacingResultsAreFree: PIXEL with all of its quadrants free, one, and none; SAMPLE with its cell in the image and not. -/
theorem witness_racing_results :
    (∀ s ∈ [racing .pixel readWindow img, racing .pixel readWindow { img with opx := 2, opy := 3 },
        racing .pixel readWindow { img with opx := 4 },
        racing .sample readWindow { img with opk := 10 }, racing .sample readWindow { img with opk := 9 }],
      s.landing = none ∧ completes s = true) ∧
      (∀ i s, (racing i readWindow s).WindowLegal) ∧
      img.latch.cellAddr 0 0 10 = some 0x1000 ∧ img.latch.cellAddr 2 3 0 = some 0x100C ∧
      (∀ k ∈ (ruleOf 1).cells ++ (ruleOf 2).cells ++ (ruleOf 3).cells, img.latch.cellAddr 2 3 k = none) ∧
      (∀ k, k ≤ 20 → img.latch.cellAddr 4 0 k = none) ∧
      img.latch.cellAddr 0 0 9 = none :=
  ⟨by decide +kernel, windowLegal_racing, by decide, by decide, by decide, by decide, by decide⟩

/-- RacingApplyLeavesFreeWords: img's APPLY right after a store into its source. -/
theorem witness_racing_apply :
    let s := (img.started .apply).store 0x1000 1
    (∃ r, s.engine = .running r ∧ r.word = 0x00000001#32 ∧ r.raced = true ∧ r.snap = img.latch) ∧ s.mem.wf ∧
      s.ScanLegal ∧ s.landing = none ∧ (∃ t, step s = .next t) ∧
      ∀ n, n < img.latch.dstLen.toNat → s.mem.readWord (img.latch.dstBase.toNat + 4 * n) = Config.freeWord (0 + n) :=
  have hwf := Memory.wf_writeByte wf_img (a := 0x1000) (by decide) 1
  ⟨⟨_, rfl, rfl, rfl, rfl⟩, Memory.wf_freeWords hwf (by decide),
    fun r hr _ => by
      obtain rfl : _ = r := Engine.running.inj hr
      exact scanLegal_begun (r := startedRunning .apply img) ((startError_apply_none_iff _).mpr ⟨srcOk_img, dstOk_img⟩)
        noWindow _ true,
    rfl, ⟨_, rfl⟩,
    fun n hn => Memory.readWord_freeWords hwf.1 _ 0 _ n hn⟩

/-- ReadInvariantKept, WindowInvariantKept: a running PIXEL that has read the last word of the source 81 times, with the
first reads of the other three words still to come: 84 in all, the boundary of 21·W·H; and a running SAMPLE. -/
theorem witness_reads :
    let r := reading (List.replicate 81 (0x100C, 7)) 0
    r.ReadsLegal ∧ (State.WindowLegal { img.started .pixel with engine := .running r }) ∧
      (∃ t, step { img.started .pixel with engine := .running r } = .next t) ∧
      (startedRunning .sample { img with opk := 10 }).reads.length +
        (startedRunning .sample { img with opk := 10 }).window.todo.length = 1 :=
  ⟨⟨fun p hp => by obtain rfl := List.eq_of_mem_replicate hp; decide, by decide⟩,
    fun r hr _ => by
      simp only [Engine.running.injEq] at hr
      subst hr
      exact ⟨fun _ => legal_window _ _ _ _, fun h => absurd h (by decide)⟩, ⟨_, rfl⟩, by decide⟩

/-- RegisterReadsFollowTheMap, RegisterWritesFollowTheMap. -/
theorem witness_registers :
    ({ img with inputs := [⟨0, .regRead 0x64#8⟩] } : State).rst = false ∧ (0x64#8).toNat % 4 = 0 ∧ 0x64#8 ≠ 0x0C#8 ∧
      (0x60#8).toNat % 4 = 0 := by decide

/-- IrqIsEnabledDone. -/
theorem witness_irq : (2#32).getLsbD 1 = true ∧ (0xFFFFFFFE#32).getLsbD 0 = false := by decide

/-- MisalignedRegisterAccessIsRefused. -/
theorem witness_misaligned : (0x01#8).toNat % 4 ≠ 0 ∧ (0xFF#8).toNat % 4 ≠ 0 := by decide

/-- ResetClearsTheBlockAndKeepsMemory, each clause: assertion, release, accesses and commands meanwhile. -/
theorem witness_rst :
    ({ busyImg with inputs := [⟨0, .rst true⟩] } : State).inputs = ⟨0, .rst true⟩ :: [] ∧
      ({ State.reset with rst := true, inputs := [⟨0, .rst false⟩] } : State).rst = true ∧ (0x10#8).toNat % 4 = 0 :=
  ⟨rfl, rfl, by decide⟩

/-- StatusInvariantKept, DecisionInvariantKept, MemoryInvariantKept, ResetInvariantKept: a busy state and its step. -/
theorem witness_invariants :
    busyImg.StatusLegal ∧ State.DecisionLegal { img with decision := 0x57 } ∧ busyImg.mem.wf ∧
      State.ResetHeld { State.reset with rst := true } ∧ ∃ t, step { img with inputs := [⟨0, .rst true⟩] } = .next t :=
  ⟨by unfold State.StatusLegal; decide, by unfold State.DecisionLegal; decide, wf_img, fun _ => rfl, _, rfl⟩

end Sys2Proof.Tests
end

section
/-! PROOF. The binary32 operations of 00_scope.md R10 on finite operands are one rounding of the exact result. -/

namespace Sys2Proof.Machine

theorem fisNaN_of_finite {a : F32} (h : fexp a ≠ 255) : fisNaN a = false := by simp [fisNaN, h]

theorem fisInf_of_finite {a : F32} (h : fexp a ≠ 255) : fisInf a = false := by simp [fisInf, h]

theorem fneg_toNat_mod (a : F32) : (fneg a).toNat % 2 ^ 31 = a.toNat % 2 ^ 31 := by
  rw [fneg, BitVec.toNat_xor, Nat.xor_mod_two_pow]
  exact Nat.xor_zero _

@[simp] theorem fsign_fneg (a : F32) : fsign (fneg a) = !fsign a := by
  rw [fsign, fneg, BitVec.msb_xor]
  exact Bool.xor_true _

@[simp] theorem fexp_fneg (a : F32) : fexp (fneg a) = fexp a := by
  rw [fexp_of_mod, fneg_toNat_mod, ← fexp_of_mod]

@[simp] theorem fmag_fneg (a : F32) : fmag (fneg a) = fmag a := by
  rw [fmag_eq_magOf, fneg_toNat_mod, ← fmag_eq_magOf]

@[simp] theorem fval_fneg (a : F32) : fval (fneg a) = -fval a := by
  unfold fval
  cases h : fsign a <;> simp [h]

theorem flt_iff (a b : F32) : flt a b = true ↔ fisNaN a = false ∧ fisNaN b = false ∧ fval a < fval b := by
  simp [flt, and_assoc]

theorem fle_iff (a b : F32) : fle a b = true ↔ fisNaN a = false ∧ fisNaN b = false ∧ fval a ≤ fval b := by
  simp [fle, and_assoc]

/-- The exact x is ±m with sign s, and r is the pattern of that sign rounded from m · 2^-k units. -/
def RoundedFrom (k : Nat) (x : Int) (m : Nat) (r : F32) : Prop :=
  ∃ s : Bool, (x = if s then -(m : Int) else m) ∧ r = fpack s (froundMag k m)

theorem froundMag_zero : froundMag 0 0 = 0 := by decide

/-- The two answers of `fadd` on finite operands are one: a zero sum is rounded like any other. -/
theorem fadd_roundedFrom {a b : F32} (ha : fexp a ≠ 255) (hb : fexp b ≠ 255) :
    RoundedFrom 0 (fval a + fval b) (fval a + fval b).natAbs (fadd a b) := by
  have hadd : fadd a b = if fval a + fval b = 0 then fpack (fsign a && fsign b) 0
      else fpack (decide (fval a + fval b < 0)) (froundMag 0 (fval a + fval b).natAbs) := by
    simp [fadd, fisNaN_of_finite, fisInf_of_finite, ha, hb]
  rw [hadd]
  generalize fval a + fval b = n
  split
  case isTrue hzero =>
    subst hzero
    exact ⟨fsign a && fsign b, by simp, by rw [Int.natAbs_zero, froundMag_zero]⟩
  case isFalse => exact ⟨decide (n < 0), by simp only [decide_eq_true_eq]; omega, rfl⟩

theorem fsub_roundedFrom {a b : F32} (ha : fexp a ≠ 255) (hb : fexp b ≠ 255) :
    RoundedFrom 0 (fval a - fval b) (fval a - fval b).natAbs (fsub a b) := by
  have h := fadd_roundedFrom (b := fneg b) ha (by rwa [fexp_fneg])
  rwa [fval_fneg, ← sub_eq_add_neg] at h

/-- The signs combine as those of the exact product do. -/
theorem fmul_roundedFrom {a b : F32} (ha : fexp a ≠ 255) (hb : fexp b ≠ 255) :
    RoundedFrom 149 (fval a * fval b) (fmag a * fmag b) (fmul a b) := by
  refine ⟨fsign a != fsign b, ?_, ?_⟩
  · unfold fval
    cases fsign a <;> cases fsign b <;> simp
  · simp [fmul, fisNaN_of_finite, fisInf_of_finite, ha, hb]

/-- Settles O22: the comparisons are read off their definitions; each operation on finite operands is one rounding of the
exact result, and a rounding is to the nearest value, ties to even. -/
theorem floatResultsAreNearestEven : Obligations.FloatResultsAreNearestEven := by
  unfold Obligations.FloatResultsAreNearestEven
  refine ⟨fun a b => ⟨flt_iff a b, fle_iff a b⟩, fun a b ha hb => ⟨fun r exact hr => ?_, ?_⟩⟩
  · have hround : RoundedFrom 0 exact exact.natAbs r := by
      obtain ⟨rfl, rfl⟩ | ⟨rfl, rfl⟩ := hr
      · exact fadd_roundedFrom ha hb
      · exact fsub_roundedFrom ha hb
    obtain ⟨s, hx, rfl⟩ := hround
    simpa only [pow_zero, mul_one] using fpack_round (k := 0) exact hx
  · obtain ⟨s, hx, hr⟩ := fmul_roundedFrom ha hb
    rw [hr]
    exact fpack_round _ hx

end Sys2Proof.Machine
end

section
/-! SUPPORT. The register port, a race and `rst`: what they leave alone, and the step in which an event lands. -/

namespace Sys2Proof.Machine

/-! ### What the shared operations write and leave -/

@[simp] theorem State.setReg_engine (s : State) (v : Word) (n : RegName) : (s.setReg v n).engine = s.engine := by
  cases n <;> rfl

@[simp] theorem State.setReg_decision (s : State) (v : Word) (n : RegName) : (s.setReg v n).decision = s.decision := by
  cases n <;> rfl

@[simp] theorem State.writeReg_decision (s : State) (off : BitVec 8) (v : Word) :
    (s.writeReg off v).decision = s.decision := by
  unfold State.writeReg
  split
  · rfl
  · split
    · exact s.setReg_decision v _
    · rfl

@[simp] theorem State.race_engine (s : State) (r : Running) (i : Instr) :
    (s.race r i).engine = .running { r with raced := true } := rfl

@[simp] theorem State.race_done (s : State) (r : Running) (i : Instr) : (s.race r i).done = s.done := by cases i <;> rfl

@[simp] theorem State.race_err (s : State) (r : Running) (i : Instr) : (s.race r i).err = s.err := by cases i <;> rfl

@[simp] theorem State.race_errCode (s : State) (r : Running) (i : Instr) : (s.race r i).errCode = s.errCode := by
  cases i <;> rfl

@[simp] theorem State.race_decision (s : State) (r : Running) (i : Instr) : (s.race r i).decision = s.decision := by
  cases i <;> rfl

@[simp] theorem State.disturbed_decision (s : State) (b : Running → Instr → Bool) :
    (s.disturbed b).decision = s.decision := by
  rcases s.disturbed_cases b with h | ⟨r, i, -, -, -, h⟩
  · rw [h]
  · rw [h, State.race_decision]

@[simp] theorem State.wait_decision (s : State) : s.wait.decision = s.decision := by
  unfold State.wait
  split <;> rfl

/-- A change of `rst` does nothing, or resets the block (70_reset_and_hazards.md R320). -/
theorem State.setRst_cases (s : State) (b : Bool) : s.setRst b = s ∨ s.setRst b = { s.resetBlock with rst := b } := by
  unfold State.setRst
  split
  · exact .inr rfl
  · exact .inl rfl

theorem State.busy_iff (s : State) : s.busy = true ↔ ∃ r, s.engine = .running r := by
  unfold State.busy
  cases s.engine <;> simp

/-- A word written to CMD is ignored under reset, dropped with OVR <- 1 while BUSY = 1, or accepted. -/
theorem issue_cases {step : BlockStep} {w : Word} {s t : State} (h : issue step w s = .next t) :
    t = s ∨ t = s.overrun ∨ (s.engine = .idle ∧ t = (s.accept w).runBlock step) := by
  unfold issue at h
  split at h
  · cases h; exact .inl rfl
  · split at h
    · cases h; exact .inr (.inl rfl)
    · next hb =>
      cases h
      refine .inr (.inr ⟨?_, rfl⟩)
      cases he : s.engine with
      | idle => rfl
      | running r => exact absurd (s.busy_iff.mpr ⟨r, he⟩) hb

/-! ### The event that lands -/

/-- An event at the head of the queue with no block step before it lands in this step (60_exceptions.md R296). -/
theorem step_of_landing {s : State} {e : Event} {rest : List Input} (h : s.inputs = ⟨0, e⟩ :: rest) :
    step s = perform e { s with inputs := rest } := by
  unfold step
  rw [h]
  rfl

theorem wordOffset_iff {off : BitVec 8} : wordOffset off = true ↔ off.toNat % 4 = 0 := by simp [wordOffset]

theorem step_regRead {s : State} {off : BitVec 8} {rest : List Input} (h : s.inputs = ⟨0, .regRead off⟩ :: rest)
    (hoff : off.toNat % 4 = 0) : step s = .next { s with inputs := rest, readData := s.readReg off } := by
  rw [step_of_landing h]
  exact if_pos (wordOffset_iff.mpr hoff)

theorem step_regWrite {s : State} {off : BitVec 8} {v : Word} {rest : List Input}
    (h : s.inputs = ⟨0, .regWrite off v⟩ :: rest) (hoff : off.toNat % 4 = 0) (hne : off ≠ cmdOffset) :
    step s = .next ({ s with inputs := rest }.writeReg off v) := by
  rw [step_of_landing h]
  exact (if_pos (wordOffset_iff.mpr hoff)).trans (if_neg hne)

theorem step_cmdWrite {s : State} {v : Word} {rest : List Input} (h : s.inputs = ⟨0, .regWrite cmdOffset v⟩ :: rest) :
    step s = command v { s with inputs := rest } := step_of_landing h

/-! ### Invariants of the command engine -/

/-- The engine, STATUS but OVR, and DECISION are the same: what the environment changes only by CMD, STATUS and `rst`. -/
structure State.SameBlock (s t : State) : Prop where
  engine : t.engine = s.engine
  done : t.done = s.done
  err : t.err = s.err
  errCode : t.errCode = s.errCode
  decision : t.decision = s.decision

theorem sameBlock_setReg (s : State) (v : Word) {n : RegName} (hn : n ≠ .status) : s.SameBlock (s.setReg v n) := by
  cases n with
  | status => exact absurd rfl hn
  | _ => exact ⟨rfl, rfl, rfl, rfl, rfl⟩

/-- The induction over what a step can do, for a property of the engine, STATUS but OVR, and DECISION alone. -/
theorem step_induct_block (P : State → Prop)
    (hsame : ∀ s t, s.SameBlock t → P s → P t)
    (hreset : P State.reset)
    (hstatus : ∀ s v, P s → P (s.writeStatus v))
    (hrace : ∀ s r i, s.engine = .running r → P s → P (s.race r i))
    (haccept : ∀ s w, P s → P (s.accept w))
    (hblock : ∀ s r, s.engine = .running r → P s → P (wordStep r.word r s))
    {s t : State} (hs : P s) (h : step s = .next t) : P t := by
  have hkeep : ∀ {s t : State}, s.SameBlock t → P s → P t := fun {s t} => hsame s t
  refine step_induct P ?inputs ?read ?write ?byte ?word ?held ?race ?rst ?bus ?accept ?overrun hblock hs h
  case inputs => exact fun _ _ => hkeep ⟨rfl, rfl, rfl, rfl, rfl⟩
  case read => exact fun _ _ => hkeep ⟨rfl, rfl, rfl, rfl, rfl⟩
  case write =>
    intro s n v _ hp
    by_cases hn : n = .status
    · subst hn; exact hstatus s v hp
    · exact hkeep (sameBlock_setReg s v hn) hp
  case byte => exact fun _ _ _ => hkeep ⟨rfl, rfl, rfl, rfl, rfl⟩
  case word => exact fun _ _ _ => hkeep ⟨rfl, rfl, rfl, rfl, rfl⟩
  case held => exact fun _ _ => hkeep ⟨rfl, rfl, rfl, rfl, rfl⟩
  case race => exact fun s r i he _ _ => hrace s r i he
  case rst =>
    intro s b hp
    rcases s.setRst_cases b with hb | hb <;> rw [hb]
    · exact hp
    · exact hsame State.reset _ ⟨rfl, rfl, rfl, rfl, rfl⟩ hreset
  case bus => exact fun _ _ => hkeep ⟨rfl, rfl, rfl, rfl, rfl⟩
  case accept => exact fun s w _ _ => haccept s w
  case overrun => exact fun _ _ => hkeep ⟨rfl, rfl, rfl, rfl, rfl⟩

end Sys2Proof.Machine
end

section
/-! PROOF. Every step keeps the invariants of STATUS, of DECISION and of the scan, and only PIXEL writes DECISION. -/

namespace Sys2Proof.Machine

/-! ### STATUS -/

theorem statusLegal_same {s t : State} (hst : s.SameBlock t) (h : s.StatusLegal) : t.StatusLegal := by
  obtain ⟨hengine, hdone, herr, hcode, -⟩ := hst
  unfold State.StatusLegal State.busy at *
  rwa [hengine, hdone, herr, hcode]

theorem statusLegal_idle {s : State} (hengine : s.engine = .idle) (herr : s.err = false ↔ s.errCode = .none) :
    s.StatusLegal :=
  ⟨fun hb => by simp [State.busy, hengine] at hb, herr⟩

theorem statusLegal_running {s : State} (hdone : s.done = false) (herr : s.err = false) (hcode : s.errCode = .none) :
    s.StatusLegal :=
  ⟨fun _ => ⟨hdone, herr, hcode⟩, by simp [herr, hcode]⟩

theorem status_of_running {s : State} {r : Running} (h : s.StatusLegal) (he : s.engine = .running r) :
    s.done = false ∧ s.err = false ∧ s.errCode = .none := h.1 (s.busy_iff.mpr ⟨r, he⟩)

/-- Write-1-to-clear takes ERR and ERRCODE together (10_state.md R35). -/
theorem statusLegal_writeStatus {s : State} (v : Word) (h : s.StatusLegal) : (s.writeStatus v).StatusLegal := by
  obtain ⟨hbusy, herr⟩ := h
  constructor
  · intro hb
    obtain ⟨hd, he, hc⟩ := hbusy hb
    simp [State.writeStatus, hd, he, hc]
  · show (s.err && !v.getLsbD 2) = false ↔ (if v.getLsbD 2 then .none else s.errCode) = ErrCode.none
    cases v.getLsbD 2
    · simpa using herr
    · simp

theorem statusLegal_reset : State.reset.StatusLegal := statusLegal_idle rfl (iff_of_true rfl rfl)

theorem statusLegal_race {s : State} {r : Running} (i : Instr) (he : s.engine = .running r) (h : s.StatusLegal) :
    (s.race r i).StatusLegal := by
  obtain ⟨hdone, herr, hcode⟩ := status_of_running h he
  exact statusLegal_running (by simpa) (by simpa) (by simpa)

/-- A step of the running command completes it, fails with a code other than NONE, or leaves STATUS alone. -/
theorem statusLegal_wordStep {s : State} {r : Running} (he : s.engine = .running r) (h : s.StatusLegal) :
    (wordStep r.word r s).StatusLegal := by
  obtain ⟨hdone, herr, hcode⟩ := status_of_running h he
  obtain ⟨-, i, -, hend, -⟩ := wordStep_cases r s
  cases hend with
  | completed hidle _ herr' hcode' => exact statusLegal_idle hidle (by simp [herr', hcode', herr, hcode])
  | failed code hne hidle _ herr' hcode' => exact statusLegal_idle hidle (by simp [herr', hcode', hne])
  | going r' _ _ _ _ _ _ hdone' herr' hcode' =>
    exact statusLegal_running (hdone'.trans hdone) (herr'.trans herr) (hcode'.trans hcode)

/-- Settles O54, by the induction over what a step can do. -/
theorem statusInvariantKept : Obligations.StatusInvariantKept := by
  unfold Obligations.StatusInvariantKept
  intro s t hs hstep
  exact step_induct_block State.StatusLegal (fun _ _ => statusLegal_same) statusLegal_reset
    (fun _ => statusLegal_writeStatus) (fun _ _ i => statusLegal_race i) (fun _ _ _ => statusLegal_running rfl rfl rfl)
    (fun _ _ => statusLegal_wordStep) hs hstep

/-! ### DECISION -/

theorem decisionLegal_congr {s t : State} (hdecision : t.decision = s.decision) (h : s.DecisionLegal) :
    t.DecisionLegal := by
  unfold State.DecisionLegal at *
  rwa [hdecision]

theorem decisionLegal_of_decisionWord {s : State} {e p : Fin 4 → Bool} (h : s.decision = decisionWord e p)
    (hpick : ∀ q, p q = true → e q = true) : s.DecisionLegal := by
  obtain ⟨hlt, hbits⟩ := decisionWord_bits e p
  refine ⟨h ▸ hlt, fun q hq => ?_⟩
  rw [h, (hbits q).2] at hq
  rw [h, (hbits q).1]
  exact hpick q hq

theorem decisionLegal_reset : State.reset.DecisionLegal := by
  unfold State.DecisionLegal
  decide

/-- A step of the running command writes DECISION only as PIXEL's completion does (44_edge_rule_engine.md R232). -/
theorem wordStep_decision (r : Running) (s : State) :
    (wordStep r.word r s).decision = s.decision ∨
      (decode r.word = .ok .pixel ∧
        ∃ e p, (wordStep r.word r s).decision = decisionWord e p ∧ ∀ q, p q = true → e q = true) := by
  obtain ⟨-, i, -, hend, hi⟩ := wordStep_cases r s
  cases hend with
  | completed _ _ _ _ _ hdecision =>
    rcases hdecision with h | ⟨rfl, h⟩
    · exact .inl h
    · exact .inr ⟨hi (by decide), h⟩
  | failed _ _ _ _ _ _ hresults => exact .inl hresults.decision
  | going _ _ _ _ _ _ _ _ _ _ hresults => exact .inl hresults.decision

theorem decisionLegal_wordStep (r : Running) {s : State} (h : s.DecisionLegal) :
    (wordStep r.word r s).DecisionLegal := by
  rcases wordStep_decision r s with hd | ⟨-, e, p, hd, hpick⟩
  · exact decisionLegal_congr hd h
  · exact decisionLegal_of_decisionWord hd hpick

/-- Settles O55, by the induction over what a step can do: DECISION is kept, reset, or a word of edge and pick bits. -/
theorem decisionInvariantKept : Obligations.DecisionInvariantKept := by
  unfold Obligations.DecisionInvariantKept
  intro s t hs hstep
  exact step_induct_block State.DecisionLegal (fun _ _ hst => decisionLegal_congr hst.decision) decisionLegal_reset
    (fun _ _ => decisionLegal_congr rfl) (fun s r i _ => decisionLegal_congr (s.race_decision r i))
    (fun _ _ => decisionLegal_congr rfl) (fun _ r _ => decisionLegal_wordStep r) hs hstep

/-- A run of a command other than PIXEL leaves DECISION alone. -/
theorem runBlock_decision {w : Word} (hw : w ≠ encode .pixel) {s : State} (hs : ∀ r, s.engine = .running r → r.word = w) :
    (s.runBlock (wordStep w)).decision = s.decision := by
  refine (runSteps_induct (fun u => (∀ r, u.engine = .running r → r.word = w) ∧ u.decision = s.decision)
    ?_ s.left s hs ⟨hs, rfl⟩).2
  intro u r he ⟨hword, hdecision⟩
  refine ⟨fun r' he' => (wordStep_word he').trans (hword r he), ?_⟩
  rcases wordStep_decision r u with h | ⟨hpixel, -⟩
  · exact h.trans hdecision
  · exact absurd ((hword r he).symm.trans (eq_encode_of_decode hpixel)) hw

/-- An event other than `rst`, and other than a CMD write of PIXEL to an idle block, leaves DECISION alone. -/
theorem perform_decision {e : Event} {s t : State} (h : perform e s = .next t) (hrst : ∀ b, e ≠ .rst b)
    (hpixel : s.engine = .idle → e ≠ .regWrite cmdOffset (encode .pixel)) : t.decision = s.decision := by
  cases e with
  | regRead off =>
    simp only [perform] at h
    split at h <;> cases h
    rfl
  | regWrite off v =>
    simp only [perform] at h
    split at h
    · split at h
      · next hoff =>
        rw [command_eq_issue] at h
        rcases issue_cases h with rfl | rfl | ⟨hidle, rfl⟩
        · rfl
        · rfl
        · refine runBlock_decision ?_ fun r hr => by cases hr; rfl
          rintro rfl
          exact hpixel hidle (by rw [hoff])
      · cases h; exact s.writeReg_decision off v
    · cases h
  | store a v => cases h; exact State.disturbed_decision _ _
  | hold n v => cases h; exact State.disturbed_decision _ _
  | drain n =>
    cases h
    unfold State.drain
    split
    · rfl
    · exact State.disturbed_decision _ _
  | rst b => exact absurd rfl (hrst b)
  | busErrors l => cases h; rfl

/-- Settles O9: with no event landing the running command goes on, and else the event decides. -/
theorem onlyPixelWritesDecision : Obligations.OnlyPixelWritesDecision := by
  unfold Obligations.OnlyPixelWritesDecision
  intro s t hstep hchanged
  by_contra hno
  rw [not_or] at hno
  obtain ⟨hpixel, hrst⟩ := hno
  apply hchanged
  rw [step_eq] at hstep
  cases hl : s.landing with
  | some e =>
    rw [hl] at hstep hrst
    refine perform_decision (s := { s with inputs := s.inputs.tail }) hstep (fun b hb => hrst ⟨b, by rw [hb]⟩) ?_
    rintro hidle rfl
    exact hpixel (by simp only at hidle; simp only [State.commandWord, hidle, hl]; rfl)
  | none =>
    rw [hl] at hstep
    cases hstep
    unfold State.goOn
    cases he : s.engine with
    | idle => exact s.wait_decision
    | running r =>
      refine runBlock_decision ?_ fun r' hr' => by rw [he] at hr'; cases hr'; rfl
      intro hw
      exact hpixel (by simp only [State.commandWord, he, hw]; rfl)

/-! ### The scan -/

theorem scanLegal_congr {s t : State} (hengine : t.engine = s.engine) (h : s.ScanLegal) : t.ScanLegal := by
  unfold State.ScanLegal at *
  rwa [hengine]

theorem scanLegal_idle {s : State} (hengine : s.engine = .idle) : s.ScanLegal := by
  intro r hr
  rw [hengine] at hr
  cases hr

/-- A race changes nothing of the scan. -/
theorem scanLegal_race {s : State} {r : Running} (i : Instr) (he : s.engine = .running r) (h : s.ScanLegal) :
    (s.race r i).ScanLegal := by
  intro r' he' hw
  cases he'
  exact h r he hw

/-- The start checks of an accepted command are still to come. -/
theorem scanLegal_accept (s : State) (w : Word) : (s.accept w).ScanLegal := by
  intro r he _ hchecked
  cases he
  cases hchecked

theorem scanLegal_wordStep {s : State} {r : Running} (he : s.engine = .running r) (h : s.ScanLegal) :
    (wordStep r.word r s).ScanLegal := by
  intro r' he' hw
  have hword : r.word = encode .apply := (wordStep_word he').symm.trans hw
  rw [hword, wordStep_encode] at he'
  exact applyStep_scanLegal (h r he hword) he'

/-- Settles O58, by the induction over what a step can do: a running APPLY's step keeps its scan legal. -/
theorem scanInvariantKept : Obligations.ScanInvariantKept := by
  unfold Obligations.ScanInvariantKept
  intro s t hs hstep
  exact step_induct_block State.ScanLegal (fun _ _ hst => scanLegal_congr hst.engine) (scanLegal_idle rfl)
    (fun _ _ => scanLegal_congr rfl) (fun _ _ i => scanLegal_race i) (fun s w _ => scanLegal_accept s w)
    (fun _ _ => scanLegal_wordStep) hs hstep

end Sys2Proof.Machine
end

section
/-! PROOF. Acceptance latches the operands, and no step of the block reads the live operand registers. -/

namespace Sys2Proof.Machine

/-! ### The live operand registers -/

/-- The operand registers (10_state.md R56) take the values that f gives of them. -/
def State.mapOperands (f : Snapshot → Snapshot) (s : State) : State :=
  { s with
    width := (f s.latch).width
    height := (f s.latch).height
    srcBase := (f s.latch).srcBase
    srcLen := (f s.latch).srcLen
    dstBase := (f s.latch).dstBase
    dstLen := (f s.latch).dstLen
    opx := (f s.latch).opx
    opy := (f s.latch).opy
    opk := (f s.latch).opk
    opa := (f s.latch).opa
    opb := (f s.latch).opb }

/-- A host write to an operand register changes no other register. -/
theorem setReg_eq_mapOperands {n : RegName} (v : Word)
    (hn : n ∈ [RegName.width, .height, .srcBase, .srcLen, .dstBase, .dstLen, .opx, .opy, .opk, .opa, .opb]) :
    ∃ f, ∀ s : State, s.setReg v n = s.mapOperands f := by
  simp only [List.mem_cons, List.not_mem_nil, or_false] at hn
  rcases hn with rfl | rfl | rfl | rfl | rfl | rfl | rfl | rfl | rfl | rfl | rfl
  · exact ⟨fun q => { q with width := v }, fun _ => rfl⟩
  · exact ⟨fun q => { q with height := v }, fun _ => rfl⟩
  · exact ⟨fun q => { q with srcBase := v }, fun _ => rfl⟩
  · exact ⟨fun q => { q with srcLen := v }, fun _ => rfl⟩
  · exact ⟨fun q => { q with dstBase := v }, fun _ => rfl⟩
  · exact ⟨fun q => { q with dstLen := v }, fun _ => rfl⟩
  · exact ⟨fun q => { q with opx := v }, fun _ => rfl⟩
  · exact ⟨fun q => { q with opy := v }, fun _ => rfl⟩
  · exact ⟨fun q => { q with opk := v }, fun _ => rfl⟩
  · exact ⟨fun q => { q with opa := v }, fun _ => rfl⟩
  · exact ⟨fun q => { q with opb := v }, fun _ => rfl⟩

/-- The operands mapped in the state that getting a word leaves, if memory answers. -/
def mapAnswered {α : Type} (f : Snapshot → Snapshot) (o : Option (α × Running × State)) : Option (α × Running × State) :=
  o.map (Prod.map id (Prod.map id (State.mapOperands f)))

section
variable (f : Snapshot → Snapshot) (s : State) (r : Running)

theorem heldWord_mapOperands (a : Nat) : (s.mapOperands f).heldWord a = s.heldWord a := rfl
theorem engine_mapOperands : (s.mapOperands f).engine = s.engine := rfl
theorem portOk_mapOperands (k : Access) (a : Nat) : (s.mapOperands f).portOk k a = s.portOk k a := rfl
theorem choice_mapOperands : (s.mapOperands f).choice = s.choice := rfl
theorem useChoice_mapOperands : (s.mapOperands f).useChoice = s.useChoice.mapOperands f := rfl

theorem answer_mapOperands (raced : Bool) (a : Nat) :
    (s.mapOperands f).answer raced a = (s.answer raced a).map id (State.mapOperands f) := by
  unfold State.answer
  split
  · rfl
  · rw [heldWord_mapOperands]
    cases s.heldWord a <;> rfl

theorem readWord_mapOperands (a : Nat) :
    (s.mapOperands f).readWord r a = mapAnswered f (s.readWord r a) := by
  unfold State.readWord State.memRead
  rw [portOk_mapOperands, answer_mapOperands]
  cases s.portOk .read a <;> rfl

theorem fetchWord_mapOperands (reuse : Option Nat) (a : Nat) :
    (s.mapOperands f).fetchWord r reuse a = mapAnswered f (s.fetchWord r reuse a) := by
  unfold State.fetchWord
  split
  · exact readWord_mapOperands f s r a
  · split
    · rfl
    · exact readWord_mapOperands f s _ a

theorem fetchCell_mapOperands (reuse : Option Nat) (x y k : Nat) :
    (s.mapOperands f).fetchCell r reuse x y k = mapAnswered f (s.fetchCell r reuse x y k) := by
  unfold State.fetchCell
  split
  · rfl
  · exact fetchWord_mapOperands f s r reuse _

theorem fetchNext_mapOperands (win : Window) (x y : Nat) (c : Choice) :
    (s.mapOperands f).fetchNext r win x y c = mapAnswered f (s.fetchNext r win x y c) := by
  unfold State.fetchNext
  split
  · rfl
  · rw [fetchCell_mapOperands]
    cases s.fetchCell r c.read.reuses x y _ <;> rfl

theorem extraRead_mapOperands (a : Nat) : (s.mapOperands f).extraRead r a = (s.extraRead r a).mapOperands f := by
  unfold State.extraRead
  rw [fetchWord_mapOperands]
  cases s.fetchWord r none a <;> rfl

theorem memWrite_mapOperands (raced landed : Bool) (a : Nat) (v : Word) :
    (s.mapOperands f).memWrite raced landed a v = (s.memWrite raced landed a v).map id (State.mapOperands f) := by
  have hput : (s.mapOperands f).putWord raced a v = (s.putWord raced a v).mapOperands f := by cases raced <;> rfl
  unfold State.memWrite
  rw [portOk_mapOperands, hput]
  split
  · rfl
  · split <;> rfl

theorem begin_mapOperands (i : Instr) (win : Window) (todo : List PixelJob) :
    (s.mapOperands f).begin i r win todo = (s.begin i r win todo).mapOperands f := by
  rw [begin_eq, begin_eq]
  split <;> rfl

theorem pixelStep_mapOperands : pixelStep r (s.mapOperands f) = (pixelStep r s).mapOperands f := by
  unfold pixelStep
  rw [choice_mapOperands, useChoice_mapOperands]
  split
  · split
    · exact extraRead_mapOperands f s.useChoice r _
    · split
      · unfold pixelComplete
        split <;> rfl
      · unfold pixelFetch
        rw [fetchNext_mapOperands]
        cases s.useChoice.fetchNext r r.window r.snap.opx.toNat r.snap.opy.toNat s.choice <;> rfl
  · exact begin_mapOperands f s r _ _ _

theorem sampleStep_mapOperands : sampleStep r (s.mapOperands f) = (sampleStep r s).mapOperands f := by
  unfold sampleStep
  split
  · split
    · unfold sampleComplete
      split <;> rfl
    · rw [fetchCell_mapOperands]
      cases s.fetchCell r none r.snap.opx.toNat r.snap.opy.toNat r.snap.opk.toNat <;> rfl
  · exact begin_mapOperands f s r _ _ _

theorem jobStep_mapOperands (i : Nat) (j : PixelJob) (c : Choice) :
    jobStep r i j c (s.mapOperands f) = (jobStep r i j c s).mapOperands f := by
  unfold jobStep
  split
  · rw [fetchNext_mapOperands]
    cases s.fetchNext r _ j.x j.y c <;> rfl
  · split
    · rfl
    · rw [memWrite_mapOperands]
      rcases s.memWrite r.raced c.landed _ _ with ⟨_ | _, u⟩ <;> rfl

theorem applyStep_mapOperands : applyStep r (s.mapOperands f) = (applyStep r s).mapOperands f := by
  unfold applyStep
  rw [choice_mapOperands, useChoice_mapOperands]
  split
  · split
    · exact extraRead_mapOperands f s.useChoice r _
    · split
      · rfl
      · exact jobStep_mapOperands f s.useChoice r _ _ _
  · exact begin_mapOperands f s r _ _ _

/-- No step of a command reads or writes the live operand registers (10_state.md R56). -/
theorem commandStep_mapOperands (i : Instr) : commandStep i r (s.mapOperands f) = (commandStep i r s).mapOperands f := by
  cases hc : r.checked with
  | false => rw [commandStep_unchecked i _ hc, commandStep_unchecked i _ hc, begin_mapOperands]
  | true =>
    cases i with
    | apply => exact applyStep_mapOperands f s r
    | pixel => exact pixelStep_mapOperands f s r
    | sample => exact sampleStep_mapOperands f s r
    | nop => simp only [commandStep, nopStep, hc]; rfl
    | diff => simp only [commandStep, diffStep, hc]; rfl
    | blend => simp only [commandStep, blendStep, hc]; rfl
    | unpack => simp only [commandStep, unpackStep, hc]; rfl

theorem wordStep_mapOperands (w : Word) : wordStep w r (s.mapOperands f) = (wordStep w r s).mapOperands f := by
  unfold wordStep
  cases decode w with
  | ok i => exact commandStep_mapOperands f s r i
  | error e => rfl

theorem runSteps_mapOperands (w : Word) (n : Nat) :
    (s.mapOperands f).runSteps (wordStep w) n = (s.runSteps (wordStep w) n).mapOperands f := by
  induction n generalizing s with
  | zero => rfl
  | succ n ih =>
    cases he : s.engine with
    | idle => rw [runSteps_idle _ _ he, runSteps_idle (s := s.mapOperands f) _ _ he]
    | running r =>
      cases hd : s.due with
      | true => rw [runSteps_due _ _ hd, runSteps_due (s := s.mapOperands f) _ _ hd]
      | false =>
        rw [runSteps_succ _ n he hd, runSteps_succ (s := s.mapOperands f) _ n he hd, wordStep_mapOperands]
        exact ih (wordStep w r s).tick

end

/-- A running command goes on alike whatever the live operand registers hold (10_state.md R56). -/
theorem goOn_mapOperands {s : State} {r : Running} (f : Snapshot → Snapshot) (he : s.engine = .running r) :
    (s.mapOperands f).goOn = s.goOn.mapOperands f := by
  unfold State.goOn
  rw [engine_mapOperands, he]
  exact runSteps_mapOperands f s r.word s.left

/-! ### Acceptance -/

/-- A word accepted when the next event lands at once makes no step before it. -/
theorem command_due {s : State} (v : Word) (h : s.Ready) (hd : s.due = true) : command v s = .next (s.accept v) := by
  rw [command_eq_issue, issue_ready _ _ h]
  exact congrArg _ (runSteps_due _ _ hd)

/-- The start checks read neither memory nor its answers (60_exceptions.md R282). -/
theorem wordStep_unchecked {r : Running} (h : r.checked = false) (w : Word) (s : State) (m : Memory)
    (l : List (Access × Nat)) :
    wordStep w r { s with mem := m, busErrors := l } = { wordStep w r s with mem := m, busErrors := l } := by
  unfold wordStep
  cases decode w with
  | error e => rfl
  | ok i =>
    simp only [commandStep_unchecked i _ h, begin_eq]
    split <;> rfl

/-- Settles O6: acceptance is `State.accept`, a write to an operand register maps the live operands, with which every step
commutes, and an unchecked command's step is its start checks. -/
theorem acceptanceLatchesTheOperands : Obligations.AcceptanceLatchesTheOperands := by
  unfold Obligations.AcceptanceLatchesTheOperands
  refine ⟨fun s v h hd => command_due v h hd, fun s r n v he hn => ?_, fun s r m l h => wordStep_unchecked h r.word s m l⟩
  obtain ⟨f, hf⟩ := setReg_eq_mapOperands v hn
  rw [hf, hf]
  exact goOn_mapOperands f he

end Sys2Proof.Machine
end

section
/-! PROOF. The register map, the words of STATUS and CTRL, the CMD write that runs a command, and the state after reset. -/

namespace Sys2Proof.Machine

/-! ### The CMD write -/

theorem step_cmdWrite_of_decode {s : State} {v : Word} {rest : List Input} {i : Instr}
    (h : s.inputs = ⟨0, .regWrite cmdOffset v⟩ :: rest) (hd : decode v = .ok i) :
    step s = exec i { s with inputs := rest } := by
  rw [step_cmdWrite h, eq_encode_of_decode hd, command_encode]

theorem decode_tableWord {nbits w : Nat} {i : Instr} (h : decodeTableWord nbits w = some i) :
    decode (tableWord nbits w) = .ok i := by
  unfold decodeTableWord at h
  split at h
  · next hd => cases h; exact hd
  · cases h

/-- Settles O4: the landing CMD write is `command` of its word, which runs the command that the word decodes to. -/
theorem stepRunsTheDecodedCommand : Obligations.StepRunsTheDecodedCommand := by
  unfold Obligations.StepRunsTheDecodedCommand
  exact ⟨fun s v rest i h hd => step_cmdWrite_of_decode h hd,
    fun s nbits w i h => step_cmdWrite_of_decode (s := s.withFetchWord nbits w) rfl (decode_tableWord h)⟩

/-! ### The register map -/

/-- The register map by the number of the offset (10_state.md R31). -/
def registerNumber : Nat → Option RegName
  | 0x00 => some .id
  | 0x04 => some .ctrl
  | 0x08 => some .status
  | 0x0C => some .cmd
  | 0x10 => some .width
  | 0x14 => some .height
  | 0x18 => some .srcBase
  | 0x1C => some .srcLen
  | 0x20 => some .dstBase
  | 0x24 => some .dstLen
  | 0x28 => some .outWidth
  | 0x2C => some .outHeight
  | 0x30 => some .outLen
  | 0x34 => some .opx
  | 0x38 => some .opy
  | 0x3C => some .opk
  | 0x40 => some .opa
  | 0x44 => some .opb
  | 0x50 => some .res0
  | 0x54 => some .res1
  | 0x58 => some .res2
  | 0x5C => some .res3
  | 0x60 => some .decision
  | _ => none

theorem registerAt_eq : ∀ off : BitVec 8, registerAt off = registerNumber off.toNat := by decide

theorem readReg_eq {s : State} (hrst : s.rst = false) (off : BitVec 8) :
    s.readReg off = ((registerNumber off.toNat).map s.regValue).getD 0#32 := by
  unfold State.readReg
  rw [hrst, registerAt_eq]
  cases registerNumber off.toNat <;> rfl

theorem writeReg_eq {s : State} (hrst : s.rst = false) (off : BitVec 8) (v : Word) :
    s.writeReg off v = ((registerNumber off.toNat).map (s.setReg v)).getD s := by
  unfold State.writeReg
  rw [hrst, registerAt_eq]
  cases registerNumber off.toNat <;> rfl

/-- Settles O46: at each offset of the map the read returns its register, and at the others 0. -/
theorem registerReadsFollowTheMap : Obligations.RegisterReadsFollowTheMap := by
  unfold Obligations.RegisterReadsFollowTheMap
  intro s off rest hrst hoff hin
  rw [step_regRead hin hoff, readReg_eq hrst]
  generalize off.toNat = n
  fun_cases registerNumber n
  case case13 => -- OUT_LEN
    simp [State.regValue, BitVec.ofNat_mul]
  case case24 => -- no register
    simp [*]
  all_goals rfl

theorem and_not_eq_ite (a b : Bool) : (a && !b) = if b then false else a := by
  cases b
  · exact Bool.and_true a
  · exact Bool.and_false a

/-- STATUS's write-1-to-clear, field by field (10_state.md R35). -/
theorem writeStatus_eq (v : Word) (s : State) :
    s.writeStatus v =
      { s with
        done := if v.getLsbD 1 then false else s.done
        err := if v.getLsbD 2 then false else s.err
        errCode := if v.getLsbD 2 then .none else s.errCode
        ovr := if v.getLsbD 3 then false else s.ovr } := by
  simp only [State.writeStatus, and_not_eq_ite]

/-- Settles O47: at each offset of the map but CMD's the write sets its register, and at the others nothing. -/
theorem registerWritesFollowTheMap : Obligations.RegisterWritesFollowTheMap := by
  unfold Obligations.RegisterWritesFollowTheMap
  intro s off v rest hrst hoff hne hin
  rw [step_regWrite hin hoff hne, writeReg_eq (s := { s with inputs := rest }) hrst]
  generalize off.toNat = n
  fun_cases registerNumber n
  case case3 => -- STATUS
    exact congrArg _ (writeStatus_eq v _)
  case case24 => -- no register
    simp [*]
  all_goals rfl

/-- Settles O50: the misaligned offset fails the port's test, whichever the access. -/
theorem misalignedRegisterAccessIsRefused : Obligations.MisalignedRegisterAccessIsRefused := by
  unfold Obligations.MisalignedRegisterAccessIsRefused
  intro s off v rest hoff hin
  have hword : ¬wordOffset off = true := fun h => hoff (wordOffset_iff.mp h)
  rcases hin with hin | hin
  · rw [step_of_landing hin]
    exact if_neg hword
  · rw [step_of_landing hin]
    exact if_neg hword

/-! ### STATUS and CTRL -/

theorem toNat_append_eq_add {m n : Nat} (x : BitVec m) (y : BitVec n) :
    (x ++ y).toNat = x.toNat * 2 ^ n + y.toNat := by
  rw [BitVec.toNat_append, ← Nat.shiftLeft_add_eq_or_of_lt y.isLt, Nat.shiftLeft_eq]

theorem statusWord_toNat (s : State) :
    s.statusWord.toNat =
      256 * s.errCode.bits.toNat + 8 * s.ovr.toNat + 4 * s.err.toNat + 2 * s.done.toNat + s.busy.toNat := by
  unfold State.statusWord
  simp only [toNat_append_eq_add, BitVec.toNat_ofBool, BitVec.toNat_ofNat]
  omega

theorem ctrlWord_toNat (s : State) : s.ctrlWord.toNat = s.irqEn.toNat := by
  unfold State.ctrlWord
  simp only [toNat_append_eq_add, BitVec.toNat_ofBool, BitVec.toNat_ofNat]
  omega

theorem ite_bool_eq_mul (b : Bool) (n : Nat) : (if b then n else 0) = n * b.toNat := by
  cases b
  · rfl
  · exact (Nat.mul_one n).symm

/-- Settles O48: each word is the sum of its fields at their places, ERRCODE's by 60_exceptions.md R281. -/
theorem statusAndCtrlLayout : Obligations.StatusAndCtrlLayout := by
  unfold Obligations.StatusAndCtrlLayout
  intro s
  simp only [ite_bool_eq_mul, statusWord_toNat, ctrlWord_toNat, Nat.one_mul]
  refine ⟨?_, trivial, s.busy_iff⟩
  cases s.errCode <;> simp only [ErrCode.bits, BitVec.toNat_ofNat] <;> omega

/-! ### Reset -/

theorem setRst_mem (s : State) (b : Bool) : (s.setRst b).mem = s.mem := by
  rcases s.setRst_cases b with h | h <;> rw [h]
  rfl

/-- Settles O51: the values are those of `State.reset`. -/
theorem resetValues : Obligations.ResetValues :=
  ⟨rfl, rfl, rfl, rfl, rfl, rfl, rfl, rfl, rfl, rfl, rfl, rfl, rfl, rfl, rfl, setRst_mem⟩

/-- Settles O53: the block is idle at reset, with the reset values and nothing in memory. -/
theorem invariantsHoldAtReset : Obligations.InvariantsHoldAtReset where
  status := statusLegal_reset
  decision := decisionLegal_reset
  memory := ⟨List.Pairwise.nil, fun c hc => absurd hc List.not_mem_nil⟩
  reset := fun _ => rfl
  scan := scanLegal_idle rfl
  reads := fun r hr => by cases hr
  window := fun r hr => by cases hr

end Sys2Proof.Machine
end

section
/-! PROOF. Memory stays in its canonical form, and a running command's reads within their bound; a racing access, and a
store at once. -/

namespace Sys2Proof.Machine

/-! ### The canonical form of memory -/

@[simp] theorem State.setReg_mem (s : State) (v : Word) (n : RegName) : (s.setReg v n).mem = s.mem := by
  cases n <;> rfl

@[simp] theorem State.writeReg_mem (s : State) (off : BitVec 8) (v : Word) : (s.writeReg off v).mem = s.mem := by
  unfold State.writeReg
  split
  · rfl
  · split
    · exact s.setReg_mem v _
    · rfl

@[simp] theorem State.wait_mem (s : State) : s.wait.mem = s.mem := by
  unfold State.wait
  split <;> rfl

/-- However a step of the block ends, it makes at most one write (20_memory.md R87). -/
theorem State.BlockEnd.oneWrite {i : Instr} {s t : State} {r : Running} (h : s.BlockEnd i r t) : s.OneWrite i r t := by
  cases h with
  | completed _ _ _ _ hmem => exact .inl hmem
  | failed _ _ _ _ _ _ _ hmem => exact hmem
  | going _ _ _ _ _ _ _ _ _ _ _ hmem => exact hmem

/-- The port passes on only words inside the address space (20_memory.md R80, R82). -/
theorem wf_of_oneWrite {i : Instr} {s t : State} {r : Running} (hm : s.mem.wf) (h : s.OneWrite i r t) : t.mem.wf := by
  obtain h | ⟨-, n, v, ha, h, -⟩ := h
  · rwa [h]
  · obtain ⟨halign, hlt⟩ := wordAddr_iff.mp ha
    rw [h]
    exact Memory.wf_writeWord hm (by omega) v

/-- A destination that has cells and passes its checks ends inside the address space (20_memory.md R86). -/
theorem dstEnd_le {q : Snapshot} (h : q.DstOk) (hlen : q.dstLen.toNat ≠ 0) : q.dstEnd ≤ 2 ^ 32 := by
  obtain ⟨hl, hb⟩ := h
  refine (hb fun h0 => hlen ?_).2.1
  rw [hl, show 2 * q.w * (2 * q.h) = 4 * (q.w * q.h) by ring, h0]

/-- The free words of a destination that passes its checks stay in the address space; an empty one takes none. -/
theorem wf_freeDestination {q : Snapshot} {m : Memory} (hm : m.wf) (hd : q.DstOk) (c : Nat) :
    (m.freeWords q.dstBase.toNat c q.dstLen.toNat).wf := by
  by_cases hlen : q.dstLen.toNat = 0
  · rwa [hlen]
  · exact Memory.wf_freeWords hm (dstEnd_le hd hlen)

/-- A race writes the destination of an APPLY that passes its start checks, or nothing. -/
theorem wf_race {s : State} {r : Running} {i : Instr} (hi : startError i r.snap = none) (hm : s.mem.wf) :
    (s.race r i).mem.wf := by
  rw [State.race_eq]
  split
  · next h =>
    subst h
    exact wf_freeDestination hm ((startError_apply_none_iff _).mp hi).2 _
  · exact hm

theorem wf_wordStep {s : State} (r : Running) (hm : s.mem.wf) : (wordStep r.word r s).mem.wf := by
  obtain ⟨-, i, -, hend, -⟩ := wordStep_cases r s
  exact wf_of_oneWrite hm hend.oneWrite

/-- Settles O56, by the induction over what a step can do: memory changes by a byte or a word stored inside the address
space, by a race, or by the block's one write. -/
theorem memoryInvariantKept : Obligations.MemoryInvariantKept := by
  unfold Obligations.MemoryInvariantKept
  intro s t hs hstep
  refine step_induct (fun s => s.mem.wf) ?inputs ?read ?write ?byte ?word ?held ?race ?rst ?bus ?accept ?overrun ?block
    hs hstep
  case inputs => exact fun _ _ hm => hm
  case read => exact fun _ _ hm => hm
  case write => exact fun s n v _ hm => by rwa [State.setReg_mem]
  case byte => exact fun _ a v hm => Memory.wf_writeByte hm a.isLt v
  case word => exact fun _ n v hm => Memory.wf_writeWord hm (by have := n.isLt; omega) v
  case held => exact fun _ _ hm => hm
  case race => exact fun _ _ _ _ _ hi hm => wf_race hi hm
  case rst => exact fun s b hm => by rwa [setRst_mem]
  case bus => exact fun _ _ hm => hm
  case accept => exact fun _ _ _ _ hm => hm
  case overrun => exact fun _ _ hm => hm
  case block => exact fun _ r _ hm => wf_wordStep r hm

/-! ### The reads of a running command -/

theorem readable_of_decode {r : Running} {i : Instr} (h : decode r.word = .ok i) : r.readable = r.snap.readable i := by
  unfold Running.readable
  rw [h]

theorem readable_of_error {r : Running} {e : Reject} (h : decode r.word = .error e) : r.readable = [] := by
  unfold Running.readable
  rw [h]

/-- Every command may read source words only, and no more of them than R341 allows reads (20_memory.md R86). -/
theorem readable_bounds (r : Running) :
    (∀ a ∈ r.readable, r.snap.IsSource a) ∧ r.readable.length ≤ r.snap.maxReads := by
  cases h : decode r.word with
  | ok i =>
    rw [readable_of_decode h]
    exact ⟨fun a => isSource_of_readable, length_readable_le r.snap i⟩
  | error e =>
    rw [readable_of_error h]
    exact ⟨fun a ha => absurd ha List.not_mem_nil, Nat.zero_le _⟩

theorem readsLegal_congr {s t : State} (hengine : t.engine = s.engine) (h : s.ReadsLegal) : t.ReadsLegal := by
  unfold State.ReadsLegal at *
  rwa [hengine]

/-- An accepted command has read nothing yet. -/
theorem readsLegal_accept (s : State) (w : Word) : (s.accept w).ReadsLegal := by
  intro r he
  cases he
  refine ⟨fun p hp => absurd hp List.not_mem_nil, ?_⟩
  exact (Nat.zero_add _).le.trans ((List.length_filter_le _ _).trans (readable_bounds _).2)

/-- A step of the running command makes at most one read, of a word that it may read. -/
theorem readsLegal_wordStep {s : State} {r : Running} (he : s.engine = .running r) (h : s.ReadsLegal) :
    (wordStep r.word r s).ReadsLegal := by
  obtain ⟨-, i, hdecode, hend, hi⟩ := wordStep_cases r s
  have hreadable : r.readable = r.snap.readable i := by
    obtain hd | ⟨e, hd⟩ := hdecode
    · exact readable_of_decode hd
    · obtain rfl : i = .nop := by
        by_contra hne
        rw [hi hne] at hd
        cases hd
      exact readable_of_error hd
  intro r' he'
  cases hend with
  | completed hidle => rw [hidle] at he'; cases he'
  | failed _ _ hidle => rw [hidle] at he'; cases he'
  | going r'' hrun hword hsnap _ hreads =>
    rw [hrun] at he'
    cases he'
    exact readsLegal_next (h r he) hword hsnap hreadable hreads

/-- Settles O59, by the induction over what a step can do: a running command's step makes one read at most, and an
accepted command has made none. -/
theorem readInvariantKept : Obligations.ReadInvariantKept := by
  unfold Obligations.ReadInvariantKept
  refine ⟨fun s t hs hstep => ?_, fun r hr => ?_⟩
  · exact step_induct_block State.ReadsLegal (fun _ _ hst => readsLegal_congr hst.engine)
      (fun r hr => by cases hr) (fun _ _ => readsLegal_congr rfl)
      (fun s r i he h r' he' => by cases he'; exact h r he) (fun s w _ => readsLegal_accept s w)
      (fun _ _ => readsLegal_wordStep) hs hstep
  · obtain ⟨hwords, hcount⟩ := hr
    exact ⟨fun p hp => (readable_bounds r).1 _ (hwords p hp), by omega⟩

/-! ### A racing access -/

/-- Settles O43: the port answers, and a racing command's read and write take the next free word. -/
theorem racingAccessesUseFreeWords : Obligations.RacingAccessesUseFreeWords := by
  unfold Obligations.RacingAccessesUseFreeWords
  intro s a v landed halign hlt
  have hport : ∀ k, (k, a) ∉ s.busErrors → s.portOk k a = true :=
    fun k => (portOk_iff (wordAddr_iff.mpr ⟨halign, hlt⟩)).mpr
  exact ⟨fun h => if_pos (hport .read h), fun h => if_pos (hport .write h)⟩

/-! ### A store at once -/

section
variable {s : State} {a : Word} {v : Byte} {rest : List Input} (hin : s.inputs = ⟨0, .store a v⟩ :: rest)
include hin

/-- A store that touches no byte of the running command changes memory alone. -/
theorem step_store_of_not_usesByte (h : ¬s.UsesByte a.toNat) :
    step s = .next { s with inputs := rest, mem := s.mem.writeByte a.toNat v } := by
  rw [step_of_landing hin]
  exact congrArg Host.Outcome.next
    (State.disturbed_of_not (fun _ _ he hd hr => (racesAt_iff (s := s) he hd).mp hr) h)

/-- A store to a byte of the running command makes it race. -/
theorem step_store_of_usesByte {r : Running} {i : Instr} (he : s.engine = .running r) (hw : r.word = encode i)
    (h : s.UsesByte a.toNat) :
    step s = .next ({ s with inputs := rest, mem := s.mem.writeByte a.toNat v }.race r i) := by
  have hd : decode r.word = .ok i := hw ▸ decode_encode i
  rw [step_of_landing hin]
  refine congrArg Host.Outcome.next (Eq.trans (State.disturbed_running ?_ hd _) (if_pos ?_))
  · exact he
  · exact (racesAt_iff he hd).mpr h

end

theorem inDst_eq_false {q : Snapshot} {b : Nat} : q.inDst b = false ↔ b < q.dstBase.toNat ∨ q.dstEnd ≤ b := by
  simp only [Snapshot.inDst, Bool.and_eq_false_iff, decide_eq_false_iff_not, not_le, not_lt]

/-- Byte i of a stored word is its i-th byte, the least significant first (20_memory.md R81). -/
theorem readByte_writeWord_of_lt {m : Memory} (hm : m.wf) (a : Nat) (v : Word) {i : Nat} (hi : i < 4) :
    (m.writeWord a v).readByte (a + i) = v.extractLsb' (8 * i) 8 := by
  have h1 := Memory.pairwise_writeByte hm.1 a (v.extractLsb' 0 8)
  have h2 := Memory.pairwise_writeByte h1 (a + 1) (v.extractLsb' 8 8)
  have h3 := Memory.pairwise_writeByte h2 (a + 2) (v.extractLsb' 16 8)
  unfold Memory.writeWord
  rw [Memory.readByte_writeByte h3, Memory.readByte_writeByte h2, Memory.readByte_writeByte h1,
    Memory.readByte_writeByte hm.1]
  match i, hi with
  | 0, _ => simp
  | 1, _ => simp
  | 2, _ => simp
  | 3, _ => simp

/-- Settles O41: where the store touches no byte of the running command it is all that happens; else the command races,
and an APPLY's destination takes free words. -/
theorem storesLandInMemory : Obligations.StoresLandInMemory := by
  unfold Obligations.StoresLandInMemory
  refine ⟨fun s a v rest hm hin hno => ?unused, fun s r a v rest he hw hs hsrc hin => ?source,
    fun s r a v rest hm he hw hs hd hbuf hin => ?apply, fun _ _ => rfl,
    fun m a v hm ha => ⟨Memory.wf_writeWord hm ha v, fun i hi => readByte_writeWord_of_lt hm a v hi,
      fun b hb => Memory.readByte_writeWord_of_ne hm.1 v hb⟩⟩
  case unused =>
    have hnot : ¬s.UsesByte a.toNat := by
      rintro ⟨r, he, h⟩
      obtain ⟨hpixel, hsample, happly⟩ := hno r he
      obtain ⟨hw, hs, hsrc⟩ | ⟨hw, hs, hk, hsrc⟩ | ⟨hw, hs, hd, hbuf⟩ := h
      · exact absurd (hpixel hw) (by simp [hs, hsrc])
      · exact absurd (hsample hw) (by simp [hs, hsrc, hk])
      · exact absurd (happly hw) (by rcases hbuf with hb | hb <;> simp [hs, hd, hb])
    rw [step_store_of_not_usesByte hin hnot]
    refine ⟨_, rfl, Memory.wf_writeByte hm a.isLt v, ?_, fun b hb => ?_⟩
    · rw [Memory.readByte_writeByte hm.1, if_pos rfl]
    · rw [Memory.readByte_writeByte hm.1, if_neg hb]
  case source =>
    obtain hw | ⟨hw, hk⟩ := hw
    · exact step_store_of_usesByte (i := .pixel) hin he hw ⟨r, he, .inl ⟨hw, hs, hsrc⟩⟩
    · exact step_store_of_usesByte (i := .sample) hin he hw ⟨r, he, .inr (.inl ⟨hw, hs, hk, hsrc⟩)⟩
  case apply =>
    have hm' := Memory.pairwise_writeByte hm.1 a.toNat v
    refine ⟨_, step_store_of_usesByte (i := .apply) hin he hw ⟨r, he, .inr (.inr ⟨hw, hs, hd, hbuf⟩)⟩,
      fun n hn => Memory.readWord_freeWords hm' _ _ _ n hn, fun b hb => ?_⟩
    rw [← Memory.readByte_writeByte hm.1]
    exact Memory.readByte_freeWords_of_ne hm' (inDst_eq_false.mp hb)

end Sys2Proof.Machine
end

section
/-! PROOF. The block writes memory only as APPLY, and only in its destination: what a step changes, what a racing APPLY
leaves, and the cells of an undisturbed one at every moment. -/

namespace Sys2Proof.Machine

/-! ### The block's one write -/

theorem inDst_iff {q : Snapshot} {b : Nat} : q.inDst b = true ↔ q.dstBase.toNat ≤ b ∧ b < q.dstEnd := by
  simp only [Snapshot.inDst, Bool.and_eq_true, decide_eq_true_eq]

/-- m' is m with the word of one destination cell stored by the command r, a free one where it is racing (20_memory.md
R94). -/
def Running.StoresCell (r : Running) (m m' : Memory) : Prop :=
  ∃ n v, n < 4 * (r.snap.w * r.snap.h) ∧ (r.raced = true → ∃ k, v = Config.freeWord k) ∧
    m' = m.writeWord (r.snap.dstAddr n) v

/-- A write of the block leaves memory alone, or stores its word, a free one where the command is racing. -/
theorem memWrite_mem (s : State) (raced landed : Bool) (a : Nat) (v : Word) :
    (s.memWrite raced landed a v).2.mem = s.mem ∨
      ∃ v', (raced = true → ∃ k, v' = Config.freeWord k) ∧
        (s.memWrite raced landed a v).2.mem = s.mem.writeWord a v' := by
  have hput : ∃ v', (raced = true → ∃ k, v' = Config.freeWord k) ∧
      (s.putWord raced a v).mem = s.mem.writeWord a v' := by
    cases raced with
    | true => exact ⟨_, fun _ => ⟨_, rfl⟩, rfl⟩
    | false => exact ⟨v, nofun, rfl⟩
  unfold State.memWrite
  split
  · exact .inr hput
  · split
    · exact .inr hput
    · exact .inl rfl

/-- An extra read stops on `bus_error`, or changes nothing but the command's reads and the count of free words. -/
theorem extraRead_eq {i : Instr} (s : State) {r : Running} {a : Nat} (hread : a ∈ r.snap.readable i) :
    s.extraRead r a = s.raise .bus ∨ ∃ n r', s.extraRead r a = (s.useFree n).progress r' := by
  unfold State.extraRead
  split
  · exact .inl rfl
  · next hf =>
    obtain ⟨⟨n, rfl⟩, -⟩ := State.fetchWord_cases hread hf
    exact .inr ⟨n, _, rfl⟩

/-- APPLY's access is a read, which leaves memory alone, or a write of a cell that the pixel still owes. -/
theorem jobStep_mem {r : Running} {i : Nat} {j : PixelJob} {c : Choice} {s : State} (hr : r.checked = true)
    (hscan : r.ScanLegal) (hi : r.todo[i]? = some j) :
    (jobStep r i j c s).mem = s.mem ∨ r.StoresCell s.mem (jobStep r i j c s).mem := by
  unfold jobStep
  split
  · left
    split
    · rfl
    · next hf =>
      obtain ⟨⟨n, rfl⟩, -⟩ :=
        State.fetchNext_cases (i := .apply) (fun k a h => mem_sourceWords.mpr (isSource_of_cellAddr h)) hf
      rfl
  · next outs hw =>
    split
    · exact .inl rfl
    · next n v ho =>
      have hn : n < 4 * (r.snap.w * r.snap.h) :=
        lt_of_mem_outs hscan hr (List.mem_of_getElem? hi) hw (List.mem_map_of_mem (List.mem_of_getElem? ho))
      have hwrite := memWrite_mem s r.raced c.landed (r.snap.dstAddr n) v
      split
      all_goals
        next hm =>
        rw [hm] at hwrite
        exact hwrite.imp_right fun ⟨v', hfree, hmem⟩ => ⟨n, v', hn, hfree, hmem⟩

theorem applyStep_mem {r : Running} {s : State} (hr : r.checked = true) (hscan : r.ScanLegal) :
    (applyStep r s).mem = s.mem ∨ r.StoresCell s.mem (applyStep r s).mem := by
  unfold applyStep
  rw [if_pos hr]
  split
  · next ha =>
    obtain ⟨n, -, ha⟩ := extraWord_eq_some ha
    have hread := mem_sourceWords.mpr (isSource_of_sourceWord ha)
    rcases extraRead_eq (i := .apply) s.useChoice hread with h | ⟨n, r', h⟩ <;> rw [h]
    · exact .inl rfl
    · exact .inl rfl
  · split
    · exact .inl rfl
    · next hj => exact jobStep_mem (s := s.useChoice) hr hscan hj

/-- A step of the running command leaves memory alone, or makes one write as an APPLY whose start checks have passed. -/
theorem wordStep_mem {s : State} {r : Running} (he : s.engine = .running r) (hscan : s.ScanLegal) :
    (wordStep r.word r s).mem = s.mem ∨
      (r.word = encode .apply ∧ r.snap.DstOk ∧ r.StoresCell s.mem (wordStep r.word r s).mem) := by
  cases hr : r.checked with
  | false =>
    have hsame := congrArg State.mem (wordStep_unchecked hr r.word s s.mem s.busErrors)
    exact .inl hsame
  | true =>
    by_cases hw : r.word = encode .apply
    · have hlegal := hscan r he hw
      have hdst : r.snap.DstOk := ((startError_apply_none_iff _).mp (hlegal hr).1).2
      rw [hw, wordStep_encode]
      exact (applyStep_mem hr hlegal).imp_right fun h => ⟨rfl, hdst, h⟩
    · obtain ⟨-, i, -, hend, hi⟩ := wordStep_cases r s
      obtain h | ⟨rfl, -⟩ := hend.oneWrite
      · exact .inl h
      · exact absurd (eq_encode_of_decode (hi (by decide))) hw

/-- With no event landing a running command goes on (60_exceptions.md R296). -/
theorem eq_runBlock_of_step {s t : State} {r : Running} (he : s.engine = .running r) (hl : s.landing = none)
    (h : step s = .next t) : t = s.runBlock (wordStep r.word) := by
  rw [step_eq, hl] at h
  cases h
  unfold State.goOn
  rw [he]

/-- A running command keeps its word, its operands and its race while it goes on. -/
theorem wordStep_going {r r' : Running} {s : State} (h : (wordStep r.word r s).engine = .running r') :
    r'.word = r.word ∧ r'.snap = r.snap ∧ r'.raced = r.raced := by
  obtain ⟨-, i, -, hend, -⟩ := wordStep_cases r s
  cases hend with
  | completed hidle => cases h.symm.trans hidle
  | failed _ _ hidle => cases h.symm.trans hidle
  | going q hgo hword hsnap hraced =>
    cases h.symm.trans hgo
    exact ⟨hword, hsnap, hraced⟩

/-- The induction over a run of command r: a property that each of its steps keeps holds after the run. -/
theorem runBlock_induct {r : Running} (P : State → Prop)
    (hstep : ∀ u r', u.engine = .running r' → r'.word = r.word → r'.snap = r.snap → r'.raced = r.raced → P u →
      P (wordStep r'.word r' u).tick)
    {s : State} (he : s.engine = .running r) (hP : P s) : P (s.runBlock (wordStep r.word)) := by
  have hstart : ∀ r', s.engine = .running r' → r'.word = r.word ∧ r'.snap = r.snap ∧ r'.raced = r.raced := by
    intro r' he'
    cases he.symm.trans he'
    exact ⟨rfl, rfl, rfl⟩
  refine (runSteps_induct
    (fun u => (∀ r', u.engine = .running r' → r'.word = r.word ∧ r'.snap = r.snap ∧ r'.raced = r.raced) ∧ P u)
    ?_ _ s (fun r' he' => (hstart r' he').1) ⟨hstart, hP⟩).2
  intro u r' he' ⟨hsame, hP⟩
  obtain ⟨hword, hsnap, hraced⟩ := hsame r' he'
  refine ⟨fun r'' he'' => ?_, hstep u r' he' hword hsnap hraced hP⟩
  obtain ⟨hword', hsnap', hraced'⟩ := wordStep_going (s := u) he''
  exact ⟨hword'.trans hword, hsnap'.trans hsnap, hraced'.trans hraced⟩

/-- A run of the block as a run of writes: a property of memory that each write of command r keeps holds after it. -/
theorem runBlock_mem_induct {r : Running} (Q : Memory → Prop)
    (hwrite : ∀ m m', m.wf → r.word = encode .apply → r.snap.DstOk → r.StoresCell m m' → Q m → Q m')
    {s : State} (he : s.engine = .running r) (hscan : s.ScanLegal) (hm : s.mem.wf) (hQ : Q s.mem) :
    Q (s.runBlock (wordStep r.word)).mem := by
  refine (runBlock_induct (fun u => u.ScanLegal ∧ u.mem.wf ∧ Q u.mem) ?_ he ⟨hscan, hm, hQ⟩).2.2
  intro u r' he' hword hsnap hraced ⟨hscan, hm, hQ⟩
  refine ⟨scanLegal_wordStep he' hscan, wf_wordStep r' hm, ?_⟩
  rw [State.tick_mem]
  obtain h | ⟨hw, hd, h⟩ := wordStep_mem he' hscan
  · rwa [h]
  · unfold Running.StoresCell at h
    rw [hsnap, hraced] at h
    exact hwrite _ _ hm (hword ▸ hw) (hsnap ▸ hd) h hQ

/-! ### Only the destination changes -/

theorem storesCell_frame {r : Running} {m m' : Memory} (hm : m.wf) (hd : r.snap.DstOk) (h : r.StoresCell m m') {b : Nat}
    (hb : r.snap.inDst b = false) : m'.readByte b = m.readByte b := by
  obtain ⟨n, v, hn, -, rfl⟩ := h
  obtain ⟨-, hlo, hhi, -⟩ := dstAddr_bounds hd hn
  have hout := inDst_eq_false.mp hb
  exact Memory.readByte_writeWord_of_ne hm.1 v (by omega)

/-- A byte that a run of the block changes lies in the destination of its APPLY. -/
theorem runBlock_changed {s : State} {r : Running} (he : s.engine = .running r) (hscan : s.ScanLegal) (hm : s.mem.wf)
    {a : Nat} (ha : (s.runBlock (wordStep r.word)).mem.readByte a ≠ s.mem.readByte a) :
    r.word = encode .apply ∧ r.snap.inDst a = true := by
  by_contra hno
  refine ha (runBlock_mem_induct (fun m => m.readByte a = s.mem.readByte a) ?_ he hscan hm rfl)
  intro m m' hm hw hd hstores hQ
  have hout : r.snap.inDst a = false := by simpa [hw] using hno
  exact (storesCell_frame hm hd hstores hout).trans hQ

/-- A byte that a race changes lies in the destination of the racing APPLY. -/
theorem race_changed {s : State} {r : Running} {i : Instr} (hm : s.mem.wf) {a : Nat}
    (ha : (s.race r i).mem.readByte a ≠ s.mem.readByte a) : i = .apply ∧ r.snap.inDst a = true := by
  rw [State.race_eq] at ha
  split at ha
  · next hi =>
    refine ⟨hi, ?_⟩
    by_contra hout
    exact ha (Memory.readByte_freeWords_of_ne hm.1 (inDst_eq_false.mp (by simpa using hout)))
  · exact absurd rfl ha

/-- A byte that changes when the host holds a store lies in the destination of the APPLY that it makes race. -/
theorem setHeld_disturbed_changed {s : State} {b : Running → Instr → Bool} {l : List (BitVec 30 × Word)}
    (hm : s.mem.wf) {a : Nat} (ha : ((s.setHeld l).disturbed b).mem.readByte a ≠ s.mem.readByte a) :
    ∃ r, s.engine = .running r ∧ r.word = encode .apply ∧ r.snap.inDst a = true := by
  rcases (s.setHeld l).disturbed_cases b with h | ⟨r, i, he, hdec, -, h⟩
  · rw [h] at ha
    exact absurd rfl ha
  · rw [h] at ha
    obtain ⟨rfl, hin⟩ := race_changed (s := s.setHeld l) hm ha
    exact ⟨r, he, eq_encode_of_decode hdec, hin⟩

/-- A byte that an event other than a store performed now changes lies in the destination of a running APPLY, or of the
APPLY that a CMD write starts. -/
theorem perform_changed {e : Event} {s t : State} (h : perform e s = .next t) (hm : s.mem.wf)
    (hstore : ∀ a v, e ≠ .store a v) (hdrain : ∀ n, e ≠ .drain n) {a : Nat}
    (ha : t.mem.readByte a ≠ s.mem.readByte a) :
    (∃ r, s.engine = .running r ∧ r.word = encode .apply ∧ r.snap.inDst a = true) ∨
      (s.engine = .idle ∧ e = .regWrite cmdOffset (encode .apply) ∧ s.latch.inDst a = true) := by
  cases e with
  | regRead off =>
    simp only [perform] at h
    split at h <;> cases h
    exact absurd rfl ha
  | regWrite off v =>
    simp only [perform] at h
    split at h
    · split at h
      · next hoff =>
        rw [command_eq_issue] at h
        rcases issue_cases h with rfl | rfl | ⟨hidle, rfl⟩
        · exact absurd rfl ha
        · exact absurd rfl ha
        · obtain ⟨hw, hin⟩ := runBlock_changed (s := s.accept v) rfl (scanLegal_accept s v) hm ha
          simp only at hw hin
          exact .inr ⟨hidle, by rw [hoff, hw], hin⟩
      · cases h
        rw [State.writeReg_mem] at ha
        exact absurd rfl ha
    · cases h
  | store a v => exact absurd rfl (hstore a v)
  | hold n v =>
    cases h
    exact .inl (setHeld_disturbed_changed hm ha)
  | drain n => exact absurd rfl (hdrain n)
  | rst b =>
    cases h
    rw [setRst_mem] at ha
    exact absurd rfl ha
  | busErrors l =>
    cases h
    exact absurd rfl ha

/-- Settles O40: with no event landing the running command's writes are all that changes, and else the event decides. -/
theorem onlyApplyWritesAndOnlyItsDestination : Obligations.OnlyApplyWritesAndOnlyItsDestination := by
  unfold Obligations.OnlyApplyWritesAndOnlyItsDestination
  intro s t hm hscan hstep hstore hdrain a ha
  have hword : some (encode .apply) = s.commandWord ∧ s.commandSnap.inDst a = true := by
    cases hl : s.landing with
    | some e =>
      rw [step_eq, hl] at hstep
      obtain ⟨r, he, hw, hin⟩ | ⟨hidle, rfl, hin⟩ :=
        perform_changed (s := { s with inputs := s.inputs.tail }) hstep hm (fun a v h => hstore a v (by rw [hl, h]))
          (fun n h => hdrain n (by rw [hl, h])) ha
      · simp only at he
        simp only [State.commandWord, State.commandSnap, he, hw]
        exact ⟨trivial, hin⟩
      · simp only at hidle
        simp only [State.commandWord, State.commandSnap, hidle, hl]
        exact ⟨rfl, hin⟩
    | none =>
      cases he : s.engine with
      | idle =>
        rw [step_eq, hl] at hstep
        cases hstep
        unfold State.goOn at ha
        rw [he] at ha
        exact absurd (congrArg (Memory.readByte · a) s.wait_mem) ha
      | running r =>
        rw [eq_runBlock_of_step he hl hstep] at ha
        obtain ⟨hw, hin⟩ := runBlock_changed he hscan hm ha
        simp only [State.commandWord, State.commandSnap, he, hw]
        exact ⟨trivial, hin⟩
  exact ⟨hword.1.symm, inDst_iff.mp hword.2⟩

/-! ### A racing APPLY -/

/-- Every destination cell holds a free word (20_memory.md R94; log 7). -/
def Snapshot.CellsFree (q : Snapshot) (m : Memory) : Prop :=
  ∀ n, n < q.dstLen.toNat → ∃ k, m.readWord (q.dstAddr n) = Config.freeWord k

/-- A racing APPLY's write leaves a free word in its cell. -/
theorem cellsFree_of_storesCell {r : Running} {m m' : Memory} (hm : m.wf) (hraced : r.raced = true)
    (h : r.StoresCell m m') (hfree : r.snap.CellsFree m) : r.snap.CellsFree m' := by
  obtain ⟨c, v, -, hv, rfl⟩ := h
  obtain ⟨k, rfl⟩ := hv hraced
  intro n hn
  by_cases hc : n = c
  · subst hc
    exact ⟨k, Memory.readWord_writeWord hm.1 _ _⟩
  · obtain ⟨k', hk'⟩ := hfree n hn
    refine ⟨k', ?_⟩
    rw [← hk']
    exact Memory.readWord_writeWord_of_ne hm.1 _ (by unfold Snapshot.dstAddr; omega)

/-- Settles O45: each write of the racing APPLY stores a free word in its destination. -/
theorem racingApplyLeavesFreeWords : Obligations.RacingApplyLeavesFreeWords := by
  unfold Obligations.RacingApplyLeavesFreeWords
  intro s t r he hw hraced hm hscan _ _ hl hstep hfree
  rw [eq_runBlock_of_step he hl hstep]
  refine runBlock_mem_induct
    (fun m => r.snap.CellsFree m ∧ ∀ b, r.snap.inDst b = false → m.readByte b = s.mem.readByte b)
    ?_ he hscan hm ⟨hfree, fun _ _ => rfl⟩
  intro m m' hm _ hd hstores ⟨hfree, hout⟩
  exact ⟨cellsFree_of_storesCell hm hraced hstores hfree,
    fun b hb => (storesCell_frame hm hd hstores hb).trans (hout b hb)⟩

/-! ### An undisturbed APPLY at every moment -/

/-- What holds at every moment of an APPLY past its start checks that no other agent disturbs. -/
structure ApplyMoment (m0 : Memory) (q : Snapshot) (u : State) : Prop where
  held : ∀ a ∈ q.readable .apply, u.heldWord a = none
  memory : ∃ todo, ScanMemory m0 q todo u.mem
  running : ∀ r, u.engine = .running r → r.word = encode .apply ∧ ScanRight m0 u.busErrors q r u.mem

theorem applyMoment_started {s : State} (hm : s.mem.wf) (hs : s.latch.SrcOk) (hd : s.latch.DstOk)
    (hh : ∀ a, s.latch.inSrc a = true → s.heldWord a = none) : ApplyMoment s.mem s.latch (s.started .apply) where
  held := fun a ha => hh a (inSrc_of_isSource hs (isSource_of_readable ha))
  memory := ⟨_, (scanRight_started hm hs hd).memory⟩
  running := fun r he => by
    cases he
    exact ⟨rfl, scanRight_started hm hs hd⟩

/-- A step of the undisturbed APPLY completes it, stops it with its cell old or final, or keeps the scan's invariant. -/
theorem applyMoment_wordStep {m0 : Memory} {q : Snapshot} {u : State} {r : Running} (hs : q.SrcOk) (hd : q.DstOk)
    (he : u.engine = .running r) (h : ApplyMoment m0 q u) : ApplyMoment m0 q (wordStep r.word r u).tick := by
  obtain ⟨hheld, hmem, hrun⟩ := h
  obtain ⟨hw, hright⟩ := hrun r he
  have hword := fun r' => wordStep_word (r := r) (r' := r') (s := u)
  rw [hw, wordStep_encode] at hword ⊢
  simp only [commandStep] at hword ⊢
  rcases applyStep_right hs hd hheld hright with ⟨-, h⟩ | ⟨m', todo', h, hmem', -⟩ | ⟨r', m', h, hright', -⟩
  · rw [h]
    exact ⟨hheld, hmem, fun _ hidle => by cases hidle⟩
  · rw [h]
    exact ⟨hheld, ⟨todo', hmem'⟩, fun _ hidle => by cases hidle⟩
  · rw [h] at hword ⊢
    refine ⟨hheld, ⟨_, hright'.memory⟩, fun r'' hgo => ?_⟩
    cases hgo
    exact ⟨hword r' rfl, hright'⟩

/-- The first step of an accepted command that passes its start checks. -/
theorem runSteps_accept {s : State} {i : Instr} (n : Nat) (hd : s.due = false) (hi : startError i s.latch = none) :
    (s.accept (encode i)).runSteps (commandStep i) (n + 1) = (s.started i).runSteps (commandStep i) n := by
  rw [runSteps_succ (s := s.accept (encode i)) _ n rfl hd, commandStep_unchecked i _ rfl, begin_eq]
  simp only
  rw [hi]
  rfl

/-- Memory at every moment of an undisturbed APPLY, from its acceptance on. -/
theorem scanMemory_runSteps {s : State} (hm : s.mem.wf) (hs : s.latch.SrcOk) (hd : s.latch.DstOk)
    (hh : ∀ a, s.latch.inSrc a = true → s.heldWord a = none) (n : Nat) :
    ∃ todo, ScanMemory s.mem s.latch todo ((s.accept (encode .apply)).runSteps applyStep n).mem := by
  have hstart := applyMoment_started hm hs hd hh
  cases n with
  | zero => exact hstart.memory
  | succ n =>
    cases hdue : s.due with
    | true =>
      rw [runSteps_due (s := s.accept (encode .apply)) _ _ hdue]
      exact hstart.memory
    | false =>
      rw [show applyStep = commandStep .apply from rfl,
        runSteps_accept n hdue ((startError_apply_none_iff _).mpr ⟨hs, hd⟩), ← wordStep_encode]
      exact (runSteps_induct (ApplyMoment s.mem s.latch) (fun u r he h => applyMoment_wordStep hs hd he h) n
        (s.started .apply) (fun r he => (hstart.running r he).1) hstart).memory

/-- Settles O35: the scan's invariant says of each cell that it is old or final, and of all other bytes that they are
old. -/
theorem applyCellsAreOldOrFinalThroughout : Obligations.ApplyCellsAreOldOrFinalThroughout := by
  unfold Obligations.ApplyCellsAreOldOrFinalThroughout
  intro s n _ _ hm hs hd hh
  obtain ⟨todo, hmem⟩ := scanMemory_runSteps hm hs hd hh n
  exact ⟨fun x y q hx hy => (hmem.cells x y q hx hy).symm.imp_left And.left, hmem.outside⟩

end Sys2Proof.Machine
end

section
/-! PROOF. The results of a racing PIXEL or SAMPLE: a free value where a read was made for them, 0 where none was. -/

namespace Sys2Proof.Machine

/-! ### A step of PIXEL or SAMPLE uses up free words, and how it completes -/

theorem begin_freeCount (s : State) (i : Instr) (r : Running) (win : Window) (todo : List PixelJob) :
    (s.begin i r win todo).freeCount = s.freeCount := by
  rw [begin_eq]
  split <;> rfl

theorem pixelStep_freeCount_le (r : Running) (s : State) : s.freeCount ≤ (pixelStep r s).freeCount := by
  unfold pixelStep
  split
  · split
    · next ha =>
      obtain ⟨n, -, ha⟩ := extraWord_eq_some ha
      rcases extraRead_eq (i := .pixel) s.useChoice (List.mem_of_getElem? ha) with h | ⟨n, r', h⟩ <;> rw [h]
      · exact Nat.le_refl _
      · exact Nat.le_add_right _ _
    · split
      · unfold pixelComplete
        split
        · exact Nat.le_add_right _ _
        · exact Nat.le_refl _
      · unfold pixelFetch
        split
        · exact Nat.le_refl _
        · next hf =>
          obtain ⟨⟨n, rfl⟩, -⟩ := State.fetchNext_cases (i := .pixel) (fun k a => cellAddr_mem_cellWords) hf
          exact Nat.le_add_right _ _
  · exact (begin_freeCount _ _ _ _ _).ge

theorem sampleStep_freeCount_le (r : Running) (s : State) : s.freeCount ≤ (sampleStep r s).freeCount := by
  unfold sampleStep
  split
  · split
    · unfold sampleComplete
      split
      · exact Nat.le_add_right _ _
      · exact Nat.le_refl _
    · split
      · exact Nat.le_refl _
      · next hf =>
        obtain ⟨⟨n, rfl⟩, -⟩ := State.fetchCell_cases (i := .sample)
          (fun a hk => List.mem_filterMap.mpr ⟨_, List.mem_singleton_self _, hk⟩) hf
        exact Nat.le_add_right _ _
  · exact (begin_freeCount _ _ _ _ _).ge

/-- The start checks' step completes no command but with an error (60_exceptions.md R282). -/
theorem begin_not_completed {s : State} {i : Instr} {r : Running} {win : Window} {todo : List PixelJob}
    (hidle : (s.begin i r win todo).engine = .idle) (herr : (s.begin i r win todo).err = false) : False := by
  rw [begin_eq] at hidle herr
  split at hidle
  · next h =>
    rw [h] at herr
    cases herr
  · cases hidle

section
variable {r : Running} {s t : State} (hidle : t.engine = .idle) (herr : t.err = false)
include hidle herr

theorem pixelStep_completed (h : pixelStep r s = t) : r.checked = true ∧ t = pixelComplete r s := by
  unfold pixelStep at h
  split at h
  · next hc =>
    refine ⟨hc, ?_⟩
    split at h
    · unfold State.extraRead at h
      split at h <;> subst h
      · cases herr
      · cases hidle
    · split at h
      · exact h.symm
      · unfold pixelFetch at h
        split at h <;> subst h
        · cases herr
        · cases hidle
  · subst h
    exact (begin_not_completed hidle herr).elim

theorem sampleStep_completed (h : sampleStep r s = t) : r.checked = true ∧ t = sampleComplete r s := by
  unfold sampleStep at h
  split at h
  · next hc =>
    refine ⟨hc, ?_⟩
    split at h
    · exact h.symm
    · split at h <;> subst h
      · cases herr
      · cases hidle
  · subst h
    exact (begin_not_completed hidle herr).elim

end

/-! ### What is built from no read -/

theorem inBoundsCells_isEmpty_iff {q : Snapshot} {x y : Nat} {ks : List Nat} :
    (q.inBoundsCells x y ks).isEmpty = true ↔ ∀ k ∈ ks, q.cellAddr x y k = none := by
  simp [Snapshot.inBoundsCells]

theorem not_isEmpty_of_isSome {q : Snapshot} {x y k : Nat} {ks : List Nat} (hk : k ∈ ks)
    (hin : (q.cellAddr x y k).isSome = true) : ¬(q.inBoundsCells x y ks).isEmpty = true := by
  intro hempty
  rw [inBoundsCells_isEmpty_iff.mp hempty k hk] at hin
  cases hin

/-- A cell outside the image is the zero pixel (41_neighborhood_sampler.md R161). -/
theorem cell_of_outside {q : Snapshot} {x y : Nat} {ks : List Nat} {win : Window} (h : win.Legal q x y ks) {k : Nat}
    (hk : k < nCells) (hout : q.cellAddr x y k = none) : cell win.cells k = 0#32 := by
  obtain ⟨-, -, hzero⟩ := h
  unfold cell
  rw [List.getD_eq_getElem?_getD, hzero k hk hout]
  rfl

theorem mem_allCells_of_rule {q : Fin 4} {k : Nat} (hk : k ∈ (ruleOf q).cells) : k ∈ allCells := by
  have hall : ∀ q, ∀ k ∈ (ruleOf q).cells, k ∈ allCells := by decide
  exact hall q k hk

/-- The output of a quadrant of a racing PIXEL, n being the number of the first free word: any where a cell that its
rule reads lies in the image, else the rule's own on zero pixels (20_memory.md R94, 44_edge_rule_engine.md R222;
log 7). -/
def Snapshot.racingOut (q : Snapshot) (n : Nat) (k : Fin 4) : QuadrantOut :=
  if (q.inBoundsCells q.opx.toNat q.opy.toNat (ruleOf k).cells).isEmpty then ⟨0#32, false, false⟩
  else
    { out := Config.freeWord (n + k.val)
      edge := (Config.freeWord (n + 4)).getLsbD k.val
      pick := (Config.freeWord (n + 4)).getLsbD k.val && (Config.freeWord (n + 4)).getLsbD (4 + k.val) }

/-- A rule none of whose cells lies in the image gives what it gives on zero pixels. -/
theorem ruleOut_of_outside {q : Snapshot} {win : Window} {ks : List Nat}
    (hwin : win.Legal q q.opx.toNat q.opy.toNat ks) {n : Nat} {k : Fin 4}
    (hout : (q.inBoundsCells q.opx.toNat q.opy.toNat (ruleOf k).cells).isEmpty = true) :
    ruleOut win.cells k = q.racingOut n k := by
  unfold Snapshot.racingOut
  rw [if_pos hout]
  exact ruleOut_zero fun c hc =>
    cell_of_outside hwin (List.mem_range.mp (mem_allCells_of_rule hc)) (inBoundsCells_isEmpty_iff.mp hout c hc)

/-- A racing PIXEL completes with the outputs of its quadrants (44_edge_rule_engine.md R232). -/
theorem pixelComplete_racing {r : Running} (s : State) (hraced : r.raced = true)
    (hwin : r.window.Legal r.snap r.snap.opx.toNat r.snap.opy.toNat allCells) :
    ∃ m, pixelComplete r s = ((s.useFree m).setPixelResults (r.snap.racingOut s.freeCount)).complete := by
  unfold pixelComplete
  split
  · refine ⟨5, congrArg (fun o => ((s.useFree 5).setPixelResults o).complete) (funext fun k => ?_)⟩
    unfold State.racingOut Running.racingResults
    rw [hraced, Bool.true_and]
    split
    · next hin =>
      unfold Snapshot.racingOut
      rw [if_neg (by simpa using hin)]
      rfl
    · next hout => exact ruleOut_of_outside hwin (by simpa using hout)
  · next hno =>
    refine ⟨0, congrArg (fun o => (s.setPixelResults o).complete) (funext fun k => ?_)⟩
    have hall : (r.snap.inBoundsCells r.snap.opx.toNat r.snap.opy.toNat allCells).isEmpty = true := by
      simpa [Running.racingResults, hraced] using hno
    exact ruleOut_of_outside hwin
      (inBoundsCells_isEmpty_iff.mpr fun c hc => inBoundsCells_isEmpty_iff.mp hall c (mem_allCells_of_rule hc))

/-- The result of a racing SAMPLE, n being the number of the first free word (41_neighborhood_sampler.md R166). -/
def Snapshot.racingSample (q : Snapshot) (n : Nat) : Word :=
  if (q.inBoundsCells q.opx.toNat q.opy.toNat [q.opk.toNat]).isEmpty then 0#32 else Config.freeWord n

theorem sampleComplete_racing {r : Running} (s : State) (hraced : r.raced = true) (hk : r.snap.opk.toNat ≤ 20)
    (hwin : r.window.Legal r.snap r.snap.opx.toNat r.snap.opy.toNat [r.snap.opk.toNat]) :
    (sampleComplete r s).res0 = r.snap.racingSample s.freeCount := by
  unfold sampleComplete Running.racingResults Snapshot.racingSample
  rw [hraced, Bool.true_and]
  cases hin : (r.snap.inBoundsCells r.snap.opx.toNat r.snap.opy.toNat [r.snap.opk.toNat]).isEmpty with
  | false => rfl
  | true =>
    exact cell_of_outside hwin (by unfold nCells; omega)
      (inBoundsCells_isEmpty_iff.mp hin _ (List.mem_singleton_self _))

/-! ### The run of a racing command -/

/-- The run of a racing command whose matrix stays legal: where it completes successfully its last step did, after which
`Done` holds of the number of the first free word that step could use. -/
theorem runBlock_racing {i : Instr} {r : Running} {Legal : Running → Prop} {Done : Nat → State → Prop}
    (hlegal : ∀ r r' s, (r.checked = true → Legal r) → (commandStep i r s).engine = .running r' → Legal r')
    (hfree : ∀ r s, s.freeCount ≤ (commandStep i r s).freeCount)
    (hdone : ∀ r' s t, commandStep i r' s = t → r'.snap = r.snap → r'.raced = true → (r'.checked = true → Legal r') →
      t.engine = .idle → t.err = false → Done s.freeCount t.tick)
    {s : State} (he : s.engine = .running r) (hw : r.word = encode i) (hraced : r.raced = true)
    (hr : r.checked = true → Legal r) (hidle : (s.runBlock (wordStep r.word)).engine = .idle)
    (herr : (s.runBlock (wordStep r.word)).err = false) :
    ∃ n, s.freeCount ≤ n ∧ Done n (s.runBlock (wordStep r.word)) := by
  refine (runBlock_induct
    (fun u => s.freeCount ≤ u.freeCount ∧ (∀ r', u.engine = .running r' → r'.checked = true → Legal r') ∧
      (u.engine = .idle → u.err = false → ∃ n, s.freeCount ≤ n ∧ Done n u))
    ?_ he ⟨Nat.le_refl _, fun r' he' => ?_, fun h => ?_⟩).2.2 hidle herr
  · intro u r' he' hword hsnap hraced' ⟨hcount, hchecked, _⟩
    rw [hword, hw, wordStep_encode]
    have hr' := hchecked r' he'
    exact ⟨hcount.trans (hfree r' u), fun r'' he'' _ => hlegal r' r'' u hr' he'',
      fun hidle herr => ⟨_, hcount, hdone r' u _ rfl hsnap (hraced'.trans hraced) hr' hidle herr⟩⟩
  · cases he.symm.trans he'
    exact hr
  · cases he.symm.trans h

/-- RES0 to RES3 by quadrant (44_edge_rule_engine.md R232). -/
def State.quadrantRes (s : State) : Fin 4 → Word
  | 0 => s.res0
  | 1 => s.res1
  | 2 => s.res2
  | 3 => s.res3

/-- The result registers hold the outputs o of the quadrants. -/
def State.HoldsOutputs (s : State) (o : Fin 4 → QuadrantOut) : Prop :=
  (∀ k, s.quadrantRes k = (o k).out) ∧ s.decision = decisionWord (fun k => (o k).edge) fun k => (o k).pick

theorem holdsOutputs_setPixelResults (s : State) (o : Fin 4 → QuadrantOut) :
    ((s.setPixelResults o).complete.tick).HoldsOutputs o := by
  refine ⟨fun k => ?_, rfl⟩
  match k with
  | 0 => rfl
  | 1 => rfl
  | 2 => rfl
  | 3 => rfl

theorem racingPixel_results {s : State} {r : Running} (he : s.engine = .running r) (hw : r.word = encode .pixel)
    (hraced : r.raced = true) (hwin : s.WindowLegal) (hidle : (s.runBlock (wordStep r.word)).engine = .idle)
    (herr : (s.runBlock (wordStep r.word)).err = false) :
    ∃ n, s.freeCount ≤ n ∧ (s.runBlock (wordStep r.word)).HoldsOutputs (r.snap.racingOut n) := by
  refine runBlock_racing (i := .pixel)
    (Legal := fun r => r.window.Legal r.snap r.snap.opx.toNat r.snap.opy.toNat allCells)
    (Done := fun n t => t.HoldsOutputs (r.snap.racingOut n))
    (fun _ _ _ => pixelStep_window) pixelStep_freeCount_le ?_ he hw hraced (fun hc => (hwin r he hc).1 hw) hidle herr
  intro r' u t ht hsnap hraced' hlegal hidle herr
  obtain ⟨hc, hstep⟩ := pixelStep_completed hidle herr ht
  obtain ⟨m, hm⟩ := pixelComplete_racing u hraced' (hlegal hc)
  rw [hstep, hm, hsnap]
  exact holdsOutputs_setPixelResults _ _

theorem racingSample_result {s : State} {r : Running} (he : s.engine = .running r) (hw : r.word = encode .sample)
    (hraced : r.raced = true) (hk : r.snap.opk.toNat ≤ 20) (hwin : s.WindowLegal)
    (hidle : (s.runBlock (wordStep r.word)).engine = .idle) (herr : (s.runBlock (wordStep r.word)).err = false) :
    ∃ n, s.freeCount ≤ n ∧ (s.runBlock (wordStep r.word)).res0 = r.snap.racingSample n := by
  refine runBlock_racing (i := .sample)
    (Legal := fun r => r.window.Legal r.snap r.snap.opx.toNat r.snap.opy.toNat [r.snap.opk.toNat] ∧
      r.reads.length + r.window.todo.length ≤ 1)
    (Done := fun n t => t.res0 = r.snap.racingSample n)
    (fun _ _ _ => sampleStep_window) sampleStep_freeCount_le ?_ he hw hraced (fun hc => (hwin r he hc).2 hw) hidle herr
  intro r' u t ht hsnap hraced' hlegal hidle herr
  obtain ⟨hc, hstep⟩ := sampleStep_completed hidle herr ht
  rw [State.tick_res0, hstep, sampleComplete_racing u hraced' (hsnap ▸ hk) (hlegal hc).1, hsnap]

/-- The cells of each rule, once each (44_edge_rule_engine.md R222). -/
def quadrantCells : Fin 4 → List Nat
  | 0 => [10, 14, 6, 4, 8, 1, 9, 5, 15, 3, 11, 0]
  | 1 => [10, 16, 4, 6, 12, 1, 5, 11, 15, 7, 9, 2]
  | 2 => [10, 4, 16, 14, 8, 19, 9, 15, 5, 13, 11, 18]
  | 3 => [10, 6, 14, 16, 12, 19, 11, 15, 9, 20, 17, 5]

theorem mem_quadrantCells (q : Fin 4) (k : Nat) : k ∈ quadrantCells q ↔ k ∈ (ruleOf q).cells := by
  have hsub : ∀ q, quadrantCells q ⊆ (ruleOf q).cells ∧ (ruleOf q).cells ⊆ quadrantCells q := by decide
  exact ⟨fun h => (hsub q).1 h, fun h => (hsub q).2 h⟩

/-- Settles O44: the racing command's last step puts a free value into each result that a read was made for. -/
theorem racingResultsAreFree : Obligations.RacingResultsAreFree := by
  unfold Obligations.RacingResultsAreFree
  intro s t r he hraced hwin hl hstep hidle herr
  obtain rfl := eq_runBlock_of_step he hl hstep
  refine ⟨fun hw => ?pixel, fun hw hk => ?sample⟩
  case pixel =>
    obtain ⟨n, hn, hres, hdecision⟩ := racingPixel_results he hw hraced hwin hidle herr
    obtain ⟨hlt, hbits⟩ :=
      decisionWord_bits (fun k => (r.snap.racingOut n k).edge) fun k => (r.snap.racingOut n k).pick
    rw [← hdecision] at hlt hbits
    refine ⟨hlt, n, hn, fun q => ?_⟩
    obtain ⟨hedge, hpick⟩ := hbits q
    have hout := hres q
    unfold Snapshot.racingOut at hout hedge hpick
    refine ⟨fun ⟨k, hk, hin⟩ => ?_, fun hno => ?_⟩
    · have hne := not_isEmpty_of_isSome ((mem_quadrantCells q k).mp hk) hin
      rw [if_neg hne] at hout hedge hpick
      exact ⟨hout, hedge, hpick⟩
    · have hempty := inBoundsCells_isEmpty_iff.mpr fun k hk => hno k ((mem_quadrantCells q k).mpr hk)
      rw [if_pos hempty] at hout hedge hpick
      exact ⟨hout, hedge, hpick⟩
  case sample =>
    obtain ⟨n, hn, hres⟩ := racingSample_result he hw hraced hk hwin hidle herr
    unfold Snapshot.racingSample at hres
    refine ⟨fun hin => ⟨n, hn, ?_⟩, fun hno => ?_⟩
    · rwa [if_neg (not_isEmpty_of_isSome (List.mem_singleton_self _) hin)] at hres
    · rwa [if_pos (inBoundsCells_isEmpty_iff.mpr fun k hk => by rwa [List.mem_singleton.mp hk])] at hres

end Sys2Proof.Machine
end

section
/-! PROOF. The decoder by the fields of the word, each command's one word, and a CMD write of an illegal word. -/

namespace Sys2Proof.Machine

/-! ### The decoder by the fields of the word -/

/-- RSV decides first, whatever OP holds (30_encoding.md R111). -/
theorem decode_of_rsv_ne_zero {v : Word} (h : v.extractLsb' 4 28 ≠ 0#28) : decode v = .error .reservedBits :=
  if_neg (not_beq_of_ne h)

/-- With RSV = 0 the opcode map decides (30_encoding.md R112). -/
theorem decode_of_lookup {v : Word} {i : Instr} (h : v.extractLsb' 4 28 = 0#28)
    (hi : opcodeMap.lookup (v.extractLsb' 0 4) = some i) : decode v = .ok i := by
  unfold decode decodeFields fieldsOf CmdFields.rsvZero
  rw [h, hi]
  rfl

/-- The opcode map assigns the opcodes 0 to 6 and no other (30_encoding.md R112). -/
theorem lookup_opcodeMap_isSome_iff : ∀ op : BitVec 4, (opcodeMap.lookup op).isSome ↔ op.toNat ≤ 6 := by decide

/-- With RSV = 0 an assigned opcode decodes to its command (30_encoding.md R112). -/
theorem exists_decode_of_op_assigned {v : Word} (h : v.extractLsb' 4 28 = 0#28) (hop : (v.extractLsb' 0 4).toNat ≤ 6) :
    ∃ i, decode v = .ok i ∧ opcodeOf i = v.extractLsb' 0 4 := by
  obtain ⟨i, hi⟩ := Option.isSome_iff_exists.mp ((lookup_opcodeMap_isSome_iff _).mpr hop)
  exact ⟨i, decode_of_lookup h hi, opcodeOf_of_lookup _ _ hi⟩

/-- With RSV = 0 the opcodes 0x7 to 0xF are reserved (30_encoding.md R111). -/
theorem decode_of_op_reserved {v : Word} (h : v.extractLsb' 4 28 = 0#28) (hop : 7 ≤ (v.extractLsb' 0 4).toNat) :
    decode v = .error .reservedOpcode := by
  have hnone : opcodeMap.lookup (v.extractLsb' 0 4) = none := by
    rw [← Option.not_isSome_iff_eq_none, lookup_opcodeMap_isSome_iff]
    omega
  unfold decode decodeFields fieldsOf CmdFields.rsvZero
  rw [h, hnone]
  rfl

/-- A word with a reserved bit or a reserved opcode is rejected (30_encoding.md R111). -/
theorem exists_decode_eq_error {v : Word} (h : v.extractLsb' 4 28 ≠ 0#28 ∨ 7 ≤ (v.extractLsb' 0 4).toNat) :
    ∃ e, decode v = .error e := by
  by_cases hrsv : v.extractLsb' 4 28 = 0#28
  · exact ⟨_, decode_of_op_reserved hrsv (h.resolve_left (not_not_intro hrsv))⟩
  · exact ⟨_, decode_of_rsv_ne_zero hrsv⟩

/-! ### A CMD write of an illegal word, and one while BUSY = 1 -/

/-- An illegal word is accepted and its one step is the error completion (60_exceptions.md R284). -/
theorem command_of_decode_error {s : State} {v : Word} {e : Reject} (hd : decode v = .error e) (h : s.Ready)
    (hq : s.Quiet 1) :
    command v s =
      .next { s with done := true, err := true, errCode := .illegalCmd, inputs := elapse 1 s.inputs } := by
  have hdue : (s.accept v).due = false := due_eq_false (n := 0) (hq.of_inputs rfl)
  have hw : wordStep v = illegalStep := by unfold wordStep; rw [hd]
  rw [command_eq_issue, issue_ready _ _ h, hw]
  unfold State.runBlock
  rw [accept_left, runSteps_succ _ _ rfl hdue, runSteps_idle _ _ rfl]
  obtain ⟨hidle, -⟩ := h
  cases s
  cases hidle
  rfl

/-- While BUSY = 1 any word is dropped before it is decoded (60_exceptions.md R294). -/
theorem command_of_busy {s : State} (v : Word) (hrst : s.rst = false) (hbusy : s.busy = true) :
    command v s = .next s.overrun := by
  rw [command_eq_issue]
  unfold issue
  rw [hrst, hbusy]
  rfl

/-! ### The obligations -/

/-- Settles O3: what decodes to a command is that command's word, and that word decodes to it. -/
theorem decodeEncodeAgree : Obligations.DecodeEncodeAgree := by
  unfold Obligations.DecodeEncodeAgree
  exact fun v i => ⟨eq_encode_of_decode, fun h => h ▸ decode_encode i⟩

/-- Settles O2: the decoder by the fields of the word, and the command write of a rejected word, idle or busy. -/
theorem illegalWordsCompleteWithIllegalCmd : Obligations.IllegalWordsCompleteWithIllegalCmd := by
  unfold Obligations.IllegalWordsCompleteWithIllegalCmd
  refine fun v => ⟨decode_of_rsv_ne_zero, fun hrsv hop => ?assigned, decode_of_op_reserved, fun s h hq hv => ?illegal,
    fun s hrst hbusy => command_of_busy v hrst hbusy⟩
  case assigned =>
    obtain ⟨i, hi, hopcode⟩ := exists_decode_of_op_assigned hrsv hop
    exact ⟨i, hi, congrArg BitVec.toNat hopcode⟩
  case illegal =>
    obtain ⟨e, he⟩ := exists_decode_eq_error hv
    exact command_of_decode_error he h hq

/-- Settles O1: the first seven words are the commands' own, and the others are rejected by their RSV or OP field. -/
theorem commandWordsDecode : Obligations.CommandWordsDecode := by
  unfold Obligations.CommandWordsDecode
  refine ⟨decode_encode .nop, decode_encode .apply, decode_encode .pixel, decode_encode .sample, decode_encode .diff,
    decode_encode .blend, decode_encode .unpack, fun v hv => ?opcode, fun v hv => decode_of_rsv_ne_zero ?bits⟩
  case opcode =>
    obtain ⟨hrsv, hop⟩ : v.extractLsb' 4 28 = 0#28 ∧ 7 ≤ (v.extractLsb' 0 4).toNat := by fin_cases hv <;> decide
    exact decode_of_op_reserved hrsv hop
  case bits => fin_cases hv <;> decide

end Sys2Proof.Machine
end

section
/-! PROOF. The packed RGB accessor: a binary32 of a small natural is exact, the byte of a binary32, the channels of a
word and their pack, and the run of UNPACK (40_packed_rgb_accessor.md). -/

namespace Sys2Proof.Machine

/-! ### Exact roundings -/

/-- A magnitude with at most 24 significant bits above a power of two rounds to itself (00_scope.md R10). -/
theorem fpack_round_exact {s : Bool} {k j M : Nat} (hdvd : 2 ^ j ∣ M) (hlt : M < 2 ^ (24 + j)) (hj : j ≤ 253) :
    fexp (fpack s (froundMag k (M * 2 ^ k))) ≠ 255 ∧ fsign (fpack s (froundMag k (M * 2 ^ k))) = s ∧
      fmag (fpack s (froundMag k (M * 2 ^ k))) = M := by
  obtain ⟨e, q, hp, hq, he, hbig, hnear⟩ := froundMag_spec k (M * 2 ^ k)
  have hej : e ≤ j := by
    by_contra h
    have hle : 2 ^ (e + k + 23) ≤ M * 2 ^ k := hbig (by omega)
    have hM : M * 2 ^ k < 2 ^ (24 + j + k) := by
      rw [pow_add]
      exact Nat.mul_lt_mul_of_pos_right hlt (Nat.two_pow_pos k)
    have hexp := (Nat.pow_lt_pow_iff_right (by decide)).mp (hle.trans_lt hM)
    omega
  have hM : q * 2 ^ e = M := by
    have hdist := (hnear M fun _ => (pow_dvd_pow 2 hej).trans hdvd).1
    exact Nat.eq_of_mul_eq_mul_right (Nat.two_pow_pos k) (by omega)
  have hpat : e * 2 ^ 23 + q < 255 * 2 ^ 23 := by
    by_contra h
    obtain ⟨rfl, rfl⟩ : e = 253 ∧ q = 2 ^ 24 := by omega
    obtain rfl : j = 253 := by omega
    rw [← hM, pow_add] at hlt
    exact lt_irrefl _ hlt
  have hr : froundMag k (M * 2 ^ k) = e * 2 ^ 23 + q := by omega
  obtain ⟨hmod, hsign⟩ := fpack_mod (s := s) (show froundMag k (M * 2 ^ k) < 2 ^ 31 by omega)
  refine ⟨?_, hsign, ?_⟩
  · rw [fexp_of_mod, hmod]
    omega
  · rw [fmag_eq_magOf, hmod, hr, magOf_pattern hq he, hM]

/-- A natural number of 24 bits is exact in binary32 (00_scope.md R10; the value in units of 2^-149). -/
theorem f32_exact {n : Nat} (h : n < 2 ^ 24) : fexp (f32 n) ≠ 255 ∧ fval (f32 n) = (n : Int) * 2 ^ 149 := by
  have hlt : n * 2 ^ 149 < 2 ^ (24 + 149) := by
    rw [pow_add]
    exact Nat.mul_lt_mul_of_pos_right h (Nat.two_pow_pos 149)
  obtain ⟨hfin, hsign, hmag⟩ := fpack_round_exact (s := false) (k := 0) (Nat.dvd_mul_left (2 ^ 149) n) hlt (by decide)
  rw [pow_zero, mul_one] at hfin hsign hmag
  have hf : f32 n = fpack false (froundMag 0 (n * 2 ^ 149)) := evalNat_eq n _
  refine ⟨hf ▸ hfin, ?_⟩
  rw [hf, fval, hsign, hmag]
  push_cast
  rfl

/-! ### The byte of a binary32 -/

/-- A finite value is truncated, then wrapped (40_packed_rgb_accessor.md R145). -/
theorem to8_of_finite {v : F32} (hnan : fisNaN v = false) (hinf : fisInf v = false) :
    ((to8 v).toNat : Int) = ftrunc v % 256 := by
  have h : to8 v = BitVec.ofNat 8 (ftrunc v % 256).toNat := by
    rw [to8, fforce_eq, hnan, hinf]
    rfl
  rw [h, BitVec.toNat_ofNat]
  omega

/-- A NaN gives 0 (40_packed_rgb_accessor.md R145). -/
theorem to8_of_isNaN {v : F32} (h : fisNaN v = true) : to8 v = 0#8 := by
  rw [to8, fforce_eq, h]
  rfl

/-- A byte survives the way through binary32 (40_packed_rgb_accessor.md R146). -/
@[simp] theorem to8_f32 (b : Byte) : to8 (f32 b.toNat) = b := by
  obtain ⟨hfin, hval⟩ := f32_exact (show b.toNat < 2 ^ 24 by omega)
  have htrunc : ftrunc (f32 b.toNat) = b.toNat := by
    rw [ftrunc, hval]
    exact Int.mul_tdiv_cancel _ (by decide)
  have hbyte := to8_of_finite (fisNaN_of_finite hfin) (fisInf_of_finite hfin)
  rw [htrunc] at hbyte
  exact BitVec.eq_of_toNat_eq (by omega)

/-! ### The channels of a word and their pack -/

/-- A packed word is its three bytes as digits to the base 256 (40_packed_rgb_accessor.md R143). -/
theorem pack_toNat (r g b : Byte) : (pack r g b).toNat = r.toNat * 2 ^ 16 + g.toNat * 2 ^ 8 + b.toNat := by
  rw [pack, toNat_append_eq_add, toNat_append_eq_add, toNat_append_eq_add, BitVec.toNat_ofNat]
  omega

/-- The channels are the digits 2, 1 and 0 to the base 256 (40_packed_rgb_accessor.md R142). -/
theorem channel_toNat (p : Word) :
    (channel p .red).toNat = p.toNat / 2 ^ 16 % 2 ^ 8 ∧ (channel p .green).toNat = p.toNat / 2 ^ 8 % 2 ^ 8 ∧
      (channel p .blue).toNat = p.toNat % 2 ^ 8 := by
  simp only [channel, BitVec.extractLsb'_toNat, Nat.shiftRight_eq_div_pow, Nat.pow_zero, Nat.div_one, and_self]

/-- `channel` inverts `pack` (40_packed_rgb_accessor.md R146). -/
theorem channel_pack (r g b : Byte) :
    channel (pack r g b) .red = r ∧ channel (pack r g b) .green = g ∧ channel (pack r g b) .blue = b := by
  obtain ⟨hred, hgreen, hblue⟩ := channel_toNat (pack r g b)
  rw [pack_toNat] at hred hgreen hblue
  refine ⟨BitVec.eq_of_toNat_eq ?_, BitVec.eq_of_toNat_eq ?_, BitVec.eq_of_toNat_eq ?_⟩ <;> omega

/-- Packing a word's channels clears its high byte (40_packed_rgb_accessor.md R146). -/
theorem pack_channels (p : Word) :
    pack (channel p .red) (channel p .green) (channel p .blue) = p &&& 0x00FFFFFF#32 := by
  have hlow : (p &&& 0x00FFFFFF#32).toNat = p.toNat % 2 ^ 24 := Nat.and_two_pow_sub_one_eq_mod p.toNat 24
  obtain ⟨hred, hgreen, hblue⟩ := channel_toNat p
  apply BitVec.eq_of_toNat_eq
  rw [hlow, pack_toNat, hred, hgreen, hblue]
  omega

/-! ### The run of a unit command -/

/-- A unit command whose start checks pass completes by its second step with the results of that step
(60_exceptions.md R291; log 4). -/
theorem exec_unit_results {s : State} {i : Instr} {r0 r1 r2 r3 : Word} (h : s.Ready) (hq : s.Quiet 2)
    (hc : startError i s.latch = none)
    (ht : commandStep i (startedRunning i s) (s.started i) =
      ((s.started i).setResults r0 r1 r2 r3 s.decision).complete) :
    exec i s =
      .next { s with
        done := true, err := false, errCode := .none, inputs := elapse 2 s.inputs
        res0 := r0, res1 := r1, res2 := r2, res3 := r3 } := by
  rw [exec_unit h hq hc ht rfl, ← elapse_elapse 1 1]
  obtain ⟨hidle, -⟩ := h
  cases s
  cases hidle
  rfl

/-! ### The obligations -/

/-- Settles O20: the fields of a packed word, and bytes exact in binary32. -/
theorem channelPackRoundTrip : Obligations.ChannelPackRoundTrip := by
  unfold Obligations.ChannelPackRoundTrip
  refine ⟨fun r g b => ?_, pack_channels⟩
  obtain ⟨hred, hgreen, hblue⟩ := channel_pack r g b
  refine ⟨hred, hgreen, hblue, ?_⟩
  rw [packF, to8_f32, to8_f32, to8_f32]

/-- Settles O21: the general cases by the branches of `to8`; the rule's corner cases by evaluation. -/
theorem toByteTruncatesAndWraps : Obligations.ToByteTruncatesAndWraps := by
  unfold Obligations.ToByteTruncatesAndWraps
  refine ⟨fun v => to8_of_finite, ?_, ?_, ?_, ?_, ?_, ?_, fun v => to8_of_isNaN, ?_, ?_, ?_⟩ <;> decide +kernel

/-- Settles O12: UNPACK's start checks are none, and its second step sets the results. -/
theorem unpackCompletes : Obligations.UnpackCompletes := by
  unfold Obligations.UnpackCompletes
  intro s h hq
  rw [← pack_channels]
  exact exec_unit_results h hq rfl rfl

end Sys2Proof.Machine
end

section
/-! PROOF. The neighborhood sampler: the cells by their coordinates, the run of SAMPLE, and the matrix of a running PIXEL
or SAMPLE (41_neighborhood_sampler.md). -/

namespace Sys2Proof.Machine

/-! ### The matrix of a running PIXEL or SAMPLE -/

theorem windowLegal_congr {s t : State} (hengine : t.engine = s.engine) (h : s.WindowLegal) : t.WindowLegal := by
  unfold State.WindowLegal at *
  rwa [hengine]

theorem windowLegal_idle {s : State} (hengine : s.engine = .idle) : s.WindowLegal := by
  intro r hr
  rw [hengine] at hr
  cases hr

/-- A race changes nothing of the matrix and of the reads made. -/
theorem windowLegal_race {s : State} {r : Running} (i : Instr) (he : s.engine = .running r) (h : s.WindowLegal) :
    (s.race r i).WindowLegal := by
  intro r' he' hc
  cases he'
  exact h r he hc

/-- The start checks of an accepted command are still to come. -/
theorem windowLegal_accept (s : State) (w : Word) : (s.accept w).WindowLegal := by
  intro r he hc
  cases he
  cases hc

/-- The command goes on with the word it had, so a legal matrix is left by PIXEL's step on PIXEL's, and by SAMPLE's on
SAMPLE's. -/
theorem windowLegal_wordStep {s : State} {r : Running} (he : s.engine = .running r) (h : s.WindowLegal) :
    (wordStep r.word r s).WindowLegal := by
  intro r' he' _
  have hword : r'.word = r.word := wordStep_word he'
  refine ⟨fun hw => ?pixel, fun hw => ?sample⟩
  case pixel =>
    have hr := hword.symm.trans hw
    rw [hr, wordStep_encode] at he'
    exact pixelStep_window (fun hc => (h r he hc).1 hr) he'
  case sample =>
    have hr := hword.symm.trans hw
    rw [hr, wordStep_encode] at he'
    exact sampleStep_window (fun hc => (h r he hc).2 hr) he'

/-- Settles O60, by the induction over what a step can do: the running command's step keeps its matrix legal. -/
theorem windowInvariantKept : Obligations.WindowInvariantKept := by
  unfold Obligations.WindowInvariantKept
  intro s t hs hstep
  exact step_induct_block State.WindowLegal (fun _ _ hst => windowLegal_congr hst.engine) (windowLegal_idle rfl)
    (fun _ _ => windowLegal_congr rfl) (fun _ _ i => windowLegal_race i) (fun s w _ => windowLegal_accept s w)
    (fun _ _ => windowLegal_wordStep) hs hstep

/-! ### A cell by its coordinate -/

theorem cellCoord_of_offset {k : Nat} {dx dy : Int} (h : cellOffsets[k]? = some (dx, dy)) (x y : Nat) :
    cellCoord x y k = (x + dx, y + dy) := by
  unfold cellCoord
  rw [List.getD_eq_getElem?_getD, h]
  rfl

/-- A cell with both coordinates in the image has the address of its own pixel (20_memory.md R84). -/
theorem cellAddr_of_coord {q : Snapshot} {x y k xx yy : Nat} (h : cellCoord x y k = (↑xx, ↑yy)) (hx : xx < q.w)
    (hy : yy < q.h) : q.cellAddr x y k = some (q.srcAddr xx yy) := by
  unfold Snapshot.cellAddr
  rw [h]
  exact if_pos (inBounds_iff.mpr ⟨by omega, by omega, by omega, by omega⟩)

/-- A cell with a coordinate outside the image has no address (41_neighborhood_sampler.md R164). -/
theorem cellAddr_of_outside {q : Snapshot} {x y k : Nat} (h : q.inBounds (cellCoord x y k) ≠ true) :
    q.cellAddr x y k = none := if_neg h

theorem sampleCell_of_some {q : Snapshot} {x y k a : Nat} (h : q.cellAddr x y k = some a) (m : Memory) :
    sampleCell m q x y k = m.readWord a := by
  unfold sampleCell
  rw [h]

theorem sampleCell_of_none {q : Snapshot} {x y k : Nat} (h : q.cellAddr x y k = none) (m : Memory) :
    sampleCell m q x y k = 0#32 := by
  unfold sampleCell
  rw [h]

/-- Settles O24: the offsets by evaluation; the coordinates of a cell decide its address, and the address its word. -/
theorem samplerCellsAndBounds : Obligations.SamplerCellsAndBounds := by
  unfold Obligations.SamplerCellsAndBounds
  refine ⟨by decide, fun m q x y k dx dy hk => ⟨fun xx yy hx hy hw hh => ?inside, fun hout => ?outside⟩⟩
  case inside =>
    have hcoord := cellCoord_of_offset hk x y
    rw [hx, hy] at hcoord
    exact sampleCell_of_some (cellAddr_of_coord hcoord hw hh) m
  case outside =>
    refine sampleCell_of_none (cellAddr_of_outside ?_) m
    rw [cellCoord_of_offset hk, Ne, inBounds_iff]
    unfold Snapshot.w Snapshot.h
    omega

/-! ### The run of SAMPLE -/

/-- SAMPLE may read the word of its cell and no other (41_neighborhood_sampler.md R166). -/
theorem mem_readable_sample_iff {q : Snapshot} {a : Nat} :
    a ∈ q.readable .sample ↔ q.cellAddr q.opx.toNat q.opy.toNat q.opk.toNat = some a := by
  simp [Snapshot.readable, Snapshot.cellWords, List.mem_filterMap]

/-- A SAMPLE whose cell lies in the image completes with the word that memory holds, by its third step (log 4). -/
theorem exec_sample_inside {s : State} {a : Nat} (h : s.Ready) (hq : s.Quiet 3) (hs : s.latch.SrcOk)
    (hk : s.opk.toNat ≤ 20) (ha : s.latch.cellAddr s.opx.toNat s.opy.toNat s.opk.toNat = some a)
    (hbus : (.read, a) ∉ s.busErrors) (hheld : s.heldWord a = none) :
    exec .sample s =
      .next { s with
        done := true, err := false, errCode := .none, inputs := elapse 3 s.inputs, res0 := s.mem.readWord a } := by
  have hread : a ∈ s.latch.readable .sample := mem_readable_sample_iff.mpr ha
  have hundisturbed : Undisturbed .sample s.mem s.latch (startedRunning .sample s) (s.started .sample) := by
    refine ⟨rfl, rfl, fun _ _ => rfl, fun a' ha' => ?_, fun p hp => absurd hp List.not_mem_nil⟩
    obtain rfl : a = a' := Option.some.inj (ha.symm.trans (mem_readable_sample_iff.mp ha'))
    exact hheld
  obtain ⟨-, hrefused⟩ | ⟨hanswer, -, -⟩ := readWord_right hs hundisturbed hread
  · exact absurd hrefused hbus
  · exact exec_sample_read (n := 0) h hq ((startError_sample_none_iff _).mpr ⟨hs, hk⟩) ha hanswer

/-- A SAMPLE whose cell lies outside the image makes no access and completes with 0 by its second step (log 4). -/
theorem exec_sample_outside {s : State} (h : s.Ready) (hq : s.Quiet 2) (hs : s.latch.SrcOk) (hk : s.opk.toNat ≤ 20)
    (hnone : s.latch.cellAddr s.opx.toNat s.opy.toNat s.opk.toNat = none) :
    exec .sample s =
      .next { s with
        done := true, err := false, errCode := .none, inputs := elapse 2 s.inputs, res0 := 0#32 } := by
  have htodo : (startedRunning .sample s).window.todo = [] :=
    List.isEmpty_iff.mp (inBoundsCells_isEmpty_iff.mpr fun k hk' => by rwa [List.mem_singleton.mp hk'])
  have hcell : cell (startedRunning .sample s).window.cells s.opk.toNat = 0#32 :=
    cell_of_outside (legal_window s.latch s.opx.toNat s.opy.toNat [s.opk.toNat]) (by unfold nCells; omega) hnone
  refine exec_unit_results (r1 := s.res1) (r2 := s.res2) (r3 := s.res3) h hq
    ((startError_sample_none_iff _).mpr ⟨hs, hk⟩) ?_
  calc sampleStep (startedRunning .sample s) (s.started .sample)
    _ = ((s.started .sample).setRes0 (cell (startedRunning .sample s).window.cells s.opk.toNat)).complete :=
      sampleStep_last _ rfl htodo rfl
    _ = ((s.started .sample).setResults 0#32 s.res1 s.res2 s.res3 s.decision).complete := by rw [hcell]; rfl

/-- Settles O29: the run with its one read where the cell has an address, and the run without an access else. -/
theorem sampleCompletes : Obligations.SampleCompletes := by
  unfold Obligations.SampleCompletes
  intro s h hq hs hk hport
  cases ha : s.latch.cellAddr s.opx.toNat s.opy.toNat s.opk.toNat with
  | none =>
    rw [sampleCell_of_none ha]
    exact exec_sample_outside h (hq.mono (by omega)) hs hk ha
  | some a =>
    obtain ⟨hbus, hheld⟩ := hport a ha
    rw [sampleCell_of_some ha]
    exact exec_sample_inside h hq hs hk ha hbus hheld

end Sys2Proof.Machine
end


section
/-! PROOF. The color difference metric: a channel's difference is exact, the laws of the metric, its test vectors and
constants, and the run of DIFF (42_color_difference_metric.md). -/

namespace Sys2Proof.Machine

/-! ### The channel differences -/

theorem fabs_toNat (a : F32) : (fabs a).toNat = a.toNat % 2 ^ 31 := Nat.and_two_pow_sub_one_eq_mod a.toNat 31

theorem froundMag_lt (k m : Nat) : froundMag k m < 2 ^ 31 := (Nat.min_le_right _ _).trans_lt (by decide)

/-- `fabs` keeps the magnitude and makes the sign positive (00_scope.md R10). -/
theorem fabs_fpack {p : Nat} (s : Bool) (hp : p < 2 ^ 31) : fabs (fpack s p) = fpack false p := by
  apply BitVec.eq_of_toNat_eq
  rw [fabs_toNat, (fpack_mod hp).1, fpack, BitVec.toNat_ofNat]
  exact (Nat.mod_eq_of_lt (by omega)).symm

/-- The distance of one channel of two colours, as a natural number. -/
def channelDist (a b : Word) (c : Channel) : Nat := (((channel a c).toNat : Int) - ((channel b c).toNat : Int)).natAbs

theorem channelDist_lt (a b : Word) (c : Channel) : channelDist a b c < 2 ^ 24 := by
  unfold channelDist
  omega

theorem channelDist_comm (a b : Word) (c : Channel) : channelDist a b c = channelDist b a c := by
  unfold channelDist
  omega

@[simp] theorem channelDist_self (a : Word) (c : Channel) : channelDist a a c = 0 := by simp [channelDist]

/-- The subtraction of two channels is one rounding of an exact difference, and `fabs` leaves its magnitude: the
binary32 of the distance (42_color_difference_metric.md R183). -/
theorem channelDiff_eq_f32 (a b : Word) (c : Channel) : channelDiff a b c = f32 (channelDist a b c) := by
  obtain ⟨hfinA, hvalA⟩ := f32_exact (show (channel a c).toNat < 2 ^ 24 by omega)
  obtain ⟨hfinB, hvalB⟩ := f32_exact (show (channel b c).toNat < 2 ^ 24 by omega)
  obtain ⟨s, -, hsub⟩ := fsub_roundedFrom hfinA hfinB
  have hmag : (fval (f32 (channel a c).toNat) - fval (f32 (channel b c).toNat)).natAbs = channelDist a b c * 2 ^ 149 := by
    rw [hvalA, hvalB, ← sub_mul, Int.natAbs_mul]
    rfl
  rw [channelDiff, channelF, channelF, hsub, fabs_fpack s (froundMag_lt _ _), hmag, f32, evalNat_eq]

theorem channelDiff_comm (a b : Word) (c : Channel) : channelDiff a b c = channelDiff b a c := by
  rw [channelDiff_eq_f32, channelDist_comm, ← channelDiff_eq_f32]

theorem channelDiff_self (a : Word) (c : Channel) : channelDiff a a c = 0x00000000#32 := by
  rw [channelDiff_eq_f32, channelDist_self]
  decide +kernel

/-! ### The laws of the metric -/

/-- A channel is a field of the low 24 bits (40_packed_rgb_accessor.md R142). -/
theorem channel_low24 (p : Word) (c : Channel) : channel (p &&& 0x00FFFFFF#32) c = channel p c := by
  rw [← pack_channels p]
  obtain ⟨hred, hgreen, hblue⟩ := channel_pack (channel p .red) (channel p .green) (channel p .blue)
  cases c with
  | red => exact hred
  | green => exact hgreen
  | blue => exact hblue

theorem channelDiff_low24 (a b : Word) (c : Channel) :
    channelDiff (a &&& 0x00FFFFFF#32) (b &&& 0x00FFFFFF#32) c = channelDiff a b c := by
  unfold channelDiff channelF
  rw [channel_low24, channel_low24]

/-- The metric sees two colours through their channel differences only (42_color_difference_metric.md R182). -/
theorem diff_congr {a b a' b' : Word} (h : ∀ c, channelDiff a b c = channelDiff a' b' c) : diff a b = diff a' b' := by
  unfold diff
  rw [h, h, h]

theorem diff_comm (a b : Word) : diff a b = diff b a := diff_congr (channelDiff_comm a b)

theorem diff_low24 (a b : Word) : diff (a &&& 0x00FFFFFF#32) (b &&& 0x00FFFFFF#32) = diff a b :=
  diff_congr (channelDiff_low24 a b)

theorem diff_self (a : Word) : diff a a = 0#32 := by
  unfold diff
  rw [channelDiff_self, channelDiff_self, channelDiff_self]
  decide +kernel

/-! ### The obligations -/

/-- Settles O14: each law is one of the channel differences; colours that agree in the low 24 bits are equal once the
high bytes are cleared. -/
theorem diffIsSymmetricAndIgnoresHighBytes : Obligations.DiffIsSymmetricAndIgnoresHighBytes := by
  unfold Obligations.DiffIsSymmetricAndIgnoresHighBytes
  refine fun a b => ⟨diff_comm a b, (diff_low24 a b).symm, fun h => ⟨fun c => ?_, ?_⟩⟩
  · rw [← channelDiff_low24, h, channelDiff_self]
  · rw [← diff_low24, h, diff_self]

/-- Settles O13: DIFF's start checks are none, and its second step sets RES0; the differences are exact as binary32 of
small naturals, and the expression is the definition's, with its constants written out. -/
theorem diffCompletes : Obligations.DiffCompletes := by
  unfold Obligations.DiffCompletes
  refine ⟨fun s h hq => exec_unit_results h hq rfl rfl, diff_self, ?highByte, diff_comm, ?white,
    fun p q => ⟨fun c => ?exactness, rfl⟩⟩
  case highByte => rw [← diff_low24]; exact diff_self 0#32
  case white => decide +kernel
  case exactness =>
    have hval := (f32_exact (channelDist_lt p q c)).2
    rw [← channelDiff_eq_f32] at hval
    exact hval

/-- Settles O15, by evaluation of the metric on each pair. -/
theorem diffTestVectors : Obligations.DiffTestVectors := by
  unfold Obligations.DiffTestVectors
  refine ⟨?_, ?_, ?_, ?_, ?_, ?_, ?_⟩ <;> decide +kernel

/-- Settles O23, by evaluation of the three distances for each constant. -/
theorem constantsAreNearestTheLiterals : Obligations.ConstantsAreNearestTheLiterals := by
  unfold Obligations.ConstantsAreNearestTheLiterals
  decide +kernel

end Sys2Proof.Machine
end

section
/-! PROOF. The color blender: the binary32 operations on halves of small naturals are exact, the blended channel at the
factors 0.0, 0.5 and 1.0, the laws of the blend, and the run of BLEND (43_color_blender.md). -/

namespace Sys2Proof.Machine

/-! ### Operations on positive values -/

theorem log2_mul_two_pow {M : Nat} (hM : M ≠ 0) (k : Nat) : (M * 2 ^ k).log2 = M.log2 + k := by
  induction k with
  | zero => rw [pow_zero, mul_one, Nat.add_zero]
  | succ k ih =>
    have hne : M * 2 ^ k ≠ 0 := Nat.mul_ne_zero hM (Nat.two_pow_pos k).ne'
    rw [pow_succ', Nat.mul_left_comm, Nat.log2_two_mul hne, ih, Nat.add_assoc]

/-- A magnitude of whole units rounds alike when it is counted in finer units. -/
theorem froundMag_mul_two_pow (k M : Nat) : froundMag k (M * 2 ^ k) = froundMag 0 M := by
  have hshift : max ((M * 2 ^ k).log2 - 23) k = (M.log2 - 23) + k := by
    rcases Nat.eq_zero_or_pos M with rfl | hM
    · simp
    · rw [log2_mul_two_pow hM.ne']
      omega
  have hpos : 0 < 2 ^ k := Nat.two_pow_pos k
  unfold froundMag
  simp only [hshift, pow_add, Nat.mul_div_mul_right _ _ hpos, Nat.mul_mod_mul_right, Nat.max_zero, Nat.add_sub_cancel,
    Nat.sub_zero, ← Nat.mul_assoc, Nat.mul_lt_mul_right hpos, beq_eq_decide, Nat.mul_left_inj hpos.ne']

/-- Two finite operands with a positive sign have one rounding of the sum of their magnitudes. -/
theorem fadd_of_positive {a b : F32} (ha : fexp a ≠ 255) (hb : fexp b ≠ 255) (hsa : fsign a = false)
    (hsb : fsign b = false) : fadd a b = fpack false (froundMag 0 (fmag a + fmag b)) := by
  have hadd : fadd a b = if fval a + fval b = 0 then fpack (fsign a && fsign b) 0
      else fpack (decide (fval a + fval b < 0)) (froundMag 0 (fval a + fval b).natAbs) := by
    simp [fadd, fisNaN_of_finite, fisInf_of_finite, ha, hb]
  have hval : fval a + fval b = ((fmag a + fmag b : Nat) : Int) := by simp [fval, hsa, hsb]
  rw [hadd, hval, hsa, Int.natAbs_natCast]
  split
  case isTrue hzero => rw [Int.natCast_eq_zero.mp hzero, froundMag_zero]; rfl
  case isFalse => rw [decide_eq_false (by omega)]

/-- A product of positive values that is a whole number M of units is one rounding of M. -/
theorem fmul_of_positive {a b : F32} {M : Nat} (ha : fexp a ≠ 255) (hb : fexp b ≠ 255) (hsa : fsign a = false)
    (hsb : fsign b = false) (hM : fmag a * fmag b = M * 2 ^ 149) : fmul a b = fpack false (froundMag 0 M) := by
  have hmul : fmul a b = fpack (fsign a != fsign b) (froundMag 149 (fmag a * fmag b)) := by
    simp [fmul, fisNaN_of_finite, fisInf_of_finite, ha, hb]
  rw [hmul, hsa, hsb, hM, froundMag_mul_two_pow]
  rfl

/-! ### Halves of small naturals -/

/-- The binary32 of n / 2, which is n · 2^148 units of 2^-149. -/
def half (n : Nat) : F32 := fpack false (froundMag 0 (n * 2 ^ 148))

theorem half_zero : half 0 = 0x00000000#32 := by decide +kernel

theorem half_one : half 1 = 0x3F000000#32 := by decide +kernel

theorem half_two : half 2 = 0x3F800000#32 := by decide +kernel

/-- A natural number is twice its half. -/
theorem half_two_mul (n : Nat) : half (2 * n) = f32 n := by
  rw [half, f32, evalNat_eq, show 2 * n * 2 ^ 148 = n * 2 ^ 149 by omega]

/-- Half a natural number of 24 bits is exact in binary32. -/
theorem half_exact {n : Nat} (h : n < 2 ^ 24) :
    fexp (half n) ≠ 255 ∧ fsign (half n) = false ∧ fmag (half n) = n * 2 ^ 148 := by
  have hlt : n * 2 ^ 148 < 2 ^ (24 + 148) := by
    rw [pow_add]
    exact Nat.mul_lt_mul_of_pos_right h (Nat.two_pow_pos 148)
  have hexact := fpack_round_exact (s := false) (k := 0) (Nat.dvd_mul_left (2 ^ 148) n) hlt (by decide)
  rwa [pow_zero, mul_one] at hexact

theorem fval_half {n : Nat} (h : n < 2 ^ 24) : fval (half n) = (n : Int) * 2 ^ 148 := by
  obtain ⟨-, hsign, hmag⟩ := half_exact h
  rw [fval, hsign, hmag]
  push_cast
  rfl

theorem fadd_half {m n : Nat} (hm : m < 2 ^ 24) (hn : n < 2 ^ 24) : fadd (half m) (half n) = half (m + n) := by
  obtain ⟨hfinM, hsignM, hmagM⟩ := half_exact hm
  obtain ⟨hfinN, hsignN, hmagN⟩ := half_exact hn
  rw [fadd_of_positive hfinM hfinN hsignM hsignN, hmagM, hmagN, ← Nat.add_mul, half]

/-- A natural number times a half is a number of halves. -/
theorem fmul_half {m n : Nat} (hm : m < 2 ^ 24) (hn : 2 * n < 2 ^ 24) : fmul (half m) (f32 n) = half (m * n) := by
  obtain ⟨hfinM, hsignM, hmagM⟩ := half_exact hm
  obtain ⟨hfinN, hsignN, hmagN⟩ := half_exact hn
  have hprod : fmag (half m) * fmag (half (2 * n)) = m * n * 2 ^ 148 * 2 ^ 149 := by
    rw [hmagM, hmagN]
    ring
  rw [← half_two_mul, fmul_of_positive hfinM hfinN hsignM hsignN hprod, half]

/-- The complement of the factors 0.0, 0.5 and 1.0. -/
theorem fsub_fone_half {w : Nat} (hw : w ≤ 2) : fsub fone (half w) = half (2 - w) := by
  interval_cases w <;> decide +kernel

/-- The byte of a half is its floor (43_color_blender.md R203). -/
theorem to8_half {n : Nat} (h : n < 2 ^ 24) : to8 (half n) = BitVec.ofNat 8 (n / 2) := by
  have htrunc : ftrunc (half n) = ((n / 2 : Nat) : Int) := by
    rw [ftrunc, fval_half h, show (2 ^ 149 : Int) = 2 * 2 ^ 148 from rfl, Int.mul_tdiv_mul_of_pos_left _ _ (by decide)]
    exact (Int.ofNat_tdiv n 2).symm
  obtain ⟨hfin, -, -⟩ := half_exact h
  have hbyte := to8_of_finite (fisNaN_of_finite hfin) (fisInf_of_finite hfin)
  rw [htrunc] at hbyte
  apply BitVec.eq_of_toNat_eq
  rw [BitVec.toNat_ofNat]
  omega

/-! ### The blended channel -/

/-- At a factor of w halves, w at most 2, one channel of the blend is exact (43_color_blender.md R203, R207). -/
theorem blendChannel_half {w : Nat} (hw : w ≤ 2) (a b : Word) (c : Channel) :
    blendChannel a b (half w) c = half (w * (channel b c).toNat + (2 - w) * (channel a c).toNat) := by
  have hb : w * (channel b c).toNat ≤ 2 * 255 := Nat.mul_le_mul hw (by omega)
  have ha : (2 - w) * (channel a c).toNat ≤ 2 * 255 := Nat.mul_le_mul (by omega) (by omega)
  rw [blendChannel, fsub_fone_half hw, channelF, channelF, fmul_half (by omega) (by omega),
    fmul_half (by omega) (by omega), fadd_half (by omega) (by omega)]

/-- The floor of the average of one channel of two colours. -/
def channelAvg (a b : Word) (c : Channel) : Byte := BitVec.ofNat 8 (((channel a c).toNat + (channel b c).toNat) / 2)

theorem channelAvg_toNat (a b : Word) (c : Channel) :
    (channelAvg a b c).toNat = ((channel a c).toNat + (channel b c).toNat) / 2 := by
  rw [channelAvg, BitVec.toNat_ofNat]
  omega

theorem channelAvg_comm (a b : Word) (c : Channel) : channelAvg a b c = channelAvg b a c := by
  rw [channelAvg, channelAvg, Nat.add_comm]

theorem channelAvg_self (a : Word) (c : Channel) : channelAvg a a c = channel a c := by
  apply BitVec.eq_of_toNat_eq
  rw [channelAvg_toNat]
  omega

theorem channelAvg_low24 (a b : Word) (c : Channel) :
    channelAvg (a &&& 0x00FFFFFF#32) (b &&& 0x00FFFFFF#32) c = channelAvg a b c := by
  rw [channelAvg, channel_low24, channel_low24, channelAvg]

/-- At ALPHA a blended channel is half the sum of the inputs' (43_color_blender.md R203). -/
theorem blendChannel_alpha (a b : Word) (c : Channel) :
    blendChannel a b alpha c = half ((channel a c).toNat + (channel b c).toNat) := by
  rw [alpha, ← half_one, blendChannel_half (by decide), Nat.one_mul, Nat.one_mul, Nat.add_comm]

/-- At ALPHA the blend is the floor of each channel's average (43_color_blender.md R203). -/
theorem blend_alpha (a b : Word) :
    blend a b alpha = pack (channelAvg a b .red) (channelAvg a b .green) (channelAvg a b .blue) := by
  have hbyte (c : Channel) : to8 (blendChannel a b alpha c) = channelAvg a b c := by
    rw [blendChannel_alpha, to8_half (by omega), channelAvg]
  rw [blend, packF, hbyte, hbyte, hbyte]

/-! ### The laws of the blend -/

/-- At ALPHA the blend sees two colours through their channels' averages only. -/
theorem blend_alpha_congr {a b a' b' : Word} (h : ∀ c, channelAvg a b c = channelAvg a' b' c) :
    blend a b alpha = blend a' b' alpha := by
  rw [blend_alpha, blend_alpha, h, h, h]

theorem blend_alpha_comm (a b : Word) : blend a b alpha = blend b a alpha := blend_alpha_congr (channelAvg_comm a b)

theorem blend_alpha_low24 (a b : Word) :
    blend (a &&& 0x00FFFFFF#32) (b &&& 0x00FFFFFF#32) alpha = blend a b alpha :=
  blend_alpha_congr (channelAvg_low24 a b)

theorem blend_alpha_self (a : Word) : blend a a alpha = a &&& 0x00FFFFFF#32 := by
  rw [blend_alpha, channelAvg_self, channelAvg_self, channelAvg_self, pack_channels]

theorem channel_blend_alpha (a b : Word) (c : Channel) : channel (blend a b alpha) c = channelAvg a b c := by
  rw [blend_alpha]
  obtain ⟨hred, hgreen, hblue⟩ := channel_pack (channelAvg a b .red) (channelAvg a b .green) (channelAvg a b .blue)
  cases c with
  | red => exact hred
  | green => exact hgreen
  | blue => exact hblue

/-- A packed word's high byte is 0 (40_packed_rgb_accessor.md R143). -/
theorem pack_high (r g b : Byte) : (pack r g b).extractLsb' 24 8 = 0#8 := by
  apply BitVec.eq_of_toNat_eq
  rw [BitVec.extractLsb'_toNat, Nat.shiftRight_eq_div_pow, pack_toNat, BitVec.toNat_ofNat]
  omega

/-- A blend whose channels are those of p is p, without its high byte (43_color_blender.md R207). -/
theorem blend_of_channels {a b p : Word} {al : F32} (h : ∀ c, blendChannel a b al c = channelF p c) :
    blend a b al = p &&& 0x00FFFFFF#32 := by
  rw [blend, packF, h, h, h, channelF, channelF, channelF, to8_f32, to8_f32, to8_f32, pack_channels]

/-! ### The obligations -/

/-- Settles O17: half a channel value is a product of exact halves, and the floor is that of each channel's byte. -/
theorem blendIsTheChannelAverage : Obligations.BlendIsTheChannelAverage := by
  unfold Obligations.BlendIsTheChannelAverage
  refine fun a b => ⟨fun c => ⟨?half, ?sum⟩, blend_alpha a b⟩
  case half =>
    rw [← half_one, channelF, fmul_half (by decide) (by omega), Nat.one_mul, fval_half (by omega)]
    push_cast
    ring
  case sum =>
    rw [← alpha, blendChannel_alpha, fval_half (by omega)]
    push_cast
    ring

/-- Settles O18: each law is one of the channels' averages. -/
theorem blendLiesBetweenItsInputs : Obligations.BlendLiesBetweenItsInputs := by
  unfold Obligations.BlendLiesBetweenItsInputs
  refine fun a b => ⟨blend_alpha_comm a b, blend_alpha_self a, fun c => ?_⟩
  rw [channel_blend_alpha, channelAvg_toNat]
  omega

/-- Settles O19: the two factors are zero halves and two, so one channel drops out and the other is taken whole. -/
theorem blendBoundary : Obligations.BlendBoundary := by
  unfold Obligations.BlendBoundary
  intro a b
  have hzero (c : Channel) : blendChannel a b 0x00000000#32 c = channelF a c := by
    rw [← half_zero, blendChannel_half (by decide), Nat.zero_mul, Nat.zero_add, half_two_mul, channelF]
  have hone (c : Channel) : blendChannel a b 0x3F800000#32 c = channelF b c := by
    rw [← half_two, blendChannel_half (by decide), Nat.sub_self, Nat.zero_mul, Nat.add_zero, half_two_mul, channelF]
  exact ⟨fun c => ⟨hzero c, hone c⟩, blend_of_channels hzero, blend_of_channels hone⟩

/-- Settles O16: BLEND's start checks are none, and its second step sets RES0; the corner cases are laws of the blend,
and the rule's values are evaluated. -/
theorem blendCompletes : Obligations.BlendCompletes := by
  unfold Obligations.BlendCompletes
  refine ⟨fun s h hq => exec_unit_results h hq rfl rfl,
    fun a b => ⟨?high, blend_alpha_comm a b, blend_alpha_low24 a b⟩, ?_, ?_, ?_⟩
  case high => rw [blend_alpha, pack_high]
  all_goals decide +kernel

end Sys2Proof.Machine
end

section
/-! PROOF. The edge rule engine: the rule table and its values, the rule of equal colours, and the run of PIXEL
(44_edge_rule_engine.md). -/

namespace Sys2Proof.Machine

/-! ### The rule of equal colours -/

theorem quadrant_of_noEdge {q : QuadrantRule} {m : Matrix} (h : flt (sumA q m) (sumB q m) = false) :
    quadrant q m = ⟨cell m centerIndex, false, false⟩ := by
  unfold quadrant
  rw [h]
  exact if_neg Bool.false_ne_true

/-- Zero terms have the sum +0 (44_edge_rule_engine.md R221). -/
theorem weightedSum_of_zero {m : Matrix} {t1 t2 t3 t4 tX : Nat × Nat}
    (h : ∀ t ∈ [t1, t2, t3, t4, tX], cellDiff m t = 0#32) : weightedSum m t1 t2 t3 t4 tX = 0#32 := by
  simp only [List.forall_mem_cons] at h
  obtain ⟨h1, h2, h3, h4, hX, -⟩ := h
  unfold weightedSum
  rw [h1, h2, h3, h4, hX]
  decide +kernel

/-- The terms of the rules are of cells of the matrix (44_edge_rule_engine.md R222). -/
theorem ruleOf_terms_le (q : Fin 4) :
    (∀ t ∈ [(ruleOf q).a1, (ruleOf q).a2, (ruleOf q).a3, (ruleOf q).a4, (ruleOf q).aX], t.1 ≤ 20 ∧ t.2 ≤ 20) ∧
      ∀ t ∈ [(ruleOf q).b1, (ruleOf q).b2, (ruleOf q).b3, (ruleOf q).b4, (ruleOf q).bX], t.1 ≤ 20 ∧ t.2 ≤ 20 := by
  revert q
  decide

/-- Settles O28: every term of the two sums is a difference of equal colours, so both sums are +0, and +0 is not below
itself. -/
theorem equalColoursGiveNoEdge : Obligations.EqualColoursGiveNoEdge := by
  unfold Obligations.EqualColoursGiveNoEdge
  intro m hm q
  have hterm (t : Nat × Nat) (ht : t.1 ≤ 20 ∧ t.2 ≤ 20) : cellDiff m t = 0#32 := by
    rw [cellDiff, ← diff_low24, hm _ _ ht.1 ht.2, diff_self]
  obtain ⟨hA, hB⟩ := ruleOf_terms_le q
  have hsumA : sumA (ruleOf q) m = 0#32 := weightedSum_of_zero fun t ht => hterm t (hA t ht)
  have hsumB : sumB (ruleOf q) m = 0#32 := weightedSum_of_zero fun t ht => hterm t (hB t ht)
  refine quadrant_of_noEdge ?_
  rw [hsumA, hsumB]
  decide

/-! ### The run of PIXEL -/

/-- s after n block steps that leave the choices sch, with PIXEL completed and its outputs o in the result registers. -/
def State.pixelDone (s : State) (n : Nat) (sch : List Choice) (o : Fin 4 → QuadrantOut) : State :=
  ({ s with inputs := elapse n s.inputs, schedule := sch }.setPixelResults o).complete

theorem tick_setPixelResults_complete (s : State) (o : Fin 4 → QuadrantOut) :
    (s.setPixelResults o).complete.tick = s.pixelDone 1 s.schedule o := rfl

theorem pixelDone_progress (s : State) (r : Running) (n : Nat) (sch : List Choice) (o : Fin 4 → QuadrantOut) :
    (s.useChoice.progress r).tick.pixelDone n sch o = s.pixelDone (1 + n) sch o := by
  unfold State.pixelDone
  rw [← elapse_elapse n 1]
  cases s
  rfl

/-- The start checks' step clears ERR and ERRCODE, and so the completion leaves them. -/
theorem pixelDone_started {s : State} (h : s.engine = .idle) (n : Nat) (sch : List Choice) (o : Fin 4 → QuadrantOut) :
    (s.started .pixel).pixelDone n sch o =
      { s with
        done := true, err := false, errCode := .none, inputs := elapse (1 + n) s.inputs, schedule := sch,
        res0 := (o 0).out, res1 := (o 1).out, res2 := (o 2).out, res3 := (o 3).out,
        decision := decisionWord (fun q => (o q).edge) fun q => (o q).pick } := by
  rw [← elapse_elapse n 1]
  cases s
  cases h
  rfl

/-- The run of an undisturbed PIXEL past its start checks, no read of its matrix refused: each step but the last gets a
word or makes an extra read, and so lowers the number of lacking cells and of choices left; the last completes with the
rules' outputs (44_edge_rule_engine.md R232; log 4, log 6). -/
theorem runSteps_pixel {m : Memory} {q : Snapshot} (hs : q.SrcOk) (c k : Nat) {r : Running} {u : State}
    (he : u.engine = .running r) (h : PixelRight m q r u)
    (hport : ∀ j a, j ≤ 20 → q.cellAddr q.opx.toNat q.opy.toNat j = some a → (.read, a) ∉ u.busErrors)
    (hk : r.window.todo.length + u.schedule.length < k) (hq : u.Quiet k) :
    ∃ n sch, n ≤ k ∧
      u.runSteps pixelStep (c + k) = u.pixelDone n sch (ruleOut (sampleMatrix m q q.opx.toNat q.opy.toNat)) := by
  induction k generalizing r u with
  | zero => omega
  | succ k ih =>
    rw [← Nat.add_assoc, runSteps_succ _ _ he (due_eq_false hq)]
    rcases pixelStep_right hs h with ⟨hstep, -⟩ | ⟨-, j, a, hj, ha, hrefused⟩ | ⟨r', hstep, hright, hless⟩
    · refine ⟨1, u.schedule, by omega, ?_⟩
      rw [hstep, runSteps_idle _ _ rfl, tick_setPixelResults_complete]
    · exact absurd hrefused (hport j a hj ha)
    · have hquiet : (u.useChoice.progress r').tick.Quiet k := hq.elapse rfl
      obtain ⟨n, sch, hn, hrun⟩ := ih rfl hright hport (Nat.lt_of_lt_of_le hless (Nat.le_of_lt_succ hk)) hquiet
      refine ⟨1 + n, sch, by omega, ?_⟩
      rw [hstep, hrun, pixelDone_progress]

theorem length_startWindow_pixel_le (s : State) : (startedRunning .pixel s).window.todo.length ≤ 21 :=
  (length_inBoundsCells_le _ _ _ _).trans_eq (List.length_range)

/-- The words that PIXEL may read are those of its matrix (44_edge_rule_engine.md R232). -/
theorem exists_cellAddr_of_readable {q : Snapshot} {a : Nat} (h : a ∈ q.readable .pixel) :
    ∃ k ≤ 20, q.cellAddr q.opx.toNat q.opy.toNat k = some a := by
  obtain ⟨k, hk, ha⟩ := List.mem_filterMap.mp h
  exact ⟨k, Nat.le_of_lt_succ (List.mem_range.mp hk), ha⟩

/-- Settles O30: the start checks' step, then the run past them; DECISION's bits are those of its word. -/
theorem pixelCompletes : Obligations.PixelCompletes := by
  unfold Obligations.PixelCompletes
  intro s h hq hs hport
  have hheld : ∀ a ∈ s.latch.readable .pixel, s.heldWord a = none := fun a ha => by
    obtain ⟨k, hk, hka⟩ := exists_cellAddr_of_readable ha
    exact (hport k a hk hka).2
  have hquiet : (s.started .pixel).Quiet (22 + s.schedule.length) :=
    State.Quiet.elapse (k := 1) (hq.mono (by omega)) rfl
  have hleft : (startedRunning .pixel s).window.todo.length + s.schedule.length < 22 + s.schedule.length :=
    Nat.add_lt_add_right (Nat.lt_succ_of_le (length_startWindow_pixel_le s)) _
  obtain ⟨n, sch, hn, hrun⟩ := runSteps_pixel (u := s.started .pixel) hs (25 * (s.width.toNat * s.height.toNat) + 1)
    (22 + s.schedule.length) rfl (pixelRight_started hheld) (fun k a hk hka => (hport k a hk hka).1) hleft hquiet
  obtain ⟨hlt, hbits⟩ := decisionWord_bits _ _
  refine ⟨_, 1 + n, sch, hbits, hlt, by omega, ?_⟩
  rw [exec_started h (hq.mono (by omega)) ((startError_pixel_none_iff _).mpr hs),
    show 25 * (s.width.toNat * s.height.toNat) + 23 + s.schedule.length =
      25 * (s.width.toNat * s.height.toNat) + 1 + (22 + s.schedule.length) by omega]
  exact congrArg _ (hrun.trans (pixelDone_started h.1 n sch _))

/-! ### The rule table -/

/-- Settles O25: each row of the table, put into the generic rule. -/
theorem quadrantRulesFollowTheTable : Obligations.QuadrantRulesFollowTheTable := by
  unfold Obligations.QuadrantRulesFollowTheTable
  exact fun m => ⟨rfl, rfl, rfl, rfl⟩

/-- Settles O26, by evaluation of the mirrors on the cells and on the rows of the table. -/
theorem quadrantTableSymmetry : Obligations.QuadrantTableSymmetry := by
  unfold Obligations.QuadrantTableSymmetry
  refine ⟨?mirrors, ?topRight, ?bottomLeft, ?bottomRight⟩ <;> decide

/-- Settles O27, by evaluation of the sums and of the rules on each matrix. -/
theorem edgeRuleTestVectors : Obligations.EdgeRuleTestVectors := by
  unfold Obligations.EdgeRuleTestVectors
  refine ⟨?tableTerm, ?noEdge, ?secondCandidate, ?tie⟩ <;> decide +kernel

end Sys2Proof.Machine
end

section
/-! PROOF. The scan driver: the destination cells, the commands that complete with no access, and the run of an undisturbed
APPLY (45_scan_driver.md). -/

namespace Sys2Proof.Machine

/-! ### The destination cells -/

/-- Settles O37: the laws of `Snapshot.dstCell`. -/
theorem destinationCellsAreABijection : Obligations.DestinationCellsAreABijection := by
  unfold Obligations.DestinationCellsAreABijection
  exact fun q => ⟨fun x y k hx hy => dstCell_lt hx hy k, fun x y k x' y' k' => dstCell_inj, fun n => exists_dstCell⟩

/-! ### Completion by the second step, with no result -/

/-- A command whose second step is its completion changes nothing but STATUS (60_exceptions.md R291; log 4). -/
theorem exec_of_complete {s : State} {i : Instr} (h : s.Ready) (hq : s.Quiet 2) (hc : startError i s.latch = none)
    (hstep : commandStep i (startedRunning i s) (s.started i) = (s.started i).complete) :
    exec i s = .next { s with done := true, err := false, errCode := .none, inputs := elapse 2 s.inputs } :=
  exec_unit_results (r0 := s.res0) (r1 := s.res1) (r2 := s.res2) (r3 := s.res3) h hq hc hstep

/-- Settles O11: NOP's start checks are none, and its second step is its completion. -/
theorem nopCompletes : Obligations.NopCompletes := by
  unfold Obligations.NopCompletes
  exact fun s h hq => exec_of_complete h hq rfl rfl

/-! ### The empty image -/

section
variable {q : Snapshot} (hempty : q.w * q.h = 0)
include hempty

theorem nonEmpty_of_empty : q.nonEmpty = false := by simp [Snapshot.nonEmpty, hempty]

theorem jobs_of_empty : q.jobs = [] := by simp [Snapshot.jobs, Snapshot.pixels, hempty]

/-- There is no source word to read without need (20_memory.md R100). -/
theorem extraWord_of_empty (c : ReadChoice) : c.extraWord q.sourceWord = none := by
  cases hword : c.extraWord q.sourceWord with
  | none => rfl
  | some a =>
    obtain ⟨n, -, hn⟩ := extraWord_eq_some hword
    simp [Snapshot.sourceWord, nonEmpty_of_empty hempty] at hn

/-- The lengths alone decide the start checks of APPLY (45_scan_driver.md R256, 20_memory.md R100). -/
theorem startError_apply_of_empty :
    startError .apply q =
      if q.srcLen ≠ 0#32 then some .srcLen else if q.dstLen ≠ 0#32 then some .dstLen else none := by
  have hcells : 2 * q.w * (2 * q.h) = 0 := by rw [Nat.mul_mul_mul_comm, hempty]
  simp only [startError, startChecks, checkSrcLen, checkDstLen, checkSrcAlign, checkDstAlign, checkSrcRange,
    checkDstRange, checkOverlap, nonEmpty_of_empty hempty, hempty, hcells, Bool.false_eq_true, false_and, if_false,
    List.findSome?_cons, List.findSome?_nil, BitVec.toNat_ne, BitVec.toNat_ofNat, Nat.zero_mod]
  split_ifs <;> rfl

/-- With no pixel unfinished and no source word APPLY's next step is its completion. -/
theorem applyStep_of_empty {r : Running} (u : State) (hc : r.checked = true) (hsnap : r.snap = q) (htodo : r.todo = []) :
    applyStep r u = u.complete := by
  unfold applyStep
  rw [if_pos hc, hsnap, extraWord_of_empty hempty, htodo]
  rfl

end

/-- Settles O38: the lengths alone decide the start checks, and past them there is no pixel to work on. -/
theorem emptyImageApplies : Obligations.EmptyImageApplies := by
  unfold Obligations.EmptyImageApplies
  intro s h hq hsize
  have hempty : s.latch.w * s.latch.h = 0 := by
    show s.width.toNat * s.height.toNat = 0
    rcases hsize with hw | hh
    · rw [hw]; exact Nat.zero_mul _
    · rw [hh]; exact Nat.mul_zero _
  have hchecks : startError .apply s.latch =
      if s.srcLen ≠ 0#32 then some .srcLen else if s.dstLen ≠ 0#32 then some .dstLen else none :=
    startError_apply_of_empty hempty
  refine ⟨fun hsrc hdst => ?success, fun hsrc => ?srcLen, fun hsrc hdst => ?dstLen⟩
  case success =>
    rw [if_neg (not_not_intro hsrc), if_neg (not_not_intro hdst)] at hchecks
    exact exec_of_complete h hq hchecks (applyStep_of_empty hempty _ rfl rfl (jobs_of_empty hempty))
  case srcLen =>
    rw [if_pos hsrc] at hchecks
    exact exec_failed h (hq.mono (by omega)) hchecks
  case dstLen =>
    rw [if_neg (not_not_intro hsrc), if_pos hdst] at hchecks
    exact exec_failed h (hq.mono (by omega)) hchecks

/-! ### The run of an undisturbed APPLY -/

/-- APPLY in s passes its start checks, no event lands before it ends, memory answers its accesses, and the source's stores
are performed (45_scan_driver.md R253; log 4, log 17). -/
structure State.ApplyAnswered (s : State) : Prop where
  ready : s.Ready
  quiet : s.Quiet (25 * (s.width.toNat * s.height.toNat) + 2 + s.schedule.length)
  memory : s.mem.wf
  srcOk : s.latch.SrcOk
  dstOk : s.latch.DstOk
  source : ∀ a, s.latch.inSrc a = true → (.read, a) ∉ s.busErrors ∧ s.heldWord a = none
  destination : ∀ a, s.latch.inDst a = true → (.write, a) ∉ s.busErrors

/-- The accesses that APPLY must make lie in its buffers (20_memory.md R86). -/
theorem State.ApplyAnswered.not_refused {s : State} (h : s.ApplyAnswered) : ¬s.latch.Refused s.busErrors := by
  rintro (⟨n, hn, hrefused⟩ | ⟨n, hn, hrefused⟩)
  · exact (h.source _ (inSrc_of_isSource h.srcOk ⟨n, hn, rfl⟩)).1 hrefused
  · obtain ⟨-, hlow, hhigh, -⟩ := dstAddr_bounds h.dstOk hn
    exact h.destination _ (inDst_iff.mpr ⟨hlow, by omega⟩) hrefused

/-- s after n block steps that leave the choices sch and memory m, with APPLY completed. -/
def State.applyDone (s : State) (n : Nat) (sch : List Choice) (m : Memory) : State :=
  { s with inputs := elapse n s.inputs, schedule := sch, mem := m }.complete

theorem tick_complete (s : State) : s.complete.tick = s.applyDone 1 s.schedule s.mem := rfl

/-- s after a block step of APPLY that has used up a choice and leaves the command r and memory m. -/
def State.afterAccess (s : State) (r : Running) (m : Memory) : State :=
  { s with engine := .running r, mem := m, schedule := s.schedule.tail }.tick

theorem applyDone_afterAccess (s : State) (r : Running) (m' : Memory) (n : Nat) (sch : List Choice) (m : Memory) :
    (s.afterAccess r m').applyDone n sch m = s.applyDone (1 + n) sch m := by
  unfold State.applyDone
  rw [← elapse_elapse n 1]
  rfl

/-- The start checks' step clears ERR and ERRCODE, and so the completion leaves them. -/
theorem applyDone_started {s : State} (h : s.engine = .idle) (n : Nat) (sch : List Choice) (m : Memory) :
    (s.started .apply).applyDone n sch m =
      { s with
        done := true, err := false, errCode := .none, inputs := elapse (1 + n) s.inputs, mem := m, schedule := sch } := by
  rw [← elapse_elapse n 1]
  cases s
  cases h
  rfl

/-- The run of an undisturbed APPLY past its start checks, no access refused: each step but the last keeps the scan's
invariant and lowers the number of accesses and of choices left; the last completes with no cell owed
(45_scan_driver.md R253, R254; log 4, log 5, log 6). -/
theorem runSteps_apply {m0 : Memory} {q : Snapshot} (hs : q.SrcOk) (hd : q.DstOk) (c k : Nat) {r : Running} {u : State}
    (he : u.engine = .running r) (hheld : ∀ a ∈ q.readable .apply, u.heldWord a = none)
    (hport : ¬q.Refused u.busErrors) (h : ScanRight m0 u.busErrors q r u.mem)
    (hk : sumLeft r.todo + u.schedule.length < k) (hq : u.Quiet k) :
    ∃ n sch m, n ≤ k ∧ u.runSteps applyStep (c + k) = u.applyDone n sch m ∧ ScanMemory m0 q [] m := by
  induction k generalizing r u with
  | zero => omega
  | succ k ih =>
    rw [← Nat.add_assoc, runSteps_succ _ _ he (due_eq_false hq)]
    rcases applyStep_right hs hd hheld h with
      ⟨htodo, hstep⟩ | ⟨-, -, -, -, hrefused, -⟩ | ⟨r', m', hstep, hright, hless, -⟩
    · refine ⟨1, u.schedule, u.mem, by omega, ?_, htodo ▸ h.memory⟩
      rw [hstep, runSteps_idle _ _ rfl, tick_complete]
    · exact absurd hrefused hport
    · obtain ⟨n, sch, m, hn, hrun, hmem⟩ := ih (u := u.afterAccess r' m') rfl hheld hport hright
        (Nat.lt_of_lt_of_le hless (Nat.le_of_lt_succ hk)) (hq.elapse rfl)
      refine ⟨1 + n, sch, m, by omega, ?_, hmem⟩
      rw [hstep, ← applyDone_afterAccess u r' m', ← hrun]
      rfl

/-- An undisturbed APPLY whose accesses are answered completes with no destination cell owed. -/
theorem exec_apply {s : State} (h : s.ApplyAnswered) :
    ∃ (m : Memory) (n : Nat) (sch : List Choice),
      exec .apply s =
        .next { s with
          done := true, err := false, errCode := .none, inputs := elapse n s.inputs, mem := m, schedule := sch } ∧
      n ≤ 25 * (s.width.toNat * s.height.toNat) + 2 + s.schedule.length ∧ ScanMemory s.mem s.latch [] m := by
  have hheld : ∀ a ∈ s.latch.readable .apply, s.heldWord a = none := fun a ha =>
    (h.source a (inSrc_of_isSource h.srcOk (isSource_of_readable ha))).2
  have hleft : sumLeft s.latch.jobs ≤ 25 * (s.width.toNat * s.height.toNat) := sum_left_jobs s.latch
  have hquiet : (s.started .apply).Quiet (25 * (s.width.toNat * s.height.toNat) + 1 + s.schedule.length) :=
    State.Quiet.elapse (k := 1) (h.quiet.mono (by omega)) rfl
  obtain ⟨n, sch, m, hn, hrun, hmem⟩ := runSteps_apply (u := s.started .apply) h.srcOk h.dstOk 22
    (25 * (s.width.toNat * s.height.toNat) + 1 + s.schedule.length) rfl hheld h.not_refused
    (scanRight_started h.memory h.srcOk h.dstOk)
    (show sumLeft s.latch.jobs + s.schedule.length < _ by omega) hquiet
  refine ⟨m, 1 + n, sch, ?_, by omega, hmem⟩
  rw [exec_started h.ready (h.quiet.mono (by omega)) ((startError_apply_none_iff _).mpr ⟨h.srcOk, h.dstOk⟩),
    show 25 * (s.width.toNat * s.height.toNat) + 23 + s.schedule.length =
      22 + (25 * (s.width.toNat * s.height.toNat) + 1 + s.schedule.length) by omega]
  exact congrArg _ (hrun.trans (applyDone_started h.ready.1 n sch m))

/-- With no cell owed every destination cell is final (45_scan_driver.md R253). -/
theorem readWord_of_noneOwed {m0 m : Memory} {q : Snapshot} (h : ScanMemory m0 q [] m) {x y : Nat} (k : Fin 4)
    (hx : x < q.w) (hy : y < q.h) : m.readWord (q.dstAddr (q.dstCell x y k)) = finalWord m0 q x y k := by
  rcases h.cells x y k hx hy with hfinal | ⟨-, j, hj, -⟩
  · exact hfinal
  · cases hj

/-- Settles O33: with no cell owed each destination cell is final, and all bytes outside the destination are the old
ones. -/
theorem applyUpscalesTheImage : Obligations.ApplyUpscalesTheImage := by
  unfold Obligations.ApplyUpscalesTheImage
  intro s hready hquiet hwf hsrc hdst hreads hwrites
  obtain ⟨m, n, sch, hexec, hn, hmem⟩ := exec_apply ⟨hready, hquiet, hwf, hsrc, hdst, hreads, hwrites⟩
  exact ⟨m, n, sch, hexec, hn, hmem.wf, fun x y k hx hy => readWord_of_noneOwed hmem k hx hy, hmem.outside⟩

/-! ### Two images alike -/

/-- The source words of two images of one size are the same, wherever they lie. -/
structure SameImage (m₁ : Memory) (q₁ : Snapshot) (m₂ : Memory) (q₂ : Snapshot) : Prop where
  width : q₁.w = q₂.w
  height : q₁.h = q₂.h
  words : ∀ n < q₁.w * q₁.h, m₁.readWord (q₁.srcBase.toNat + 4 * n) = m₂.readWord (q₂.srcBase.toNat + 4 * n)

section
variable {m₁ m₂ : Memory} {q₁ q₂ : Snapshot} (h : SameImage m₁ q₁ m₂ q₂)
include h

theorem dstCell_of_sameImage (x y : Nat) (k : Fin 4) : q₁.dstCell x y k = q₂.dstCell x y k := by
  unfold Snapshot.dstCell
  rw [h.width]

/-- A cell lies inside the image or outside by the size alone, and inside it is the same source word. -/
theorem sampleCell_of_sameImage (x y k : Nat) : sampleCell m₁ q₁ x y k = sampleCell m₂ q₂ x y k := by
  have hbounds : q₁.inBounds (cellCoord x y k) = q₂.inBounds (cellCoord x y k) := by
    unfold Snapshot.inBounds
    rw [h.width, h.height]
  by_cases hin : q₁.inBounds (cellCoord x y k) = true
  · have haddr₁ : q₁.cellAddr x y k = some _ := if_pos hin
    have haddr₂ : q₂.cellAddr x y k = some _ := if_pos (hbounds ▸ hin)
    obtain ⟨_, hx, _, hy⟩ := inBounds_iff.mp hin
    rw [sampleCell_of_some haddr₁, sampleCell_of_some haddr₂]
    unfold Snapshot.srcAddr
    rw [← h.width]
    exact h.words _ (index_lt (by omega) (by omega))
  · rw [sampleCell_of_none (cellAddr_of_outside hin), sampleCell_of_none (cellAddr_of_outside (hbounds ▸ hin))]

theorem finalWord_of_sameImage (x y : Nat) (k : Fin 4) : finalWord m₁ q₁ x y k = finalWord m₂ q₂ x y k := by
  unfold finalWord sampleMatrix
  rw [funext (sampleCell_of_sameImage h x y)]

end

/-- Settles O36: each of the two leaves the final word of each cell, and the final words of images alike are the same. -/
theorem applyIsIndependentOfOrderAndAddresses : Obligations.ApplyIsIndependentOfOrderAndAddresses := by
  unfold Obligations.ApplyIsIndependentOfOrderAndAddresses
  intro s₁ s₂ hboth hwidth hheight hwords
  have hexec (s : State) (hs : s = s₁ ∨ s = s₂) :
      ∃ t, exec .apply s = .next t ∧ ScanMemory s.mem s.latch [] t.mem := by
    obtain ⟨hready, hquiet, hwf, hsrc, hdst, hreads, hwrites⟩ := hboth s hs
    obtain ⟨m, n, sch, hexec, -, hmem⟩ := exec_apply ⟨hready, hquiet, hwf, hsrc, hdst, hreads, hwrites⟩
    exact ⟨_, hexec, hmem⟩
  obtain ⟨t₁, ht₁, hmem₁⟩ := hexec s₁ (.inl rfl)
  obtain ⟨t₂, ht₂, hmem₂⟩ := hexec s₂ (.inr rfl)
  have himage : SameImage s₁.mem s₁.latch s₂.mem s₂.latch :=
    ⟨congrArg BitVec.toNat hwidth, congrArg BitVec.toNat hheight, hwords⟩
  refine ⟨t₁, t₂, ht₁, ht₂, fun n hn => ?_⟩
  obtain ⟨x, y, k, hx, hy, rfl⟩ := exists_dstCell (q := s₁.latch) hn
  calc t₁.mem.readWord (s₁.latch.dstAddr (s₁.latch.dstCell x y k))
      = finalWord s₁.mem s₁.latch x y k := readWord_of_noneOwed hmem₁ k hx hy
    _ = finalWord s₂.mem s₂.latch x y k := finalWord_of_sameImage himage x y k
    _ = t₂.mem.readWord (s₂.latch.dstAddr (s₂.latch.dstCell x y k)) :=
        (readWord_of_noneOwed hmem₂ k (himage.width ▸ hx) (himage.height ▸ hy)).symm
    _ = t₂.mem.readWord (s₂.latch.dstAddr (s₁.latch.dstCell x y k)) := by rw [dstCell_of_sameImage himage]

end Sys2Proof.Machine
end

section
/-! PROOF. A command that `bus_error` stops (60_exceptions.md R293): what a refused read does, and the runs of SAMPLE and
PIXEL. -/

namespace Sys2Proof.Machine

/-! ### A run stopped by `bus_error` -/

/-- s after n block steps that leave the choices sch, c free words used and memory m, with the command stopped by BUS
(60_exceptions.md R293). -/
def State.stopped (s : State) (n : Nat) (sch : List Choice) (c : Nat) (m : Memory) : State :=
  { s with inputs := elapse n s.inputs, schedule := sch, freeCount := c, mem := m }.raise .bus

theorem tick_raise_bus (s : State) : (s.raise .bus).tick = s.stopped 1 s.schedule s.freeCount s.mem := rfl

theorem stopped_progress (s : State) (k : Nat) (r : Running) (n : Nat) (sch : List Choice) (c : Nat) (m : Memory) :
    ((s.useChoice.useFree k).progress r).tick.stopped n sch c m = s.stopped (1 + n) sch c m := by
  unfold State.stopped
  rw [← elapse_elapse n 1]
  cases s
  rfl

/-- The start checks' step changes nothing that stays after the error completion but the time. -/
theorem stopped_started {s : State} {i : Instr} (h : s.engine = .idle) (n : Nat) (sch : List Choice) (c : Nat)
    (m : Memory) :
    (s.started i).stopped n sch c m =
      { s with
        done := true, err := true, errCode := .bus, inputs := elapse (1 + n) s.inputs, mem := m, schedule := sch,
        freeCount := c } := by
  rw [← elapse_elapse n 1]
  cases s
  cases h
  rfl

/-- A command whose first access after its start checks is refused completes with BUS by its second step, and nothing but
STATUS and the choices left changes (60_exceptions.md R293; log 4). -/
theorem exec_of_bus {s : State} {i : Instr} {sch : List Choice} (h : s.Ready) (hq : s.Quiet 2)
    (hc : startError i s.latch = none)
    (hstep : commandStep i (startedRunning i s) (s.started i) = { s.started i with schedule := sch }.raise .bus) :
    exec i s =
      .next { s with done := true, err := true, errCode := .bus, inputs := elapse 2 s.inputs, schedule := sch } := by
  rw [exec_unit h hq hc hstep rfl]
  exact congrArg _ (stopped_started (i := i) h.1 1 sch s.freeCount s.mem)

/-! ### A read that memory refuses, and one that it answers -/

theorem readWord_of_refused {s : State} {a : Nat} (h : (.read, a) ∈ s.busErrors) (r : Running) :
    s.readWord r a = none := by
  simp [State.readWord, State.memRead, State.portOk, h]

theorem not_refused_of_readWord {s s' : State} {r r' : Running} {a : Nat} {w : Word}
    (h : s.readWord r a = some (w, r', s')) : (.read, a) ∉ s.busErrors := by
  intro hrefused
  rw [readWord_of_refused hrefused] at h
  cases h

/-- None of the reads that the command has made is among the accesses l. -/
def Running.ReadsAnswered (l : List (Access × Nat)) (r : Running) : Prop := ∀ p ∈ r.reads, (Access.read, p.1) ∉ l

/-- A word whose read is refused has not been read before, so no earlier read of it can be reused. -/
theorem fetchWord_of_refused {s : State} {r : Running} {a : Nat} (reuse : Option Nat)
    (hreads : r.ReadsAnswered s.busErrors) (h : (.read, a) ∈ s.busErrors) : s.fetchWord r reuse a = none := by
  unfold State.fetchWord
  split
  · exact readWord_of_refused h r
  · next hword => exact absurd h (hreads _ (Running.wordRead_some hword))

theorem readsAnswered_of_fetchWord {s s' : State} {r r' : Running} {reuse : Option Nat} {a : Nat} {w : Word}
    (hreads : r.ReadsAnswered s.busErrors) (h : s.fetchWord r reuse a = some (w, r', s')) :
    r'.ReadsAnswered s.busErrors := by
  have hread {r₀ : Running} (h : s.readWord r₀ a = some (w, r', s')) (h₀ : r₀.reads = r.reads) :
      r'.ReadsAnswered s.busErrors := by
    obtain ⟨-, rfl⟩ := State.readWord_cases h
    refine List.forall_mem_cons.mpr ⟨not_refused_of_readWord h, ?_⟩
    rwa [h₀]
  unfold State.fetchWord at h
  split at h
  · exact hread h rfl
  · split at h
    · cases h
      exact hreads
    · exact hread h rfl

theorem fetchCell_of_refused {s : State} {r : Running} {x y k a : Nat} (reuse : Option Nat)
    (hreads : r.ReadsAnswered s.busErrors) (ha : r.snap.cellAddr x y k = some a) (h : (.read, a) ∈ s.busErrors) :
    s.fetchCell r reuse x y k = none := by
  unfold State.fetchCell
  rw [ha]
  exact fetchWord_of_refused reuse hreads h

theorem readsAnswered_of_fetchCell {s s' : State} {r r' : Running} {reuse : Option Nat} {x y k : Nat} {w : Word}
    (hreads : r.ReadsAnswered s.busErrors) (h : s.fetchCell r reuse x y k = some (w, r', s')) :
    r'.ReadsAnswered s.busErrors := by
  unfold State.fetchCell at h
  split at h
  · cases h
    exact hreads
  · exact readsAnswered_of_fetchWord hreads h

/-! ### SAMPLE and PIXEL -/

/-- A SAMPLE whose read is refused completes with BUS by its second step. -/
theorem exec_sample_refused {s : State} {a : Nat} (h : s.Ready) (hq : s.Quiet 2) (hs : s.latch.SrcOk)
    (hk : s.opk.toNat ≤ 20) (ha : s.latch.cellAddr s.opx.toNat s.opy.toNat s.opk.toNat = some a)
    (hrefused : (.read, a) ∈ s.busErrors) :
    exec .sample s =
      .next { s with done := true, err := true, errCode := .bus, inputs := elapse 2 s.inputs } := by
  refine exec_of_bus (sch := s.schedule) h hq ((startError_sample_none_iff _).mpr ⟨hs, hk⟩) ?_
  refine (sampleStep_read ha).trans ?_
  rw [readWord_of_refused (s := s.started .sample) hrefused]
  rfl

/-- A PIXEL past its start checks still lacks its cell k, whose read is among the refused accesses l. -/
structure PixelOwed (l : List (Access × Nat)) (k : Nat) (r : Running) : Prop where
  checked : r.checked = true
  reads : r.ReadsAnswered l
  lacking : k ∈ r.window.todo
  refused : ∃ a, r.snap.cellAddr r.snap.opx.toNat r.snap.opy.toNat k = some a ∧ (.read, a) ∈ l

/-- The cell whose read is refused is never filled: the step stops with BUS, or fills another one. -/
theorem pixelFetch_owed {k : Nat} {r : Running} {u : State} (c : Choice) (h : PixelOwed u.busErrors k r) :
    pixelFetch r c u = u.raise .bus ∨
      ∃ n r', pixelFetch r c u = (u.useFree n).progress r' ∧ PixelOwed u.busErrors k r' ∧
        r'.window.todo.length < r.window.todo.length := by
  obtain ⟨hc, hreads, hk, a, ha, hrefused⟩ := h
  have hlt : c.item % r.window.todo.length < r.window.todo.length := Nat.mod_lt _ (List.length_pos_of_mem hk)
  have hpick := List.getElem?_eq_getElem hlt
  unfold pixelFetch State.fetchNext
  rw [hpick]
  simp only
  cases hf : u.fetchCell r c.read.reuses r.snap.opx.toNat r.snap.opy.toNat r.window.todo[c.item % r.window.todo.length]
  case none => exact .inl rfl
  case some p =>
    obtain ⟨w, r', u'⟩ := p
    right
    obtain ⟨⟨n, rfl⟩, hafter⟩ := State.fetchCell_cases (i := .pixel) (fun a => cellAddr_mem_cellWords) hf
    obtain ⟨-, hsnap, hchecked, -⟩ := hafter.same
    have hreads' := readsAnswered_of_fetchCell hreads hf
    refine ⟨n, _, rfl, ⟨hchecked.trans hc, hreads', ?lacking, a, hsnap ▸ ha, hrefused⟩, ?less⟩
    case lacking =>
      refine (mem_eraseIdx_or hpick hk).resolve_left ?_
      rintro rfl
      rw [fetchCell_of_refused _ hreads ha hrefused] at hf
      cases hf
    case less =>
      simp only [List.length_eraseIdx_of_lt hlt]
      omega

/-- A step of a PIXEL that lacks a refused cell stops with BUS, or uses up a lacking cell or a choice. -/
theorem pixelStep_owed {k : Nat} {r : Running} {u : State} (h : PixelOwed u.busErrors k r) :
    pixelStep r u = u.useChoice.raise .bus ∨
      ∃ n r', pixelStep r u = (u.useChoice.useFree n).progress r' ∧ PixelOwed u.busErrors k r' ∧
        r'.window.todo.length + u.useChoice.schedule.length < r.window.todo.length + u.schedule.length := by
  have hk := h.lacking
  unfold pixelStep
  rw [if_pos h.checked]
  cases he : u.choice.read.extraWord (r.snap.windowWord r.snap.opx.toNat r.snap.opy.toNat) with
  | some a =>
    obtain ⟨n, hn, ha⟩ := extraWord_eq_some he
    have hsch := schedule_of_extra hn
    simp only [State.extraRead]
    cases hf : u.useChoice.fetchWord r none a
    case none => exact .inl rfl
    case some p =>
      obtain ⟨w, r', u'⟩ := p
      obtain ⟨⟨n, rfl⟩, hafter⟩ := State.fetchWord_cases (i := .pixel) (List.mem_of_getElem? ha) hf
      obtain ⟨-, hsnap, hchecked, hwindow, -⟩ := hafter.same
      refine .inr ⟨n, r', rfl,
        ⟨hchecked.trans h.checked, readsAnswered_of_fetchWord (s := u.useChoice) h.reads hf, ?_, ?_⟩, ?_⟩
      · rwa [hwindow]
      · rw [hsnap]
        exact h.refused
      · rw [hwindow]
        omega
  | none =>
    have hne : ¬r.window.todo.isEmpty = true := fun hempty => List.ne_nil_of_mem hk (List.isEmpty_iff.mp hempty)
    simp only [if_neg hne]
    rcases pixelFetch_owed (u := u.useChoice) u.choice h with hstep | ⟨n, r', hstep, howed, hless⟩
    · exact .inl hstep
    · exact .inr ⟨n, r', hstep, howed, Nat.add_lt_add_of_lt_of_le hless (useChoice_schedule_le u)⟩

/-- A PIXEL that lacks a refused cell stops with BUS once its other cells and its choices are used up, if not before. -/
theorem runSteps_pixel_owed {k : Nat} (c n : Nat) {r : Running} {u : State} (he : u.engine = .running r)
    (h : PixelOwed u.busErrors k r) (hn : r.window.todo.length + u.schedule.length ≤ n) (hq : u.Quiet n) :
    ∃ n' sch f, n' ≤ n ∧ u.runSteps pixelStep (c + n) = u.stopped n' sch f u.mem := by
  induction n generalizing r u with
  | zero =>
    have := List.length_pos_of_mem h.lacking
    omega
  | succ n ih =>
    rw [← Nat.add_assoc, runSteps_succ _ _ he (due_eq_false hq)]
    rcases pixelStep_owed h with hstep | ⟨m, r', hstep, howed, hless⟩
    · refine ⟨1, u.useChoice.schedule, u.freeCount, by omega, ?_⟩
      rw [hstep, runSteps_idle _ _ rfl, tick_raise_bus]
      rfl
    · obtain ⟨n', sch, f, hn', hrun⟩ := ih (u := ((u.useChoice.useFree m).progress r').tick) rfl howed
        (Nat.le_of_lt_succ (Nat.lt_of_lt_of_le hless hn)) (hq.elapse rfl)
      refine ⟨1 + n', sch, f, by omega, ?_⟩
      rw [hstep, hrun, stopped_progress, State.tick_mem, State.progress_mem, State.useFree_mem, State.useChoice_mem]

/-- Settles O32: SAMPLE's one read is refused; a PIXEL never fills the cell whose read is refused, and so cannot complete
before that read stops it. -/
theorem busErrorStopsSampleAndPixel : Obligations.BusErrorStopsSampleAndPixel := by
  unfold Obligations.BusErrorStopsSampleAndPixel
  refine ⟨fun s a h hq hs hk ha hrefused => exec_sample_refused h hq hs hk ha hrefused,
    fun s k a h hq hs hk ha hrefused => ?_⟩
  have howed : PixelOwed s.busErrors k (startedRunning .pixel s) :=
    ⟨rfl, fun _ hp => absurd hp List.not_mem_nil,
      List.mem_filter.mpr ⟨List.mem_range.mpr (Nat.lt_succ_of_le hk), Option.isSome_of_eq_some ha⟩, a, ha, hrefused⟩
  have hquiet : (s.started .pixel).Quiet (21 + s.schedule.length) :=
    State.Quiet.elapse (k := 1) (hq.mono (by omega)) rfl
  obtain ⟨n, sch, f, hn, hrun⟩ := runSteps_pixel_owed (u := s.started .pixel) (25 * (s.width.toNat * s.height.toNat) + 2)
    (21 + s.schedule.length) rfl howed (Nat.add_le_add_right (length_startWindow_pixel_le s) _) hquiet
  refine ⟨1 + n, sch, f, by omega, ?_⟩
  rw [exec_started h (hq.mono (by omega)) ((startError_pixel_none_iff _).mpr hs),
    show 25 * (s.width.toNat * s.height.toNat) + 23 + s.schedule.length =
      25 * (s.width.toNat * s.height.toNat) + 2 + (21 + s.schedule.length) by omega]
  exact congrArg _ (hrun.trans (stopped_started h.1 n sch f s.mem))

end Sys2Proof.Machine
end

section
/-! PROOF. APPLY with any answers of memory (60_exceptions.md R293): how its run ends, and the first step where every read
is refused. -/

namespace Sys2Proof.Machine

/-! ### The run of an APPLY -/

/-- s after n block steps that leave the choices sch and memory m, with APPLY stopped by BUS or completed. -/
def State.applyEnded (s : State) (bus : Bool) (n : Nat) (sch : List Choice) (m : Memory) : State :=
  if bus then s.stopped n sch s.freeCount m else s.applyDone n sch m

theorem applyEnded_afterAccess (s : State) (r : Running) (m' : Memory) (bus : Bool) (n : Nat) (sch : List Choice)
    (m : Memory) : (s.afterAccess r m').applyEnded bus n sch m = s.applyEnded bus (1 + n) sch m := by
  cases bus with
  | false => exact applyDone_afterAccess s r m' n sch m
  | true =>
    show (s.afterAccess r m').stopped n sch s.freeCount m = s.stopped (1 + n) sch s.freeCount m
    unfold State.stopped
    rw [← elapse_elapse n 1]
    rfl

theorem applyEnded_started {s : State} (h : s.engine = .idle) (bus : Bool) (n : Nat) (sch : List Choice) (m : Memory) :
    (s.started .apply).applyEnded bus n sch m =
      { s with
        done := true, err := bus, errCode := if bus then .bus else .none, inputs := elapse (1 + n) s.inputs, mem := m,
        schedule := sch } := by
  cases bus with
  | false => exact applyDone_started h n sch m
  | true => exact stopped_started h n sch s.freeCount m

/-- What an APPLY on the image of m0 that began its run with memory m1 leaves in memory m, stopped by BUS or not. -/
structure ApplyOutcome (m0 : Memory) (l : List (Access × Nat)) (q : Snapshot) (m1 : Memory) (bus : Bool) (m : Memory) :
    Prop where
  refused : bus = true ↔ q.Refused l
  memory : ∃ todo, ScanMemory m0 q todo m
  oneCell : q.WritesRefused l → q.OneCell m1 m

/-- The run of an APPLY past its start checks, whatever memory answers: it stops on an access that is refused, or
completes with none owed, so that none was (45_scan_driver.md R253; log 5, log 6, log 8, log 22). -/
theorem runSteps_apply_any {m0 : Memory} {q : Snapshot} (hs : q.SrcOk) (hd : q.DstOk) (c k : Nat) {r : Running}
    {u : State} (he : u.engine = .running r) (hheld : ∀ a ∈ q.readable .apply, u.heldWord a = none)
    (h : ScanRight m0 u.busErrors q r u.mem) (hk : sumLeft r.todo + u.schedule.length < k) (hq : u.Quiet k) :
    ∃ bus n sch m, u.runSteps applyStep (c + k) = u.applyEnded bus n sch m ∧
      ApplyOutcome m0 u.busErrors q u.mem bus m := by
  induction k generalizing r u with
  | zero => omega
  | succ k ih =>
    rw [← Nat.add_assoc, runSteps_succ _ _ he (due_eq_false hq)]
    rcases applyStep_right hs hd hheld h with
      ⟨htodo, hstep⟩ | ⟨m', todo', hstep, hmem, hrefused, hcell⟩ | ⟨r', m', hstep, hright, hless, hwrites⟩
    case inl =>
      have hnone : ¬q.Refused u.busErrors := not_refused_of_owed (htodo ▸ h.owed)
      refine ⟨false, 1, u.schedule, u.mem, ?_, by simp [hnone], ⟨_, h.memory⟩, fun _ => oneCell_refl q u.mem⟩
      rw [hstep, runSteps_idle _ _ rfl]
      exact tick_complete u
    case inr.inl =>
      refine ⟨true, 1, u.schedule.tail, m', ?_, iff_of_true rfl hrefused, ⟨_, hmem⟩, fun _ => hcell⟩
      rw [hstep, runSteps_idle _ _ rfl]
      exact tick_raise_bus { u with mem := m', schedule := u.schedule.tail }
    case inr.inr =>
      obtain ⟨bus, n, sch, m, hrun, hrefused, hmem, hcell⟩ := ih (u := u.afterAccess r' m') rfl hheld hright
        (Nat.lt_of_lt_of_le hless (Nat.le_of_lt_succ hk)) (hq.elapse rfl)
      refine ⟨bus, 1 + n, sch, m, ?_, hrefused, hmem, fun hall => ?_⟩
      · rw [hstep, ← applyEnded_afterAccess u r' m', ← hrun]
        rfl
      · rw [← hwrites hall]
        exact hcell hall

/-- The whole run of an APPLY that passes its start checks, on a source whose stores are performed. -/
theorem exec_apply_any {s : State} (h : s.Ready)
    (hq : s.Quiet (25 * (s.width.toNat * s.height.toNat) + 2 + s.schedule.length)) (hm : s.mem.wf) (hs : s.latch.SrcOk)
    (hd : s.latch.DstOk) (hheld : ∀ a, s.latch.inSrc a = true → s.heldWord a = none) :
    ∃ bus n sch m,
      exec .apply s =
        .next { s with
          done := true, err := bus, errCode := if bus then .bus else .none, inputs := elapse n s.inputs, mem := m,
          schedule := sch } ∧
      ApplyOutcome s.mem s.busErrors s.latch s.mem bus m := by
  have hleft : sumLeft s.latch.jobs ≤ 25 * (s.width.toNat * s.height.toNat) := sum_left_jobs s.latch
  have hquiet : (s.started .apply).Quiet (25 * (s.width.toNat * s.height.toNat) + 1 + s.schedule.length) :=
    State.Quiet.elapse (k := 1) (hq.mono (by omega)) rfl
  obtain ⟨bus, n, sch, m, hrun, hout⟩ := runSteps_apply_any (u := s.started .apply) hs hd 22
    (25 * (s.width.toNat * s.height.toNat) + 1 + s.schedule.length) rfl
    (fun a ha => hheld a (inSrc_of_isSource hs (isSource_of_readable ha))) (scanRight_started hm hs hd)
    (show sumLeft s.latch.jobs + s.schedule.length < _ by omega) hquiet
  refine ⟨bus, 1 + n, sch, m, ?_, hout⟩
  rw [exec_started h (hq.mono (by omega)) ((startError_apply_none_iff _).mpr ⟨hs, hd⟩),
    show 25 * (s.width.toNat * s.height.toNat) + 23 + s.schedule.length =
      22 + (25 * (s.width.toNat * s.height.toNat) + 1 + s.schedule.length) by omega]
  exact congrArg _ (hrun.trans (applyEnded_started h.1 bus n sch m))

/-! ### Every read refused -/

/-- Memory answers the read of each source word with `bus_error`. -/
def Snapshot.ReadsRefused (q : Snapshot) (l : List (Access × Nat)) : Prop :=
  ∀ n, n < q.w * q.h → (Access.read, q.srcBase.toNat + 4 * n) ∈ l

theorem Snapshot.ReadsRefused.of_isSource {q : Snapshot} {l : List (Access × Nat)} {a : Nat} (h : q.ReadsRefused l)
    (ha : q.IsSource a) : (Access.read, a) ∈ l := by
  obtain ⟨n, hn, rfl⟩ := ha
  exact h n hn

section
variable {u : State} {r : Running} (hreads : r.ReadsAnswered u.busErrors) (hrefused : r.snap.ReadsRefused u.busErrors)
include hreads hrefused

theorem fetchNext_of_readsRefused {win : Window} {x y : Nat} {ks : List Nat} (c : Choice)
    (hwin : win.Legal r.snap x y ks) (hne : win.todo ≠ []) : u.fetchNext r win x y c = none := by
  have hlt : c.item % win.todo.length < win.todo.length := Nat.mod_lt _ (List.length_pos_iff.mpr hne)
  obtain ⟨-, hsub, -⟩ := hwin
  obtain ⟨-, hin⟩ := List.mem_filter.mp (hsub.subset (List.getElem_mem hlt))
  obtain ⟨a, ha⟩ := Option.isSome_iff_exists.mp hin
  unfold State.fetchNext
  rw [List.getElem?_eq_getElem hlt]
  simp only
  rw [fetchCell_of_refused _ hreads ha (hrefused.of_isSource (isSource_of_cellAddr ha))]

/-- A job that has read nothing yet begins with a read. -/
theorem jobStep_of_readsRefused {j : PixelJob} (i : Nat) (c : Choice) (hj : j ∈ r.snap.jobs) :
    jobStep r i j c u = u.raise .bus := by
  obtain ⟨⟨x, y⟩, hp, rfl⟩ := List.mem_map.mp hj
  obtain ⟨hx, hy⟩ := mem_pixels.mp hp
  have hcenter : 10 ∈ (r.snap.window x y allCells).todo :=
    List.mem_filter.mpr ⟨by decide, Option.isSome_of_eq_some (cellAddr_center hx hy)⟩
  unfold jobStep
  simp only
  rw [fetchNext_of_readsRefused hreads hrefused c (legal_window r.snap x y allCells) (List.ne_nil_of_mem hcenter)]

/-- An APPLY that has read nothing yet, with a source pixel before it, begins with a read. -/
theorem applyStep_of_readsRefused (hc : r.checked = true) (htodo : r.todo = r.snap.jobs)
    (hne : 0 < r.snap.w * r.snap.h) : applyStep r u = u.useChoice.raise .bus := by
  unfold applyStep
  rw [if_pos hc]
  cases he : u.choice.read.extraWord r.snap.sourceWord with
  | some a =>
    obtain ⟨n, -, ha⟩ := extraWord_eq_some he
    have hread := hrefused.of_isSource (isSource_of_sourceWord ha)
    simp only [State.extraRead]
    rw [fetchWord_of_refused (s := u.useChoice) none hreads hread]
  | none =>
    have hpos : 0 < r.todo.length := by
      rw [htodo]
      simpa [Snapshot.jobs, length_pixels] using hne
    have hlt : u.choice.job % r.todo.length < r.todo.length := Nat.mod_lt _ hpos
    simp only [List.getElem?_eq_getElem hlt]
    exact jobStep_of_readsRefused (u := u.useChoice) hreads hrefused _ _ (htodo ▸ List.getElem_mem hlt)

end

/-- Where every read is refused the first one stops APPLY, and no cell has changed. -/
theorem exec_apply_readsRefused {s : State} (h : s.Ready) (hq : s.Quiet 2) (hs : s.latch.SrcOk) (hd : s.latch.DstOk)
    (hne : 0 < s.latch.w * s.latch.h) (hrefused : s.latch.ReadsRefused s.busErrors) :
    exec .apply s =
      .next { s with
        done := true, err := true, errCode := .bus, inputs := elapse 2 s.inputs, schedule := s.schedule.tail } :=
  exec_of_bus h hq ((startError_apply_none_iff _).mpr ⟨hs, hd⟩)
    (applyStep_of_readsRefused (r := startedRunning .apply s) (u := s.started .apply)
      (fun _ hp => absurd hp List.not_mem_nil) hrefused rfl rfl hne)

/-- Settles O34: the run with any answers, whose end says of each cell that it is old or final, and of all other bytes
that they are old; with every read refused it is the run of the one read. -/
theorem applyLeavesCellsOldOrFinal : Obligations.ApplyLeavesCellsOldOrFinal := by
  unfold Obligations.ApplyLeavesCellsOldOrFinal
  intro s h hq hm hs hd hheld
  obtain ⟨bus, n, sch, m, hexec, hrefused, ⟨todo, hmem⟩, hcell⟩ := exec_apply_any h hq hm hs hd hheld
  refine ⟨_, hexec, h.1, rfl, fun hbus => if_pos hbus, hrefused, fun hne hall => ⟨s.schedule.tail, ?_⟩, hcell,
    rfl, rfl, rfl, rfl, rfl, rfl, fun x y k hx hy => (hmem.cells x y k hx hy).symm.imp_left And.left, hmem.outside⟩
  have hquiet : s.Quiet 2 := hq.mono (by omega)
  exact Host.Outcome.next.inj (hexec.symm.trans (exec_apply_readsRefused h hquiet hs hd hne hall))

end Sys2Proof.Machine
end

section
/-! PROOF. The order of the start checks, overrun, the step in which no event lands, and `irq` (60_exceptions.md). -/

namespace Sys2Proof.Machine

/-! ### The start checks in order -/

theorem findSome?_cons_of_ite {q : Snapshot} {f : Snapshot → Option ErrCode} {l : List (Snapshot → Option ErrCode)}
    {p : Prop} [Decidable p] {c : ErrCode} (h : f q = if p then some c else none) :
    (f :: l).findSome? (fun g => g q) = if p then some c else l.findSome? fun g => g q := by
  rw [List.findSome?_cons, h]
  by_cases hp : p
  · rw [if_pos hp, if_pos hp]
  · rw [if_neg hp, if_neg hp]

theorem startError_apply_eq (q : Snapshot) :
    startError .apply q =
      if q.srcLen.toNat ≠ q.w * q.h then some .srcLen
      else if q.dstLen.toNat ≠ (2 * q.w) * (2 * q.h) then some .dstLen
      else if q.w * q.h = 0 then none
      else if q.srcBase.toNat % 4 ≠ 0 then some .align
      else if q.dstBase.toNat % 4 ≠ 0 then some .align
      else if q.srcEnd > 2 ^ 32 then some .range
      else if q.dstEnd > 2 ^ 32 then some .range
      else if q.srcBase.toNat < q.dstEnd ∧ q.dstBase.toNat < q.srcEnd then some .overlap
      else none := by
  unfold startError startChecks
  simp only [findSome?_cons_of_ite (checkSrcLen.eq_1 q), findSome?_cons_of_ite (checkDstLen.eq_1 q),
    findSome?_cons_of_ite (checkSrcAlign.eq_1 q), findSome?_cons_of_ite (checkDstAlign.eq_1 q),
    findSome?_cons_of_ite (checkSrcRange.eq_1 q), findSome?_cons_of_ite (checkDstRange.eq_1 q),
    findSome?_cons_of_ite (checkOverlap.eq_1 q), List.findSome?_nil, nonEmpty_iff]
  by_cases h0 : q.w * q.h = 0 <;> simp [h0]

theorem startError_pixel_eq (q : Snapshot) :
    startError .pixel q =
      if q.srcLen.toNat ≠ q.w * q.h then some .srcLen
      else if q.w * q.h = 0 then none
      else if q.srcBase.toNat % 4 ≠ 0 then some .align
      else if q.srcEnd > 2 ^ 32 then some .range
      else none := by
  unfold startError startChecks
  simp only [findSome?_cons_of_ite (checkSrcLen.eq_1 q), findSome?_cons_of_ite (checkSrcAlign.eq_1 q),
    findSome?_cons_of_ite (checkSrcRange.eq_1 q), List.findSome?_nil, nonEmpty_iff]
  by_cases h0 : q.w * q.h = 0 <;> simp [h0]

theorem startError_sample_eq (q : Snapshot) :
    startError .sample q =
      if q.srcLen.toNat ≠ q.w * q.h then some .srcLen
      else if q.w * q.h ≠ 0 ∧ q.srcBase.toNat % 4 ≠ 0 then some .align
      else if q.w * q.h ≠ 0 ∧ q.srcEnd > 2 ^ 32 then some .range
      else if q.opk.toNat > 20 then some .arg
      else none := by
  unfold startError startChecks
  simp only [findSome?_cons_of_ite (checkSrcLen.eq_1 q), findSome?_cons_of_ite (checkSrcAlign.eq_1 q),
    findSome?_cons_of_ite (checkSrcRange.eq_1 q), findSome?_cons_of_ite (checkArg.eq_1 q), List.findSome?_nil,
    nonEmpty_iff]

/-- Settles O31: the first start check that fails, in the order of each command's row, is the error of its one step. -/
theorem startChecksInOrder : Obligations.StartChecksInOrder := by
  unfold Obligations.StartChecksInOrder
  intro s h hq
  exact ⟨fun c hc => exec_failed h hq ((startError_apply_eq s.latch).trans hc),
    fun c hc => exec_failed h hq ((startError_pixel_eq s.latch).trans hc),
    fun c hc => exec_failed h hq ((startError_sample_eq s.latch).trans hc)⟩

/-! ### Overrun -/

theorem registerAt_eq_status : ∀ off : BitVec 8, registerAt off = some .status → off = 0x08#8 := by decide

theorem setReg_ovr (s : State) (v : Word) {n : RegName} (hn : n ≠ .status) : (s.setReg v n).ovr = s.ovr := by
  cases n with
  | status => exact absurd rfl hn
  | _ => rfl

/-- Of the register writes only one to STATUS with bit 3 set clears OVR (10_state.md R35). -/
theorem writeReg_ovr {s : State} {off : BitVec 8} {v : Word} (hs : s.ovr = true)
    (hclear : off = 0x08#8 → v.getLsbD 3 = false) : (s.writeReg off v).ovr = true := by
  unfold State.writeReg
  split
  · exact hs
  · split
    · next n hreg =>
      by_cases hn : n = .status
      · subst hn
        rw [State.setReg, State.writeStatus_ovr, hs, hclear (registerAt_eq_status off hreg)]
        rfl
      · rw [setReg_ovr s v hn, hs]
    · exact hs

theorem race_ovr (s : State) (r : Running) (i : Instr) : (s.race r i).ovr = s.ovr := by cases i <;> rfl

theorem disturbed_ovr (s : State) (b : Running → Instr → Bool) : (s.disturbed b).ovr = s.ovr := by
  rcases s.disturbed_cases b with h | ⟨r, i, -, -, -, h⟩
  · rw [h]
  · rw [h, race_ovr]

theorem wait_ovr (s : State) : s.wait.ovr = s.ovr := by
  unfold State.wait
  split <;> rfl

/-- No step of the block touches OVR (60_exceptions.md R294). -/
theorem runBlock_ovr {s : State} {r : Running} (he : s.engine = .running r) :
    (s.runBlock (wordStep r.word)).ovr = s.ovr := by
  refine runBlock_induct (fun u => u.ovr = s.ovr) ?_ he rfl
  intro u r' _ _ _ _ hu
  obtain ⟨hsame, -⟩ := wordStep_cases r' u
  exact hsame.ovr.trans hu

/-- OVR stays over every event but `rst` and a write to STATUS with bit 3 set; acceptance does not clear it (10_state.md
R35, R56). -/
theorem perform_ovr {e : Event} {s t : State} (h : perform e s = .next t) (hs : s.ovr = true)
    (hclear : ∀ v, e = .regWrite 0x08#8 v → v.getLsbD 3 = false) (hrst : ∀ b, e ≠ .rst b) : t.ovr = true := by
  cases e with
  | regRead off =>
    simp only [perform] at h
    split at h <;> cases h
    exact hs
  | regWrite off v =>
    simp only [perform] at h
    split at h
    · split at h
      · rw [command_eq_issue] at h
        rcases issue_cases h with rfl | rfl | ⟨-, rfl⟩
        · exact hs
        · rfl
        · exact (runBlock_ovr (s := s.accept v) rfl).trans hs
      · cases h
        exact writeReg_ovr hs fun hoff => hclear v (by rw [hoff])
    · cases h
  | store a v => cases h; exact (disturbed_ovr _ _).trans hs
  | hold n v => cases h; exact (disturbed_ovr _ _).trans hs
  | drain n =>
    cases h
    unfold State.drain
    split
    · exact hs
    · exact (disturbed_ovr _ _).trans hs
  | rst b => exact absurd rfl (hrst b)
  | busErrors l => cases h; exact hs

theorem goOn_ovr (s : State) : s.goOn.ovr = s.ovr := by
  unfold State.goOn
  split
  · exact wait_ovr s
  · next he => exact runBlock_ovr he

/-- Settles O7: a CMD write to a busy block is dropped before it is decoded; OVR stays while the block goes on, and the
event that lands decides else. -/
theorem overrunIsDroppedAndSticky : Obligations.OverrunIsDroppedAndSticky := by
  unfold Obligations.OverrunIsDroppedAndSticky
  refine ⟨fun s v hrst hbusy => command_of_busy v hrst hbusy, fun s t hstep hs ht => ?_⟩
  by_contra hno
  obtain ⟨hclear, hrst⟩ := not_or.mp hno
  rw [Bool.eq_false_iff] at ht
  apply ht
  rw [step_eq] at hstep
  cases hl : s.landing with
  | some e =>
    rw [hl] at hstep hclear hrst
    exact perform_ovr (s := { s with inputs := s.inputs.tail }) hstep hs
      (fun v hv => Bool.eq_false_iff.mpr fun hbit => hclear ⟨v, by rw [hv], hbit⟩) fun b hb => hrst ⟨b, by rw [hb]⟩
  | none =>
    rw [hl] at hstep
    cases hstep
    exact (goOn_ovr s).trans hs

/-! ### The step in which no event lands -/

theorem wait_eq (s : State) :
    s.wait = { s with inputs := s.inputs.modifyHead fun i => { i with after := 0 } } := by
  unfold State.wait
  split
  · next hin =>
    rw [hin]
    cases s
    cases hin
    rfl
  · next hin => rw [hin]; rfl

theorem goOn_of_idle {s : State} (h : s.engine = .idle) : s.goOn = s.wait := by
  unfold State.goOn
  rw [h]

theorem goOn_of_running {s : State} {r : Running} (h : s.engine = .running r) :
    s.goOn = s.runSteps (wordStep r.word) s.left := by
  unfold State.goOn
  rw [h]
  rfl

/-- Settles O5: with no event landing the step is `State.goOn`, which runs the block or waits. -/
theorem stepGoesOnWithTheRunningCommand : Obligations.StepGoesOnWithTheRunningCommand := by
  unfold Obligations.StepGoesOnWithTheRunningCommand
  intro s hl
  have hstep : step s = .next s.goOn := by rw [step_eq, hl]
  refine ⟨fun r he => ?running, fun he => ?idle⟩
  case running => rw [hstep, goOn_of_running he]
  case idle => rw [hstep, goOn_of_idle he, wait_eq]

/-! ### `irq` -/

theorem irq_of_done_false {s : State} (h : s.done = false) : s.irq = false := by
  rw [State.irq, h, Bool.and_false]

theorem ctrlWord_bit_zero (s : State) : s.ctrlWord.getLsbD 0 = s.irqEn := by
  rw [State.ctrlWord, BitVec.getLsbD_append]
  cases s.irqEn <;> rfl

theorem statusWord_bit_one (s : State) : s.statusWord.getLsbD 1 = s.done := by
  have hbit : s.statusWord.toNat / 2 % 2 = s.done.toNat := by
    have := s.busy.toNat_lt
    have := s.done.toNat_lt
    rw [statusWord_toNat]
    omega
  rw [← BitVec.testBit_toNat, Nat.testBit_succ, Nat.testBit_zero, hbit]
  cases s.done <;> rfl

/-- Settles O49: each update sets IRQ_EN or DONE as `irq` then shows. -/
theorem irqIsEnabledDone : Obligations.IrqIsEnabledDone := by
  unfold Obligations.IrqIsEnabledDone
  intro s
  refine ⟨?layout, Bool.and_true _, fun _ => Bool.and_true _, fun v hv => ?clearDone, fun v hv => ?disable,
    fun _ => irq_of_done_false rfl⟩
  case layout => rw [ctrlWord_bit_zero, statusWord_bit_one, State.irq, Bool.and_eq_true]
  case clearDone =>
    refine irq_of_done_false ?_
    rw [State.setReg, State.writeStatus_done, hv]
    exact Bool.and_false _
  case disable =>
    show (v.getLsbD 0 && s.done) = false
    rw [hv]
    rfl

end Sys2Proof.Machine
end

section
/-! PROOF. The result registers change only at a successful completion, every command completes, and `rst`
(70_reset_and_hazards.md). -/

namespace Sys2Proof.Machine

/-! ### The result registers -/

theorem State.SameResults.trans {s t u : State} (h : s.SameResults t) (h' : t.SameResults u) : s.SameResults u :=
  ⟨h'.res0.trans h.res0, h'.res1.trans h.res1, h'.res2.trans h.res2, h'.res3.trans h.res3,
    h'.decision.trans h.decision⟩

theorem sameResults_tick (s : State) : s.SameResults s.tick := ⟨rfl, rfl, rfl, rfl, rfl⟩

theorem sameResults_writeReg (s : State) (off : BitVec 8) (v : Word) : s.SameResults (s.writeReg off v) := by
  unfold State.writeReg
  split
  · exact .refl s
  · split
    · next n _ => cases n <;> exact ⟨rfl, rfl, rfl, rfl, rfl⟩
    · exact .refl s

theorem sameResults_disturbed (s : State) (b : Running → Instr → Bool) : s.SameResults (s.disturbed b) := by
  rcases s.disturbed_cases b with h | ⟨r, i, -, -, -, h⟩ <;> rw [h]
  · exact .refl s
  · rw [State.race_eq]
    split <;> exact ⟨rfl, rfl, rfl, rfl, rfl⟩

theorem sameResults_wait (s : State) : s.SameResults s.wait := by
  rw [wait_eq]
  exact ⟨rfl, rfl, rfl, rfl, rfl⟩

/-- STATUS after a successful completion (60_exceptions.md R291). -/
def State.Succeeded (t : State) : Prop := t.busy = false ∧ t.done = true ∧ t.err = false

/-- A step of the running command leaves the results alone, or completes it successfully. -/
theorem wordStep_results {s : State} {r : Running} (he : s.engine = .running r) (hs : s.StatusLegal) :
    s.SameResults (wordStep r.word r s) ∨ (wordStep r.word r s).Succeeded := by
  obtain ⟨-, herr, -⟩ := status_of_running hs he
  obtain ⟨-, i, -, hend, -⟩ := wordStep_cases r s
  cases hend with
  | completed hidle hdone herr' => exact .inr ⟨by rw [State.busy, hidle], hdone, herr'.trans herr⟩
  | failed _ _ _ _ _ _ hresults => exact .inl hresults
  | going _ _ _ _ _ _ _ _ _ _ hresults => exact .inl hresults

theorem runBlock_results {s : State} {r : Running} (he : s.engine = .running r) (hs : s.StatusLegal) :
    s.SameResults (s.runBlock (wordStep r.word)) ∨ (s.runBlock (wordStep r.word)).Succeeded := by
  refine (runBlock_induct (fun u => u.StatusLegal ∧ (s.SameResults u ∨ u.Succeeded)) ?_ he ⟨hs, .inl (.refl s)⟩).2
  intro u r' he' _ _ _ ⟨hlegal, hresults⟩
  have hsame : s.SameResults u := by
    refine hresults.resolve_right fun ⟨hidle, _⟩ => ?_
    rw [u.busy_iff.mpr ⟨r', he'⟩] at hidle
    cases hidle
  refine ⟨statusLegal_same ⟨rfl, rfl, rfl, rfl, rfl⟩ (statusLegal_wordStep he' hlegal), ?_⟩
  exact (wordStep_results he' hlegal).imp_left fun h => (hsame.trans h).trans (sameResults_tick _)

/-- An event other than `rst` leaves the results alone, or it is a CMD write whose command completes successfully. -/
theorem perform_results {e : Event} {s t : State} (h : perform e s = .next t) (hrst : ∀ b, e ≠ .rst b) :
    s.SameResults t ∨ t.Succeeded := by
  cases e with
  | regRead off =>
    simp only [perform] at h
    split at h <;> cases h
    exact .inl ⟨rfl, rfl, rfl, rfl, rfl⟩
  | regWrite off v =>
    simp only [perform] at h
    split at h
    · split at h
      · rw [command_eq_issue] at h
        rcases issue_cases h with rfl | rfl | ⟨-, rfl⟩
        · exact .inl (.refl t)
        · exact .inl ⟨rfl, rfl, rfl, rfl, rfl⟩
        · have haccept : s.SameResults (s.accept v) := ⟨rfl, rfl, rfl, rfl, rfl⟩
          exact (runBlock_results (s := s.accept v) rfl (statusLegal_running rfl rfl rfl)).imp_left haccept.trans
      · cases h
        exact .inl (sameResults_writeReg s off v)
    · cases h
  | store a v =>
    cases h
    have hbyte : s.SameResults (s.storeByte a.toNat v) := ⟨rfl, rfl, rfl, rfl, rfl⟩
    exact .inl (hbyte.trans (sameResults_disturbed _ _))
  | hold n v =>
    cases h
    have hheld : s.SameResults (s.setHeld ((n, v) :: heldExcept s.held n)) := ⟨rfl, rfl, rfl, rfl, rfl⟩
    exact .inl (hheld.trans (sameResults_disturbed _ _))
  | drain n =>
    cases h
    unfold State.drain
    split
    · exact .inl (.refl s)
    · next v _ =>
      have hword : s.SameResults ((s.storeWord (4 * n.toNat) v).setHeld (heldExcept s.held n)) :=
        ⟨rfl, rfl, rfl, rfl, rfl⟩
      exact .inl (hword.trans (sameResults_disturbed _ _))
  | rst b => exact absurd rfl (hrst b)
  | busErrors l =>
    cases h
    exact .inl ⟨rfl, rfl, rfl, rfl, rfl⟩

theorem goOn_results {s : State} (hs : s.StatusLegal) : s.SameResults s.goOn ∨ s.goOn.Succeeded := by
  unfold State.goOn
  split
  · exact .inl (sameResults_wait s)
  · next he => exact runBlock_results he hs

/-- Settles O8: with no event landing the running command goes on, and else the event decides; the reads follow the
register map. -/
theorem resultsChangeOnlyAtSuccessfulCompletion : Obligations.ResultsChangeOnlyAtSuccessfulCompletion := by
  unfold Obligations.ResultsChangeOnlyAtSuccessfulCompletion
  refine ⟨fun s t hs hstep hchanged => ?changes, fun s hrst => ?reads⟩
  case changes =>
    by_contra hno
    obtain ⟨hfailed, hrst⟩ := not_or.mp hno
    have hresults : s.SameResults t ∨ t.Succeeded := by
      rw [step_eq] at hstep
      cases hl : s.landing with
      | some e =>
        rw [hl] at hstep hrst
        refine (perform_results hstep fun b hb => hrst ⟨b, by rw [hb]⟩).imp_left fun h => ?_
        exact ⟨h.res0, h.res1, h.res2, h.res3, h.decision⟩
      | none =>
        rw [hl] at hstep
        cases hstep
        exact goOn_results hs
    have hsame := hresults.resolve_right hfailed
    simp [hsame.res0, hsame.res1, hsame.res2, hsame.res3, hsame.decision] at hchanged
  case reads =>
    simp only [readReg_eq hrst]
    exact ⟨rfl, rfl, rfl, rfl, rfl⟩

/-! ### Every command completes -/

theorem Running.left_pos (r : Running) : 0 < r.left := by
  unfold Running.left
  split <;> omega

/-- The command has completed, successfully or not, and no event is to land (60_exceptions.md R280). -/
def State.Finished (t : State) : Prop := t.engine = .idle ∧ t.done = true ∧ t.inputs = []

/-- A step of the running command completes it, or lowers the bound of the steps that it still needs
(70_reset_and_hazards.md R341). -/
theorem wordStep_finishes {s : State} {r : Running} (hin : s.inputs = []) :
    (wordStep r.word r s).tick.Finished ∨
      ∃ r', (wordStep r.word r s).engine = .running r' ∧ (wordStep r.word r s).tick.inputs = [] ∧
        r'.left + (wordStep r.word r s).schedule.length < r.left + s.schedule.length := by
  obtain ⟨hout, i, -, hend, -⟩ := wordStep_cases r s
  have hin' : (wordStep r.word r s).tick.inputs = [] := by rw [State.tick_inputs, hout.inputs, hin]; rfl
  cases hend with
  | completed hidle hdone => exact .inl ⟨hidle, hdone, hin'⟩
  | failed _ _ hidle hdone => exact .inl ⟨hidle, hdone, hin'⟩
  | going r' hgo _ _ _ _ hless => exact .inr ⟨r', hgo, hin', hless⟩

/-- A run of as many steps as the bound allows ends with the completion of its command. -/
theorem runSteps_finished {w : Word} (n : Nat) {s : State} {r : Running} (he : s.engine = .running r) (hw : r.word = w)
    (hin : s.inputs = []) (hn : r.left + s.schedule.length ≤ n) : (s.runSteps (wordStep w) n).Finished := by
  induction n generalizing s r with
  | zero => have := r.left_pos; omega
  | succ n ih =>
    subst hw
    rw [runSteps_succ _ n he (due_eq_false (quiet_of_nil hin 1))]
    rcases wordStep_finishes (r := r) hin with hdone | ⟨r', hgo, hin', hless⟩
    · rwa [runSteps_idle _ _ hdone.1]
    · exact ih hgo (wordStep_word hgo) hin' (by rw [State.tick_schedule]; omega)

theorem runBlock_finished {s : State} {r : Running} (he : s.engine = .running r) (hin : s.inputs = []) :
    (s.runBlock (wordStep r.word)).Finished := by
  refine runSteps_finished _ he rfl hin ?_
  rw [State.left, he]

theorem step_of_no_inputs {s : State} (hin : s.inputs = []) : step s = .next s.goOn := by
  unfold step
  rw [hin]

/-- Settles O10: the block runs an accepted command, or one that is running, for as many steps as its bound allows. -/
theorem everyCommandCompletes : Obligations.EveryCommandCompletes := by
  unfold Obligations.EveryCommandCompletes
  refine ⟨fun s v hready hin => ?accepted, fun s r he hin => ?running⟩
  case accepted =>
    have hdone := runBlock_finished (s := s.accept v) rfl hin
    exact ⟨_, (command_eq_issue v s).trans (issue_ready _ _ hready), hdone⟩
  case running =>
    obtain ⟨hidle, hdone, -⟩ := runBlock_finished he hin
    refine ⟨_, ?_, hidle, hdone⟩
    rw [step_of_no_inputs hin, goOn_of_running he]
    rfl

/-! ### `rst` -/

theorem resetHeld_of_released {s : State} (h : s.rst = false) : s.ResetHeld := fun hr => by
  rw [h] at hr
  cases hr

/-- A block at its reset values runs no command (70_reset_and_hazards.md R321). -/
theorem released_of_running {s : State} {r : Running} (he : s.engine = .running r) (h : s.ResetHeld) :
    s.rst = false := by
  by_contra hr
  have hidle : Engine.idle = s.engine := congrArg State.engine (h (by simpa using hr))
  rw [he] at hidle
  cases hidle

theorem setReg_rst (s : State) (v : Word) (n : RegName) : (s.setReg v n).rst = s.rst := by cases n <;> rfl

theorem race_rst (s : State) (r : Running) (i : Instr) : (s.race r i).rst = s.rst := by cases i <;> rfl

theorem resetHeld_setRst {s : State} (b : Bool) (h : s.ResetHeld) : (s.setRst b).ResetHeld := by
  rcases s.setRst_cases b with hb | hb <;> rw [hb]
  · exact h
  · exact fun _ => rfl

/-- Settles O57, by the induction over what a step can do: the block's own changes happen with `rst` released, and the
environment's others are not of block state. -/
theorem resetInvariantKept : Obligations.ResetInvariantKept := by
  unfold Obligations.ResetInvariantKept
  intro s t hs hstep
  refine step_induct State.ResetHeld ?inputs ?read ?write ?byte ?word ?held ?race ?rst ?bus ?accept ?overrun ?block
    hs hstep
  case inputs => exact fun s l h hr => congrArg (fun u : State => { u with inputs := l }) (h hr)
  case read => exact fun s v h hr => congrArg (fun u : State => { u with readData := v }) (h hr)
  case write => exact fun s n v hr _ => resetHeld_of_released ((setReg_rst s v n).trans hr)
  case byte => exact fun s a v h hr => congrArg (State.storeByte · a.toNat v) (h hr)
  case word => exact fun s n v h hr => congrArg (State.storeWord · (4 * n.toNat) v) (h hr)
  case held => exact fun s l h hr => congrArg (State.setHeld · l) (h hr)
  case race => exact fun s r i he _ _ h => resetHeld_of_released ((race_rst s r i).trans (released_of_running he h))
  case rst => exact fun s b => resetHeld_setRst b
  case bus => exact fun s l h hr => congrArg (fun u : State => { u with busErrors := l }) (h hr)
  case accept => exact fun s w _ hr _ => resetHeld_of_released hr
  case overrun => exact fun s hr _ => resetHeld_of_released hr
  case block =>
    exact fun s r he h => resetHeld_of_released ((wordStep_cases r s).1.rst.trans (released_of_running he h))

theorem setRst_of_reset {s : State} {b : Bool} (h : b = true ∨ s.rst = true) :
    s.setRst b = { s.resetBlock with rst := b } :=
  if_pos (Bool.or_eq_true_iff.mpr h)

section
variable {s : State} (hrst : s.rst = true)
include hrst

theorem issue_of_rst (step : BlockStep) (w : Word) : issue step w s = .next s := if_pos hrst

theorem readReg_of_rst (off : BitVec 8) : s.readReg off = 0#32 := if_pos hrst

theorem writeReg_of_rst (off : BitVec 8) (v : Word) : s.writeReg off v = s := if_pos hrst

end

/-- Settles O52: the landing event is `State.setRst`, and under reset the register port and `issue` do nothing. -/
theorem resetClearsTheBlockAndKeepsMemory : Obligations.ResetClearsTheBlockAndKeepsMemory := by
  unfold Obligations.ResetClearsTheBlockAndKeepsMemory
  refine ⟨fun s level rest hin hreset => ?reset, fun s off v rest hrst hoff => ⟨fun hin => ?read, fun hin => ?write⟩,
    fun s i hrst => ?command⟩
  case reset =>
    rw [step_of_landing hin]
    exact congrArg Host.Outcome.next (setRst_of_reset hreset)
  case read => rw [step_regRead hin hoff, readReg_of_rst hrst]
  case write =>
    by_cases hcmd : off = cmdOffset
    · subst hcmd
      rw [step_cmdWrite hin, command_eq_issue]
      exact issue_of_rst (s := { s with inputs := rest }) hrst _ _
    · rw [step_regWrite hin hoff hcmd]
      exact congrArg Host.Outcome.next (writeReg_of_rst (s := { s with inputs := rest }) hrst off v)
  case command => rw [exec_eq_issue, issue_of_rst hrst]

/-! ### The configuration right after reset -/

section
variable {q : Snapshot} (hempty : q.w * q.h = 0)
include hempty

/-- An empty image has no source word (20_memory.md R100). -/
theorem cellAddr_of_empty (x y k : Nat) : q.cellAddr x y k = none := by
  cases ha : q.cellAddr x y k with
  | none => rfl
  | some a =>
    obtain ⟨n, hn, -⟩ := isSource_of_cellAddr ha
    omega

theorem todo_window_of_empty (x y : Nat) (ks : List Nat) : (q.window x y ks).todo = [] :=
  List.isEmpty_iff.mp (inBoundsCells_isEmpty_iff.mpr fun k _ => cellAddr_of_empty hempty x y k)

theorem extraWord_windowWord_of_empty (c : ReadChoice) (x y : Nat) : c.extraWord (q.windowWord x y) = none := by
  cases hword : c.extraWord (q.windowWord x y) with
  | none => rfl
  | some a =>
    obtain ⟨n, -, hn⟩ := extraWord_eq_some hword
    obtain ⟨k, -, hk⟩ := cell_of_windowWord hn
    rw [cellAddr_of_empty hempty] at hk
    cases hk

end

/-- With no cell in the image PIXEL's next step is its completion, racing or not, with what the rules give on its cells
(44_edge_rule_engine.md R232). -/
theorem pixelStep_of_empty {r : Running} (u : State) (hempty : r.snap.w * r.snap.h = 0) (hc : r.checked = true)
    (htodo : r.window.todo = []) : pixelStep r u = (u.setPixelResults (ruleOut r.window.cells)).complete := by
  have hraced : r.racingResults allCells = false := by
    unfold Running.racingResults
    rw [inBoundsCells_isEmpty_iff.mpr fun k _ => cellAddr_of_empty hempty _ _ k]
    exact Bool.and_false _
  unfold pixelStep pixelComplete
  rw [if_pos hc, extraWord_windowWord_of_empty hempty, htodo, hraced]
  rfl

/-- A PIXEL on an empty image completes by its second step with the outputs o of the rules on zero pixels (log 4). -/
theorem exec_pixel_of_empty {s : State} (h : s.Ready) (hq : s.Quiet 2) (hs : s.latch.SrcOk)
    (hempty : s.latch.w * s.latch.h = 0) {o : Fin 4 → QuadrantOut} (ho : ruleOut (List.replicate nCells 0#32) = o) :
    exec .pixel s = .next { s with
      done := true, err := false, errCode := .none, inputs := elapse 2 s.inputs, res0 := (o 0).out, res1 := (o 1).out,
      res2 := (o 2).out, res3 := (o 3).out, decision := decisionWord (fun q => (o q).edge) fun q => (o q).pick } := by
  have hstep := pixelStep_of_empty (r := startedRunning .pixel s) (s.started .pixel) hempty rfl
    (todo_window_of_empty hempty _ _ _)
  rw [exec_unit h hq ((startError_pixel_none_iff _).mpr hs) hstep rfl, tick_setPixelResults_complete,
    pixelDone_started h.1]
  subst ho
  rfl

/-- The rules find no edge among zero pixels, and give 0 (44_edge_rule_engine.md R231, R232). -/
theorem ruleOut_zeroMatrix : ruleOut (List.replicate nCells 0#32) = fun _ => ⟨0#32, false, false⟩ :=
  funext fun _ => ruleOut_zero fun k _ => by
    unfold cell
    rw [List.getD_eq_getElem?_getD, List.getElem?_replicate]
    split <;> rfl

/-- Settles O39: the image after reset is empty, and so each of the three completes by its second step, with what the
rules give on zero pixels. -/
theorem resetStateIsALegalConfiguration : Obligations.ResetStateIsALegalConfiguration := by
  unfold Obligations.ResetStateIsALegalConfiguration
  intro m hd l sch c s
  have hready : s.Ready := ⟨rfl, rfl⟩
  have hquiet : s.Quiet 2 := quiet_of_nil rfl 2
  have hsrc : s.latch.SrcOk := ⟨rfl, fun h => absurd rfl h⟩
  have hpixel := fun o => exec_pixel_of_empty hready hquiet hsrc rfl (o := o)
  obtain ⟨hlt, hbits⟩ := decisionWord_bits (fun q => (ruleOut (List.replicate nCells 0#32) q).edge)
    fun q => (ruleOut (List.replicate nCells 0#32) q).pick
  exact ⟨⟨rfl, rfl, rfl, rfl⟩, (emptyImageApplies s hready hquiet (.inl rfl)).1 rfl rfl,
    ⟨_, hbits, hlt, hpixel _ rfl⟩, hpixel _ ruleOut_zeroMatrix,
    exec_sample_outside hready hquiet hsrc (Nat.zero_le _) (cellAddr_of_empty rfl _ _ _)⟩

end Sys2Proof.Machine
end

section
/-! PROOF. A store that the host has made and that is not performed in memory: what a read of its word returns, and what
making and performing it do (20_memory.md R92, R94, 70_reset_and_hazards.md R331; log 17). -/

namespace Sys2Proof.Machine

/-! ### Reads -/

/-- Every word number is the number of a word of the address space (20_memory.md R80, R82). -/
theorem wordAddr_number (n : BitVec 30) : wordAddr (4 * n.toNat) = true :=
  wordAddr_iff.mpr ⟨by omega, by have := n.isLt; omega⟩

theorem wf_writeWord_number {m : Memory} (hm : m.wf) (n : BitVec 30) (v : Word) : (m.writeWord (4 * n.toNat) v).wf :=
  Memory.wf_writeWord hm (by have := n.isLt; omega) v

/-- The old or the new word, by the next free bit, of the word with number n, for which the host holds v (K1.14; log 7,
log 17). -/
def State.oldOrNew (s : State) (n : BitVec 30) (v : Word) : Word :=
  if (Config.freeWord s.freeCount).getLsbD 0 then v else s.mem.readWord (4 * n.toNat)

theorem oldOrNew_cases (s : State) (n : BitVec 30) (v : Word) :
    s.oldOrNew n v = v ∨ s.oldOrNew n v = s.mem.readWord (4 * n.toNat) := by
  unfold State.oldOrNew
  split
  · exact .inl rfl
  · exact .inr rfl

section
variable {s : State} {n : BitVec 30} (hbus : (.read, 4 * n.toNat) ∉ s.busErrors)
include hbus

theorem memRead_number (raced : Bool) : s.memRead raced (4 * n.toNat) = some (s.answer raced (4 * n.toNat)) :=
  if_pos ((portOk_iff (wordAddr_number n)).mpr hbus)

theorem memRead_of_held {v : Word} (hheld : s.held.lookup n = some v) :
    s.memRead false (4 * n.toNat) = some (s.oldOrNew n v, s.useFree 1) := by
  rw [memRead_number hbus, State.answer, heldWord_number, hheld]
  rfl

theorem memRead_of_not_held (hheld : s.held.lookup n = none) :
    s.memRead false (4 * n.toNat) = some (s.mem.readWord (4 * n.toNat), s) := by
  rw [memRead_number hbus, State.answer, heldWord_number, hheld]
  rfl

/-- A SAMPLE of a word with a store not performed completes with the old or the new word (41_neighborhood_sampler.md
R166). -/
theorem exec_sample_held {v : Word} (h : s.Ready) (hq : s.Quiet 3) (hs : s.latch.SrcOk) (hk : s.opk.toNat ≤ 20)
    (ha : s.latch.cellAddr s.opx.toNat s.opy.toNat s.opk.toNat = some (4 * n.toNat))
    (hheld : s.held.lookup n = some v) :
    exec .sample s = .next { s with
      done := true, err := false, errCode := .none, inputs := elapse 3 s.inputs, freeCount := s.freeCount + 1,
      res0 := s.oldOrNew n v } := by
  have hread : (s.started .sample).readWord (startedRunning .sample s) (4 * n.toNat) =
      some (s.oldOrNew n v, { startedRunning .sample s with reads := [(4 * n.toNat, s.oldOrNew n v)] },
        (s.started .sample).useFree 1) := by
    unfold State.readWord
    rw [show (startedRunning .sample s).raced = false from rfl, memRead_of_held (s := s.started .sample) hbus hheld]
    rfl
  exact exec_sample_read h hq ((startError_sample_none_iff _).mpr ⟨hs, hk⟩) ha hread

end

/-! ### A race -/

theorem race_of_ne_apply (s : State) (r : Running) {i : Instr} (hi : i ≠ .apply) :
    s.race r i = { s with engine := .running { r with raced := true } } := by
  rw [State.race_eq, if_neg hi]

/-- What a race leaves in memory: free words in the destination cells, and all other bytes (20_memory.md R94; log 7). -/
theorem freeDestination_spec {q : Snapshot} {m : Memory} (hm : m.wf) (hd : q.DstOk) (c : Nat) :
    (m.freeWords q.dstBase.toNat c q.dstLen.toNat).wf ∧
      (∀ k, k < q.dstLen.toNat →
        (m.freeWords q.dstBase.toNat c q.dstLen.toNat).readWord (q.dstBase.toNat + 4 * k) = Config.freeWord (c + k)) ∧
      ∀ b, q.inDst b = false → (m.freeWords q.dstBase.toNat c q.dstLen.toNat).readByte b = m.readByte b :=
  ⟨wf_freeDestination hm hd c, fun k hk => Memory.readWord_freeWords hm.1 _ _ _ k hk,
    fun _ hb => Memory.readByte_freeWords_of_ne hm.1 (inDst_eq_false.mp hb)⟩

/-- An APPLY that uses a byte has passed the checks of its destination. -/
theorem dstOk_of_usesByte {s : State} {r : Running} {a : Nat} (h : s.UsesByte a) (he : s.engine = .running r)
    (hw : r.word = 0x00000001#32) : r.snap.DstOk := by
  obtain ⟨r', he', hcase⟩ := h
  cases he.symm.trans he'
  obtain ⟨hw', -⟩ | ⟨hw', -⟩ | ⟨-, -, hd, -⟩ := hcase
  · exact absurd (hw.symm.trans hw') (by decide)
  · exact absurd (hw.symm.trans hw') (by decide)
  · exact hd

theorem overwrites_of_running {s : State} {r : Running} {a : Nat} (h : s.OverwritesByte a)
    (he : s.engine = .running r) : r.word = encode .apply ∧ r.snap.DstOk ∧ r.snap.inDst a = true := by
  obtain ⟨r', he', hw, -, hd, hin⟩ := h
  cases he.symm.trans he'
  exact ⟨hw, hd, hin⟩

/-- A word with its first byte in a destination that passes its checks lies in it whole (20_memory.md R86). -/
theorem word_inDst {q : Snapshot} (hd : q.DstOk) {n b : Nat} (hin : q.inDst (4 * n) = true) (hb : q.inDst b = false) :
    b < 4 * n ∨ 4 * n + 4 ≤ b := by
  obtain ⟨hlen, hbase⟩ := hd
  obtain ⟨hlo, hhi⟩ := inDst_iff.mp hin
  have hout := inDst_eq_false.mp hb
  unfold Snapshot.dstEnd at hhi hout
  have hcells : 2 * q.w * (2 * q.h) = 4 * (q.w * q.h) := by ring
  have halign := (hbase (by omega)).1
  omega

/-! ### Making a store -/

section
variable {s : State} {n : BitVec 30} {v : Word} {rest : List Input} (hin : s.inputs = ⟨0, .hold n v⟩ :: rest)
include hin

/-- A store that touches no word of the running command is only held. -/
theorem step_hold_of_not_usesByte (h : ¬s.UsesByte (4 * n.toNat)) :
    step s = .next { s with inputs := rest, held := (n, v) :: heldExcept s.held n } := by
  rw [step_of_landing hin]
  exact congrArg Host.Outcome.next
    (State.disturbed_of_not (fun _ _ he hd hr => (racesAt_iff (s := s) he hd).mp hr) h)

/-- A store to a word of the running command makes it race. -/
theorem step_hold_of_usesByte {r : Running} {i : Instr} (he : s.engine = .running r) (hd : decode r.word = .ok i)
    (h : s.UsesByte (4 * n.toNat)) :
    step s = .next ({ s with inputs := rest, held := (n, v) :: heldExcept s.held n }.race r i) := by
  rw [step_of_landing hin]
  refine congrArg Host.Outcome.next ((State.disturbed_running ?_ hd _).trans (if_pos ?_))
  · exact he
  · exact (racesAt_iff he hd).mpr h

end

/-! ### Performing a store -/

theorem drain_of_not_held {s : State} {n : BitVec 30} (h : s.held.lookup n = none) : s.drain n = s := by
  unfold State.drain
  rw [h]

theorem drain_of_held {s : State} {n : BitVec 30} {v : Word} (h : s.held.lookup n = some v) :
    s.drain n = { s with mem := s.mem.writeWord (4 * n.toNat) v, held := heldExcept s.held n }.disturbed
      fun r i => r.drainRacesAt i (4 * n.toNat) := by
  unfold State.drain
  rw [h]
  rfl

section
variable {s : State} {n : BitVec 30} {rest : List Input} (hin : s.inputs = ⟨0, .drain n⟩ :: rest)
include hin

theorem step_drain_of_not_held (hheld : s.held.lookup n = none) : step s = .next { s with inputs := rest } := by
  rw [step_of_landing hin]
  exact congrArg Host.Outcome.next (drain_of_not_held hheld)

variable {v : Word} (hheld : s.held.lookup n = some v)
include hheld

/-- Performing a store outside the destination of the running APPLY changes its word alone. -/
theorem step_drain_of_not_overwritesByte (h : ¬s.OverwritesByte (4 * n.toNat)) :
    step s = .next { s with
      inputs := rest, mem := s.mem.writeWord (4 * n.toNat) v, held := heldExcept s.held n } := by
  rw [step_of_landing hin]
  exact congrArg Host.Outcome.next ((drain_of_held (s := { s with inputs := rest }) hheld).trans
    (State.disturbed_of_not (fun _ _ he hd hr => (drainRacesAt_iff (s := s) he hd).mp hr) h))

/-- Performing a store in the destination of the running APPLY makes it race. -/
theorem step_drain_of_overwritesByte {r : Running} (he : s.engine = .running r)
    (h : s.OverwritesByte (4 * n.toNat)) :
    step s = .next ({ s with
      inputs := rest, mem := s.mem.writeWord (4 * n.toNat) v, held := heldExcept s.held n }.race r .apply) := by
  have hd : decode r.word = .ok .apply := (overwrites_of_running h he).1 ▸ decode_encode .apply
  rw [step_of_landing hin]
  refine congrArg Host.Outcome.next ((drain_of_held (s := { s with inputs := rest }) hheld).trans
    ((State.disturbed_running ?_ hd _).trans (if_pos ?_)))
  · exact he
  · exact (drainRacesAt_iff he hd).mpr h

end

/-- Settles O42: a read of a held word takes a free bit; making or performing the store is all that happens where it
breaks no rule, and else the command races. -/
theorem unperformedStoresAreOldOrNew : Obligations.UnperformedStoresAreOldOrNew := by
  unfold Obligations.UnperformedStoresAreOldOrNew
  refine ⟨fun s n hbus => ⟨fun v => memRead_of_held hbus, memRead_of_not_held hbus⟩,
    fun s n v h hq hs hk ha hbus hheld => ⟨_, oldOrNew_cases s n v, exec_sample_held hbus h hq hs hk ha hheld⟩,
    fun s n v rest hin => ⟨step_hold_of_not_usesByte hin, fun r huse he hw => ?holdSource,
      fun r huse he hw hm => ?holdApply⟩,
    fun s n rest hm hin => ⟨step_drain_of_not_held hin, fun v hheld hno => ?drain,
      fun v r hheld hover he => ?drainRace⟩⟩
  case holdSource =>
    obtain ⟨r', i, he', hd⟩ := huse.running
    cases he.symm.trans he'
    have hi : i ≠ .apply := by
      rintro rfl
      exact hw (eq_encode_of_decode hd)
    rw [step_hold_of_usesByte hin he hd huse, race_of_ne_apply _ _ hi]
    rfl
  case holdApply =>
    have hd : decode r.word = .ok .apply := hw ▸ decode_encode .apply
    exact ⟨_, step_hold_of_usesByte hin he hd huse, freeDestination_spec hm (dstOk_of_usesByte huse he hw) _⟩
  case drain =>
    exact ⟨_, step_drain_of_not_overwritesByte hin hheld hno,
      wf_writeWord_number hm n v, Memory.readWord_writeWord hm.1 _ v,
      fun b hb => Memory.readByte_writeWord_of_ne hm.1 v hb⟩
  case drainRace =>
    obtain ⟨-, hdst, hinDst⟩ := overwrites_of_running hover he
    obtain ⟨hwf, hfree, hframe⟩ := freeDestination_spec (wf_writeWord_number hm n v) hdst s.freeCount
    exact ⟨_, step_drain_of_overwritesByte hin hheld he hover, hwf, hfree, fun b hb =>
      (hframe b hb).trans (Memory.readByte_writeWord_of_ne hm.1 v (word_inDst hdst hinDst hb))⟩

end Sys2Proof.Machine
end
